-- ==== Sys2Proof/Word.lean ====
section
/-! DEFINITION. The two widths of STCP: the byte of buffer memory and the 32-bit register and command
word (00_scope.md R5, R6, R8). -/

namespace Sys2Proof

/-- A byte of buffer memory, of a seed row or of a lookup table (00_scope.md R8). -/
abbrev Byte := BitVec 8

/-- A register or a command word: fixed 32 bits (00_scope.md R5), bit 0 the least significant (R6). -/
abbrev Word := BitVec 32

end Sys2Proof
end

