-- ==== Sys2Proof/Syntax.lean ====
section
/-! DEFINITION. The commands of STCP: one constructor per row of spec/opcode_table.json (30_encoding.md R81), with the
flag fields R82 leaves free in that row. -/

namespace Sys2Proof

/-- A command (30_encoding.md R81). No field is an immediate: operands come from registers (R86). -/
inductive Instr where
  /-- NOP: nothing (40_control.md R101). -/
  | nop
  /-- OPEN: claim the session (40_control.md R102). -/
  | openSession
  /-- CLOSE: end the blit and release the session (40_control.md R103). -/
  | closeSession
  /-- SEEDCLR: zero the seed rows (40_control.md R104). -/
  | seedClr
  /-- TPOSE: transpose one group; BPP4 (43_transpose.md R196). -/
  | tpose (bpp4 : Bool)
  /-- ROTSTART: set up a rotated sequence; BPP4 (43_transpose.md R197). -/
  | rotStart (bpp4 : Bool)
  /-- PACK1: 1bpp shift, invert and mask; ROT, INV, MASKOR (42_pack.md R167). -/
  | pack1 (rot inv maskOr : Bool)
  /-- PACK4: 4bpp lookup to 3 planes; ROT, MASKOR (42_pack.md R175). -/
  | pack4 (rot maskOr : Bool)
  /-- COMPRESS: the compression selector; PLANE (41_compress.md R121). -/
  | compress (plane : BitVec 2)
  deriving DecidableEq, Repr

end Sys2Proof
end

