-- ==== Sys2Proof/WellFormed.lean ====
section
/-! DEFINITION. Which command terms are legal commands: PLANE is 0, 1 or 2 (30_encoding.md R83). The flags are
Booleans, so no other term of Instr is ill-formed. -/

namespace Sys2Proof

/-- A command is well-formed unless it is COMPRESS with PLANE = 3, which is illegal (30_encoding.md R83, R84). -/
def Instr.wellFormed : Instr → Bool
  | .compress plane => plane != 3
  | .nop | .openSession | .closeSession | .seedClr => true
  | .tpose _ | .rotStart _ | .pack1 _ _ _ | .pack4 _ _ => true

end Sys2Proof
end

