-- ==== Sys2Proof/Decode.lean ====
section
/-! DEFINITION. The decoder and the encoder of the 32-bit command word (30_encoding.md R80 to R88). The decoder is
total: a word that is no command is refused with a name that says why, and the engine step turns every such refusal
into the error ILLEGAL (R84). -/

namespace Sys2Proof

/-- Why a word is illegal (30_encoding.md R84 lists the three cases, and R83 the fourth). Each raises the same error
ILLEGAL; the names tell the cases apart. -/
inductive DecodeError where
  /-- OP is 0x9 to 0xF. -/
  | reservedOp
  /-- A bit of [31:10] is set. -/
  | reservedBits
  /-- A flag the OP does not use is set. -/
  | unusedFlag
  /-- COMPRESS with PLANE = 3. -/
  | illegalPlane
  deriving DecidableEq, Repr

/-- The operation that OP selects (30_encoding.md R81). -/
inductive Opcode where
  | nop | openSession | closeSession | seedClr | tpose | rotStart | pack1 | pack4 | compress
  deriving DecidableEq, Repr

/-- OP, bits [3:0] (30_encoding.md R80). -/
def opField (w : Word) : BitVec 4 := w.extractLsb' 0 4

/-- ROT, bit [4]. -/
def rotField (w : Word) : Bool := w.getLsbD 4

/-- INV, bit [5]. -/
def invField (w : Word) : Bool := w.getLsbD 5

/-- MASKOR, bit [6]. -/
def maskOrField (w : Word) : Bool := w.getLsbD 6

/-- BPP4, bit [7]. -/
def bpp4Field (w : Word) : Bool := w.getLsbD 7

/-- PLANE, bits [9:8]. -/
def planeField (w : Word) : BitVec 2 := w.extractLsb' 8 2

/-- The OP values of 30_encoding.md R81; 0x9 to 0xF are reserved (R85). -/
def Opcode.ofField (op : BitVec 4) : Option Opcode :=
  match op.toNat with
  | 0 => some .nop
  | 1 => some .openSession
  | 2 => some .closeSession
  | 3 => some .seedClr
  | 4 => some .tpose
  | 5 => some .rotStart
  | 6 => some .pack1
  | 7 => some .pack4
  | 8 => some .compress
  | _ => none

/-- The mask column of 30_encoding.md R82. -/
def Opcode.mask : Opcode → Word
  | .nop => 0xFFFFFFFF
  | .openSession => 0xFFFFFFFF
  | .closeSession => 0xFFFFFFFF
  | .seedClr => 0xFFFFFFFF
  | .tpose => 0xFFFFFF7F
  | .rotStart => 0xFFFFFF7F
  | .pack1 => 0xFFFFFF8F
  | .pack4 => 0xFFFFFFAF
  | .compress => 0xFFFFFCFF

/-- The match column of 30_encoding.md R82. -/
def Opcode.pattern : Opcode → Word
  | .nop => 0x00000000
  | .openSession => 0x00000001
  | .closeSession => 0x00000002
  | .seedClr => 0x00000003
  | .tpose => 0x00000004
  | .rotStart => 0x00000005
  | .pack1 => 0x00000006
  | .pack4 => 0x00000007
  | .compress => 0x00000008

/-- The command of an operation with the free fields R82 gives it, read from the word. -/
def Opcode.command (op : Opcode) (w : Word) : Instr :=
  match op with
  | .nop => .nop
  | .openSession => .openSession
  | .closeSession => .closeSession
  | .seedClr => .seedClr
  | .tpose => .tpose (bpp4Field w)
  | .rotStart => .rotStart (bpp4Field w)
  | .pack1 => .pack1 (rotField w) (invField w) (maskOrField w)
  | .pack4 => .pack4 (rotField w) (maskOrField w)
  | .compress => .compress (planeField w)

/-- The decoder. A word is the command of a row of 30_encoding.md R82 when `(w & mask) = match`, and COMPRESS with
PLANE = 3 is illegal by R83. -/
def decode (w : Word) : Except DecodeError Instr :=
  match Opcode.ofField (opField w) with
  | none => .error .reservedOp
  | some op =>
    if w &&& op.mask = op.pattern then
      if (op.command w).wellFormed then .ok (op.command w) else .error .illegalPlane
    else if w &&& 0xFFFFFC00 ≠ 0 then .error .reservedBits
    else .error .unusedFlag

/-- A flag at its bit of the command word (30_encoding.md R88: `flag << n`). -/
def flagAt (b : Bool) (n : Nat) : Word := if b then (1 : Word) <<< n else 0

/-- The encoder: `match | (ROT << 4) | (INV << 5) | (MASKOR << 6) | (BPP4 << 7) | (PLANE << 8)` (30_encoding.md
R88). -/
def encode : Instr → Word
  | .nop => Opcode.pattern .nop
  | .openSession => Opcode.pattern .openSession
  | .closeSession => Opcode.pattern .closeSession
  | .seedClr => Opcode.pattern .seedClr
  | .tpose bpp4 => Opcode.pattern .tpose ||| flagAt bpp4 7
  | .rotStart bpp4 => Opcode.pattern .rotStart ||| flagAt bpp4 7
  | .pack1 rot inv maskOr =>
    Opcode.pattern .pack1 ||| flagAt rot 4 ||| flagAt inv 5 ||| flagAt maskOr 6
  | .pack4 rot maskOr => Opcode.pattern .pack4 ||| flagAt rot 4 ||| flagAt maskOr 6
  | .compress plane => Opcode.pattern .compress ||| (plane.setWidth 32 <<< 8)

/-- The assembler spelling: the mnemonic and one suffix for each flag that is set, `.R`, `.I`, `.O` in that order;
`.1` or `.4` for BPP4; `.P0`, `.P1` or `.P2` for PLANE (30_encoding.md R88). PLANE = 3 has no spelling. -/
def Instr.spelling : Instr → Option String
  | .nop => some "NOP"
  | .openSession => some "OPEN"
  | .closeSession => some "CLOSE"
  | .seedClr => some "SEEDCLR"
  | .tpose bpp4 => some (if bpp4 then "TPOSE.4" else "TPOSE.1")
  | .rotStart bpp4 => some (if bpp4 then "ROTSTART.4" else "ROTSTART.1")
  | .pack1 rot inv maskOr =>
    some ("PACK1" ++ (if rot then ".R" else "") ++ (if inv then ".I" else "") ++ (if maskOr then ".O" else ""))
  | .pack4 rot maskOr =>
    some ("PACK4" ++ (if rot then ".R" else "") ++ (if maskOr then ".O" else ""))
  | .compress plane =>
    match plane.toNat with
    | 0 => some "COMPRESS.P0"
    | 1 => some "COMPRESS.P1"
    | 2 => some "COMPRESS.P2"
    | _ => none

/-- The instruction the decoder reads from the low `nbits` bits of `w`, bit 0 the least significant bit of the one
32-bit command word (30_encoding.md R87: every command word is 32 bits long). -/
def decodeTableWord (nbits w : Nat) : Option Instr :=
  match decode (BitVec.ofNat 32 (w % 2 ^ nbits)) with
  | .ok i => some i
  | .error _ => none

end Sys2Proof
end

