-- ==== Sys2Proof/Config.lean ====
section
/-! DEFINITION. What an implementation of STCP fixes (00_scope.md R5) and the free values: bytes and lengths the
spec leaves open. A free value has no body, so nothing can be proved of what it is. -/

namespace Sys2Proof

/-- The parameters a model takes (00_scope.md R5). They are fixed for one machine: State carries them so that a
statement over every state is a statement over every value of them, and no step changes them (log 1). -/
structure Params where
  /-- `BUF_BYTES`: the size of the buffer memory in bytes. -/
  bufBytes : Nat
  /-- `SEED_BYTES`: the capacity of each seed row in bytes. -/
  seedBytes : Nat
  /-- `REG_BASE`: the host address of register offset 0x00. -/
  regBase : Nat
  /-- `DELTA_EXT_CONT`: the continuation value of a Delta extension byte. -/
  deltaExtCont : Byte
  deriving DecidableEq, Repr

/-- The range R5 gives each parameter: `1 <= BUF_BYTES <= 2^32`, `SEED_BYTES >= 1`, and `DELTA_EXT_CONT` one of its
two values, 127 and 255. `REG_BASE` is open. -/
def Params.wf (p : Params) : Bool :=
  decide (1 ≤ p.bufBytes) && decide (p.bufBytes ≤ 2 ^ 32) && decide (1 ≤ p.seedBytes) &&
    (p.deltaExtCont == 127 || p.deltaExtCont == 255)

/-- The values the test vectors of 95_test_vectors.md assume. DESIGN CHOICE, unsafe only for a statement about
State.reset (log 1): R5 leaves the first three open, and no file gives a `REG_BASE`. -/
def Params.vectors : Params :=
  { bufBytes := 4096, seedBytes := 256, regBase := 0, deltaExtCont := 127 }

/-- What the buffer byte at an address reads as before anything has written it: "any value, fixed per byte until
written" (20_memory.md R61, 93_implementation_defined.md). Free value, safe (log 2). -/
opaque Config.powerUpByte : Nat → Byte

/-- The free bytes of an overlapping command and of a race (20_memory.md R71, R73), drawn one after another by
State's counter `draws`. Free value, safe (log 3). -/
opaque Config.freeByte : Nat → Byte

/-- What DSIZE or PSIZE reads when the candidate has 2^32 bytes or more, a length no 32-bit register can hold and
for which no rule states the register's value. Free value of the length, safe (log 9). DESIGN CHOICE. -/
opaque Config.oversizeLength : Nat → Word

end Sys2Proof
end

