-- ==== Sys2Proof/Machine/State.lean ====
section
/-! DEFINITION. The state of STCP (10_state.md R20): the 22 registers of R24, the three seed rows of R48, the buffer
memory of 20_memory.md R61; and the model's own fields, which hold the host and the free draws. Also the reasons a
step can stop, and the state after reset (70_reset_and_hazards.md R250). -/

namespace Sys2Proof.Machine

/-- Buffer memory: the bytes that have been written, as (address, byte) pairs with strictly rising addresses. An
address that is not listed is unwritten: no byte at all is stored for it, so no listed entry can equal what an
unlisted address holds, and equal memories are equal lists. -/
abbrev Memory := List Host.Cell

/-- What the host can do next (30_encoding.md R89, R90; 70_reset_and_hazards.md R250). Register accesses carry the
host's own address, which `REG_BASE` places (20_memory.md R68), and their width in bits, since R23 gives only aligned
32-bit accesses a meaning. Buffer accesses are one byte wide (20_memory.md R62). -/
inductive HostAction where
  /-- A register write: `WR` and, at CMD, `CMD` of R89. -/
  | regWrite (addr bits : Nat) (value : Word)
  /-- A register read: `RD` of R89. -/
  | regRead (addr bits : Nat)
  /-- A buffer byte write: one byte of `MEMW` of R89. -/
  | bufWrite (addr : Nat) (value : Byte)
  /-- A buffer byte read: one byte of `MEMR` of R89. -/
  | bufRead (addr : Nat)
  /-- `WAIT`, the loop that reads STATUS until BUSY = 0 (R90). -/
  | wait
  /-- Reset, a platform input (R250): it may fall between two host accesses. -/
  | reset
  deriving DecidableEq, Repr

/-- The machine. Plain data; every register is the 32-bit word the host reads (10_state.md R24), its fields read and
written by the accessors of Flags.lean and Operands.lean. -/
structure State where
  /-- The implementation's parameters (00_scope.md R5), fixed: no step changes them. The model's own field (log 1). -/
  params : Params
  /-- CMD, offset 0x00 (R25): the last accepted command word. -/
  cmd : Word
  /-- STATUS, offset 0x04 (R26). -/
  status : Word
  /-- CTRL, offset 0x08 (R28). -/
  ctrl : Word
  /-- CFG, offset 0x0C (R29). -/
  cfg : Word
  /-- SRC_ADDR, offset 0x10 (R30). -/
  srcAddr : Word
  /-- SRC_STRIDE, offset 0x14 (R31). -/
  srcStride : Word
  /-- DST_ADDR, offset 0x18 (R32). -/
  dstAddr : Word
  /-- DST_STRIDE, offset 0x1C (R33). -/
  dstStride : Word
  /-- WIDTH, offset 0x20 (R34). -/
  width : Word
  /-- OFFS, offset 0x24 (R35). -/
  offs : Word
  /-- ROT_ADDR, offset 0x28 (R36). -/
  rotAddr : Word
  /-- ROT_COL, offset 0x2C (R37). -/
  rotCol : Word
  /-- LUT_ADDR, offset 0x30 (R38). -/
  lutAddr : Word
  /-- LEN, offset 0x34 (R39). -/
  len : Word
  /-- RES_KIND, offset 0x38 (R40). -/
  resKind : Word
  /-- RES_LEN, offset 0x3C (R41). -/
  resLen : Word
  /-- DSIZE, offset 0x40 (R42). -/
  dsize : Word
  /-- PSIZE, offset 0x44 (R43). -/
  psize : Word
  /-- ACT, offset 0x48 (R44). -/
  act : Word
  /-- MASKS, offset 0x4C (R45). -/
  masks : Word
  /-- PACK_LEN, offset 0x50 (R46). -/
  packLen : Word
  /-- ROT_STATE, offset 0x54 (R47). -/
  rotState : Word
  /-- `Seed[0]` (R48): `SEED_BYTES` bytes. -/
  seed0 : List Byte
  /-- `Seed[1]` (R48). -/
  seed1 : List Byte
  /-- `Seed[2]` (R48). -/
  seed2 : List Byte
  /-- The buffer memory (20_memory.md R61). -/
  mem : Memory
  /-- What the host will still do, first action first. The model's own field (log 4). -/
  host : List HostAction
  /-- The values the host's reads returned, newest first; a byte is zero-extended. The model's own field (log 4). -/
  received : List Word
  /-- The delays of the commands to come, counted in host actions (20_memory.md R70, 70_reset_and_hazards.md R262).
  The model's own field (log 4). -/
  schedule : List Nat
  /-- How many host actions still go before the in-flight command's engine step. The model's own field (log 4). -/
  delay : Nat
  /-- The addresses the host wrote in a race with the in-flight command (20_memory.md R71). The model's own field
  (log 6). -/
  raced : List Nat
  /-- How many free bytes have been drawn. The model's own field (log 3). -/
  draws : Nat
  /-- `c0`, the rightmost byte column of the source region of a rotated sequence: ROT_COL as the last ROTSTART found it
  (43_transpose.md R197). STCP has no register for it; it counts only for what R202 leaves unspecified. The model's own
  field (log 7). -/
  rotFirst : Word
  deriving DecidableEq, Repr

/-- The faults of the machine: none. STCP has no trap, and no error stops the engine (60_exceptions.md R220): an error
is a next state with STATUS written (R224). Nothing raises a fault; safe. -/
inductive Fault where
  deriving DecidableEq, Repr

/-- Why a step has no meaning. Every one but the first is a host access that the spec tells a model to refuse. -/
inductive Refusal where
  /-- An instruction whose meaning is not written. Raised by no arm of exec. Safe. -/
  | notModelled (mnemonic : String)
  /-- A register access that is not 32 bits wide or not aligned to 4 bytes (10_state.md R23). Raised by a host
  register access. Safe. -/
  | registerAccess
  /-- A register access outside the 256 bytes at `REG_BASE` (10_state.md R23): no access to STCP at all. Raised by a
  host register access. Safe. -/
  | outsideRegisterSpace
  /-- A host access to a buffer address at or past `BUF_BYTES` (20_memory.md R66). Raised by a host buffer access.
  Safe. -/
  | bufferAddress
  deriving DecidableEq, Repr

/-- The machine right after reset (70_reset_and_hazards.md R250): every register at its value of 10_state.md R24,
every seed byte 0, no buffer byte written, no host action pending. The parameters are those the test vectors assume
(log 1). -/
def State.reset : State :=
  { params := Params.vectors
    cmd := 0x00000000
    status := 0x00000000
    ctrl := 0x00000000
    cfg := 0x00000000
    srcAddr := 0x00000000
    srcStride := 0x00000000
    dstAddr := 0x00000000
    dstStride := 0x00000000
    width := 0x00000000
    offs := 0x00000000
    rotAddr := 0x00000000
    rotCol := 0x00000000
    lutAddr := 0x00000000
    len := 0x00000000
    resKind := 0x00000000
    resLen := 0x00000000
    dsize := 0xFFFFFFFF
    psize := 0xFFFFFFFF
    act := 0x00000000
    masks := 0xFFFF0000
    packLen := 0x00000000
    rotState := 0x00000000
    seed0 := List.replicate Params.vectors.seedBytes 0
    seed1 := List.replicate Params.vectors.seedBytes 0
    seed2 := List.replicate Params.vectors.seedBytes 0
    mem := []
    host := []
    received := []
    schedule := []
    delay := 0
    raced := []
    draws := 0
    rotFirst := 0x00000000 }

end Sys2Proof.Machine
end

