-- ==== Sys2Proof/Machine/Flags.lean ====
section
/-! DEFINITION. The status flags of STCP, which are all it has (10_state.md R51): the STATUS fields (R26), CTRL.CANCEL
(R28), ACT.METHOD (R44) and the rotation flags of ROT_STATE (R47); the codes of 60_exceptions.md R221 and
10_state.md R40; what the end of an engine step does to STATUS (30_encoding.md R91). -/

namespace Sys2Proof.Machine

/-- A register with one bit set to a given value. -/
def setBit (v : Word) (n : Nat) (b : Bool) : Word :=
  if b then v ||| ((1 : Word) <<< n) else v &&& ~~~((1 : Word) <<< n)

/-- The error codes of 60_exceptions.md R221; 0 is "no error" and 8 to 15 are never produced. -/
inductive ErrorCode where
  | illegal | busy | reentry | noSession | operand | bounds | rotExhausted
  deriving DecidableEq, Repr

/-- The number of an error code (60_exceptions.md R221). -/
def ErrorCode.code : ErrorCode → BitVec 4
  | .illegal => 1
  | .busy => 2
  | .reentry => 3
  | .noSession => 4
  | .operand => 5
  | .bounds => 6
  | .rotExhausted => 7

/-- How an engine step ends (30_encoding.md R91). -/
inductive Ending where
  | normal
  | degraded
  | cancelled
  | error (code : ErrorCode)
  deriving DecidableEq, Repr

/-- A STATUS word with ERR set and ERRCODE replaced (60_exceptions.md R224, R225). -/
def statusWithError (v : Word) (e : ErrorCode) : Word :=
  (setBit v 3 true &&& 0xFFFFFF0F) ||| (e.code.setWidth 32 <<< 4)

/-- A STATUS word with ERR and ERRCODE cleared (10_state.md R27). -/
def statusWithoutError (v : Word) : Word := setBit v 3 false &&& 0xFFFFFF0F

/-- STATUS at the end of an engine step: CANCELLED and DEGRADED say how it ended, an error writes ERR and ERRCODE, and
BUSY is cleared (30_encoding.md R91, 60_exceptions.md R224, R226, R227). -/
def statusAfter (v : Word) (e : Ending) : Word :=
  let marked := setBit (setBit v 2 (e == .cancelled)) 8 (e == .degraded)
  match e with
  | .error code => setBit (statusWithError marked code) 0 false
  | .normal | .degraded | .cancelled => setBit marked 0 false

/-- STATUS.BUSY, bit [0] (10_state.md R26). -/
def State.busy (s : State) : Bool := s.status.getLsbD 0

/-- STATUS.SESSION, bit [1] (10_state.md R26). -/
def State.session (s : State) : Bool := s.status.getLsbD 1

/-- STATUS.CANCELLED, bit [2] (10_state.md R26). -/
def State.cancelled (s : State) : Bool := s.status.getLsbD 2

/-- STATUS.ERR, bit [3] (10_state.md R26). -/
def State.err (s : State) : Bool := s.status.getLsbD 3

/-- STATUS.ERRCODE, bits [7:4] (10_state.md R26). -/
def State.errCode (s : State) : BitVec 4 := s.status.extractLsb' 4 4

/-- STATUS.DEGRADED, bit [8] (10_state.md R26). -/
def State.degraded (s : State) : Bool := s.status.getLsbD 8

/-- CTRL.CANCEL, bit [0] (10_state.md R28). -/
def State.cancelRequested (s : State) : Bool := s.ctrl.getLsbD 0

/-- ACT.METHOD, bit [0]: false is Delta, true is PackBits (10_state.md R44). -/
def State.method (s : State) : Bool := s.act.getLsbD 0

/-- The ACT word of a method; its other bits are reserved (10_state.md R44). -/
def methodWord (packBits : Bool) : Word := flagAt packBits 0

/-- The outcome of a COMPRESS (10_state.md R40). -/
inductive ResultKind where
  | none | repeatRow | allZero | delta | packBits | noGain
  deriving DecidableEq, Repr

/-- RES_KIND of an outcome; 6 and 7 are never produced (10_state.md R40). -/
def ResultKind.word : ResultKind → Word
  | .none => 0
  | .repeatRow => 1
  | .allZero => 2
  | .delta => 3
  | .packBits => 4
  | .noGain => 5

/-- The fields of ROT_STATE (10_state.md R47). -/
structure RotState where
  tpLeft : Nat
  tpSkip : Nat
  tpBpp4 : Bool
  tpValid : Bool
  tpEnd : Bool
  deriving DecidableEq, Repr

/-- The fields read from a ROT_STATE word (10_state.md R47). -/
def RotState.ofWord (v : Word) : RotState :=
  { tpLeft := (v.extractLsb' 0 4).toNat
    tpSkip := (v.extractLsb' 4 3).toNat
    tpBpp4 := v.getLsbD 8
    tpValid := v.getLsbD 9
    tpEnd := v.getLsbD 10 }

/-- The ROT_STATE word of the fields; every reserved bit is 0 (10_state.md R47). -/
def RotState.word (r : RotState) : Word :=
  (BitVec.ofNat 4 r.tpLeft).setWidth 32 ||| ((BitVec.ofNat 3 r.tpSkip).setWidth 32 <<< 4) |||
    flagAt r.tpBpp4 8 ||| flagAt r.tpValid 9 ||| flagAt r.tpEnd 10

/-- The rotation flags of a state (10_state.md R47). -/
def State.rot (s : State) : RotState := RotState.ofWord s.rotState

/-- MASKS of an empty row (10_state.md R45, 42_pack.md R168). -/
def emptyMasks : Word := 0xFFFF0000

/-- MASKS from the first and the last AND-mask: the OR-masks are their complements (10_state.md R45, 42_pack.md
R168). -/
def masksWord (first last : Byte) : Word := (~~~last ++ ~~~first ++ last ++ first : BitVec (8 + 8 + 8 + 8))

end Sys2Proof.Machine
end

