-- ==== Sys2Proof/Machine/Operands.lean ====
section
/-! DEFINITION. The operand forms of the commands: register fields read as unsigned integers (30_encoding.md R86), the
address ranges a command checks (20_memory.md R63), pixels and packed rows (00_scope.md R7), and the pure stages of
the packer and the transpose engine (42_pack.md R162 to R174, 43_transpose.md R193 to R195). -/

namespace Sys2Proof.Machine

/-! ### Register fields -/

/-- OFFS.SBIT, bits [2:0] (10_state.md R35). -/
def State.sbit (s : State) : Nat := (s.offs.extractLsb' 0 3).toNat

/-- OFFS.DBIT, bits [10:8] (10_state.md R35). -/
def State.dbit (s : State) : Nat := (s.offs.extractLsb' 8 3).toNat

/-- The compression mode (10_state.md R29). -/
inductive Mode where
  | block | delta | packBits | adaptive
  deriving DecidableEq, Repr

/-- CFG.MODE, bits [1:0]; each value is legal (10_state.md R29). -/
def State.mode (s : State) : Mode :=
  match (s.cfg.extractLsb' 0 2).toNat with
  | 0 => .block
  | 1 => .delta
  | 2 => .packBits
  | _ => .adaptive

/-! ### Sizes and address ranges -/

/-- `ceil(a / b)` (00_scope.md R8). -/
def ceilDiv (a b : Nat) : Nat := (a + b - 1) / b

/-- Every address `a + i` with `i < n` is below `buf`, without wrap (20_memory.md R63). -/
def fits (buf a n : Nat) : Bool := n == 0 || decide (a + n ≤ buf)

/-- Every address `a + j * stride` with `j < n` is below `buf` (20_memory.md R63, 43_transpose.md R196). -/
def fitsStrided (buf a stride n : Nat) : Bool := n == 0 || decide (a + (n - 1) * stride < buf)

/-- Every address `a + k * stride + i` with `k < rows` and `i < n` is below `buf` (20_memory.md R63). -/
def fitsRows (buf a stride rows n : Nat) : Bool :=
  rows == 0 || n == 0 || decide (a + (rows - 1) * stride + (n - 1) < buf)

/-- The addresses `a .. a + n - 1`. -/
def addresses (a n : Nat) : List Nat := (List.range n).map (fun i => a + i)

/-- The addresses `a + j * stride` with `j < n`. -/
def stridedAddresses (a stride n : Nat) : List Nat := (List.range n).map (fun j => a + j * stride)

/-- A row of bytes placed at `a` (one write each). -/
def rowCells (a : Nat) : List Byte → List Host.Cell
  | [] => []
  | b :: bs => (a, b) :: rowCells (a + 1) bs

/-- Rows placed `stride` bytes apart, the first at `a`. -/
def rowsCells (a stride : Nat) : List (List Byte) → List Host.Cell
  | [] => []
  | r :: rs => rowCells a r ++ rowsCells (a + stride) stride rs

/-! ### Pixels -/

/-- The byte whose bit `7 - b` is `f b`: pixels packed most significant bit first (00_scope.md R7). -/
def byteOf (f : Nat → Bool) : Byte :=
  [0, 1, 2, 3, 4, 5, 6, 7].foldl (fun acc b => acc ||| (if f b then (0x80 : Byte) >>> b else 0)) 0

/-- Pixel `i` of a 1bpp row: bit `7 - (i mod 8)` of byte `floor(i / 8)` (00_scope.md R7). Past the row it is 0, which
is the value `sb` has there (42_pack.md R162). -/
def pixel1 (row : List Byte) (i : Nat) : Bool := (row.getD (i / 8) 0).getLsbD (7 - i % 8)

/-- Pixel `i` of a 4bpp row: the high nibble of byte `floor(i / 2)` when `i` is even, the low one when odd
(00_scope.md R7). -/
def pixel4 (row : List Byte) (i : Nat) : BitVec 4 :=
  if i % 2 = 0 then (row.getD (i / 2) 0).extractLsb' 4 4 else (row.getD (i / 2) 0).extractLsb' 0 4

/-! ### The packer's stages -/

/-- Bytes of a 1bpp source row that PACK1 reads: those that hold source bits `S .. S + W - 1` (42_pack.md R161). -/
def sourceBytes1 (S W : Nat) : Nat := if W = 0 then 0 else ceilDiv (S + W) 8

/-- Bytes of a 4bpp source row that PACK4 reads (42_pack.md R172). -/
def sourceBytes4 (S4 W : Nat) : Nat := if W = 0 then 0 else ceilDiv (S4 + W) 2

/-- Bit `q` of the shifted row, `sb(q - O + S)`; `sb` of a negative index is 0 (42_pack.md R162). -/
def shiftedBit (src : List Byte) (S O q : Nat) : Bool := decide (O ≤ q + S) && pixel1 src (q + S - O)

/-- Byte `k` of the shifted row (42_pack.md R162). -/
def shiftedByte (src : List Byte) (S O k : Nat) : Byte := byteOf (fun b => shiftedBit src S O (8 * k + b))

/-- The AND-mask of output byte `k`: a set bit marks a valid pixel bit (42_pack.md R163). -/
def andMask (O W k : Nat) : Byte :=
  byteOf (fun b => decide (O ≤ 8 * k + b) && decide (8 * k + b < O + W))

/-- The OR-mask is the AND-mask complemented (42_pack.md R163). -/
def orMask (O W k : Nat) : Byte := ~~~(andMask O W k)

/-- The invert stage (42_pack.md R164). -/
def invertByte (inv : Bool) (t : Byte) : Byte := if inv then t ^^^ 0xFF else t

/-- The mask stage: AND forces every pad bit to 0, OR to 1 (42_pack.md R165, R174). -/
def maskByte (maskOr : Bool) (t : Byte) (O W k : Nat) : Byte :=
  if maskOr then t ||| orMask O W k else t &&& andMask O W k

/-- The output row of PACK1: shift, invert, mask (42_pack.md R167), `ceil((O + W) / 8)` bytes. -/
def pack1Row (src : List Byte) (inv maskOr : Bool) (S O W : Nat) : List Byte :=
  (List.range (ceilDiv (O + W) 8)).map
    (fun k => maskByte maskOr (invertByte inv (shiftedByte src S O k)) O W k)

/-- `pix[i]`: nibble `S4 + i` of the source row, and 0 for `i >= W` (42_pack.md R172). -/
def alignedPixel (src : List Byte) (S4 W i : Nat) : BitVec 4 := if i < W then pixel4 src (S4 + i) else 0

/-- The aligned byte `r[j] = (pix[2j] << 4) | pix[2j + 1]` (42_pack.md R172). -/
def alignedByte (src : List Byte) (S4 W j : Nat) : Byte :=
  (alignedPixel src S4 W (2 * j) ++ alignedPixel src S4 W (2 * j + 1) : BitVec (4 + 4))

/-- Byte `k` of plane `p` before masking: four table contributions, two bits each, the first most significant
(42_pack.md R173). `table b p` is byte `p` of table entry `b`. -/
def planeByte (table : Byte → Nat → Byte) (src : List Byte) (S4 W p k : Nat) : Byte :=
  [0, 1, 2, 3].foldl
    (fun acc i => acc ||| ((table (alignedByte src S4 W (4 * k + i)) p &&& 0xC0) >>> (2 * i))) 0

/-- The output row of plane `p` of PACK4, `ceil(W / 8)` bytes (42_pack.md R173, R174). -/
def planeRow (table : Byte → Nat → Byte) (src : List Byte) (maskOr : Bool) (S4 W p : Nat) : List Byte :=
  (List.range (ceilDiv W 8)).map (fun k => maskByte maskOr (planeByte table src S4 W p k) 0 W k)

/-- MASKS after a pack of `nout` output bytes at bit offset `O` and width `W` (42_pack.md R168). -/
def packMasks (O W nout : Nat) : Word :=
  if nout = 0 then emptyMasks else masksWord (andMask O W 0) (andMask O W (nout - 1))

/-! ### The transpose engine's maps -/

/-- `G`, the rotated rows of one group: 8 at 1bpp, 2 at 4bpp (43_transpose.md R191). -/
def groupSize (bpp4 : Bool) : Nat := if bpp4 then 2 else 8

/-- `RB`, the bytes of a rotated row of `n` pixels (43_transpose.md R195). -/
def rotatedBytes (bpp4 : Bool) (n : Nat) : Nat := if bpp4 then ceilDiv n 2 else ceilDiv n 8

/-- Byte `i` of rotated row `k` at 1bpp: pixel `j` is bit `k` of source byte `j`, pad bits 0 (43_transpose.md R193,
R195). -/
def rotatedByte1 (col : List Byte) (k i : Nat) : Byte :=
  byteOf (fun b => (col.getD (8 * i + b) 0).getLsbD k)

/-- Pixel `j` of rotated row `k` at 4bpp: nibble `k` of source byte `j`, pad nibbles 0 (43_transpose.md R194,
R195). -/
def columnNibble (col : List Byte) (k j : Nat) : BitVec 4 := (col.getD j 0).extractLsb' (4 * k) 4

/-- Byte `i` of rotated row `k` at 4bpp (43_transpose.md R194). -/
def rotatedByte4 (col : List Byte) (k i : Nat) : Byte :=
  (columnNibble col k (2 * i) ++ columnNibble col k (2 * i + 1) : BitVec (4 + 4))

/-- Rotated row `k` of a column (43_transpose.md R193, R194, R195). -/
def rotatedRow (bpp4 : Bool) (col : List Byte) (k : Nat) : List Byte :=
  (List.range (rotatedBytes bpp4 col.length)).map
    (fun i => if bpp4 then rotatedByte4 col k i else rotatedByte1 col k i)

/-- `Transpose1` or `Transpose4` of a column: the `G` rotated rows, row 0 first (43_transpose.md R193, R194). -/
def transpose (bpp4 : Bool) (col : List Byte) : List (List Byte) :=
  (List.range (groupSize bpp4)).map (rotatedRow bpp4 col)

end Sys2Proof.Machine
end

