-- ==== Sys2Proof/Machine/Ops.lean ====
section
/-! DEFINITION. The named operations over buffer memory, seed rows and STATUS that the commands share, and the one way
a command ends in an error (60_exceptions.md R224), with its "return", the host's clearing of ERR (R225). -/

namespace Sys2Proof.Machine

/-! ### Buffer memory -/

/-- The canonical form of a memory: strictly rising addresses. -/
def Memory.wf : Memory → Bool
  | [] => true
  | [_] => true
  | (a, _) :: (b, w) :: m => decide (a < b) && Memory.wf ((b, w) :: m)

/-- Every listed address is in the buffer memory (20_memory.md R61). -/
def Memory.within (buf : Nat) (m : Memory) : Bool := m.all (fun c => decide (c.1 < buf))

/-- The byte written last at an address, if any. -/
def Memory.lookup : Memory → Nat → Option Byte
  | [], _ => none
  | (b, v) :: m, a => if a = b then some v else Memory.lookup m a

/-- `MemRead(a, 1)` (00_scope.md R9): a byte nothing has written is a free value, fixed per address (20_memory.md
R61; log 2). -/
def Memory.byte (m : Memory) (a : Nat) : Byte := (Memory.lookup m a).getD (Config.powerUpByte a)

/-- `MemWrite(a, 1, v)` (00_scope.md R9), keeping the addresses strictly rising. -/
def Memory.write : Memory → Nat → Byte → Memory
  | [], a, v => [(a, v)]
  | (b, w) :: m, a, v =>
    if a < b then (a, v) :: (b, w) :: m
    else if a = b then (a, v) :: m
    else (b, w) :: Memory.write m a v

/-- Writes in order: the last write of a byte stands (00_scope.md R10). -/
def Memory.writeAll : Memory → List Host.Cell → Memory
  | m, [] => m
  | m, c :: cs => Memory.writeAll (Memory.write m c.1 c.2) cs

/-- The bytes at the given addresses. -/
def Memory.bytes (m : Memory) (as : List Nat) : List Byte := as.map (Memory.byte m)

/-! ### What a command does to buffer memory -/

/-- `count` bytes of buffer memory that begin at `first`. -/
structure Span where
  first : Nat
  count : Nat
  deriving DecidableEq, Repr

/-- The span has the address. -/
def Span.has (r : Span) (a : Nat) : Bool := decide (r.first ≤ a) && decide (a < r.first + r.count)

/-- Every address of the span. -/
def Span.all (r : Span) : List Nat := addresses r.first r.count

/-- The accesses of one command, computed before it writes anything (20_memory.md R63). -/
structure Footprint where
  /-- Addresses read, but for the scratch row of a rotated PACK. -/
  reads : List Nat := []
  /-- Addresses of the scratch row a rotated PACK reads after its own scratch writes (43_transpose.md R198). -/
  row : List Nat := []
  /-- The areas that the output must not overlap though the command may not read all of them: the rotation scratch and
  the source region of a rotated PACK (43_transpose.md R202), and PACK4's table (42_pack.md R176). -/
  region : List Span := []
  /-- Addresses checked though perhaps not read: PACK4's lookup table (20_memory.md R63). -/
  checked : List Nat := []
  /-- The scratch writes of a rotated PACK that transposes. -/
  scratch : List Host.Cell := []
  /-- The output writes, in order. -/
  out : List Host.Cell := []
  deriving DecidableEq, Repr

/-- Every write, in order. -/
def Footprint.writes (f : Footprint) : List Host.Cell := f.scratch ++ f.out

/-- The addresses written. -/
def Footprint.written (f : Footprint) : List Nat := f.writes.map (fun c => c.1)

/-- Some address stands twice in the list. -/
def hasRepeat : List Nat → Bool
  | [] => false
  | a :: as => as.contains a || hasRepeat as

/-- A command overlaps when it writes a byte it also reads, or one byte from two output rows (within one row no
address repeats). The scratch row is read after the scratch writes of the same command, so only the output counts
against it (20_memory.md R73, 70_reset_and_hazards.md R257). The model's choice (log 7): R73 counts only bytes the
command reads, while 42_pack.md R176 speaks of "the table" and 43_transpose.md R202 of "the scratch or the source
region"; the model counts those areas whole, bytes that the command does not read among them, so that such an output
is left free. -/
def Footprint.overlaps (f : Footprint) : Bool :=
  f.written.any (fun a => f.reads.contains a) ||
    (f.out.map (fun c => c.1)).any (fun a => f.row.contains a || f.region.any (fun r => r.has a)) ||
    hasRepeat f.written

/-- Every byte at the given addresses takes a free value, a fresh one each (20_memory.md R71, R73; log 3). -/
def State.drawBytes : List Nat → State → State
  | [], s => s
  | a :: as, s =>
    State.drawBytes as { s with mem := Memory.write s.mem a (Config.freeByte s.draws), draws := s.draws + 1 }

/-- The writes of a command. When the command overlaps (20_memory.md R73), or when the host raced with it (R71), every
byte it writes takes a free value. -/
def State.commit (s : State) (f : Footprint) : State :=
  if f.overlaps || !s.raced.isEmpty then s.drawBytes f.written
  else { s with mem := Memory.writeAll s.mem f.writes }

/-! ### Seed rows -/

/-- `Seed[p]` (10_state.md R48); PLANE = 3 names no row (30_encoding.md R83) and reads as none. -/
def State.seed (s : State) (p : BitVec 2) : List Byte :=
  match p.toNat with
  | 0 => s.seed0
  | 1 => s.seed1
  | 2 => s.seed2
  | _ => []

/-- `Seed[p]` replaced. -/
def State.setSeed (s : State) (p : BitVec 2) (row : List Byte) : State :=
  match p.toNat with
  | 0 => { s with seed0 := row }
  | 1 => { s with seed1 := row }
  | 2 => { s with seed2 := row }
  | _ => s

/-- `Seed[p][0..L)` of a seed row (41_compress.md R120). -/
def seedPrefix (row : List Byte) (L : Nat) : List Byte := (List.range L).map (fun j => row.getD j 0)

/-- A seed row with its first bytes replaced; the others are never written (41_compress.md R120). -/
def seedUpdated (row new : List Byte) : List Byte := new ++ row.drop new.length

/-- `for p in 0..2, j in 0..SEED_BYTES-1: Seed[p][j] <- 0` (40_control.md R102 to R104). -/
def State.zeroSeeds (s : State) : State :=
  { s with
    seed0 := List.replicate s.params.seedBytes 0
    seed1 := List.replicate s.params.seedBytes 0
    seed2 := List.replicate s.params.seedBytes 0 }

/-! ### The end of an engine step -/

/-- The end of an engine step (30_encoding.md R91). -/
def State.endStep (s : State) (e : Ending) : State := { s with status := statusAfter s.status e }

/-- `finish` (00_scope.md R9). -/
def State.finish (s : State) : State := s.endStep .normal

/-- `raise Error(code)`: the one way a command takes an error. It writes STATUS.ERR, ERRCODE, CANCELLED, DEGRADED and
BUSY, and nothing else (60_exceptions.md R224). It is always applied to the state as it was when the command began. -/
def State.raiseError (s : State) (code : ErrorCode) : State := s.endStep (.error code)

/-- The cancelled outcome: the command is discarded (60_exceptions.md R226). -/
def State.cancelCommand (s : State) : State := s.endStep .cancelled

/-- Check 2 of 60_exceptions.md R223 for a cancellable command: CTRL.CANCEL = 1 discards it. -/
def State.unlessCancelled (s : State) (run : State) : State :=
  if s.cancelRequested then s.cancelCommand else run

/-- What stands for the return from an error: the host's write of STATUS with bit 3 set clears ERR and ERRCODE, and
nothing is restored (10_state.md R27, 60_exceptions.md R225). -/
def State.clearError (s : State) : State := { s with status := statusWithoutError s.status }

/-- The host-side BUSY error, raised at the moment of the write (60_exceptions.md R222). -/
def State.hostBusyError (s : State) : State := { s with status := statusWithError s.status .busy }

end Sys2Proof.Machine
end

