-- ==== Sys2Proof/Machine/Codec.lean ====
section
/-! DEFINITION. The two encodings of the compression selector, Delta (41_compress.md R126 to R128) and PackBits (R130 to
R132), as functions of a row, and the reference decoders of R140, in whose terms the round trip is stated. -/

namespace Sys2Proof.Machine

/-! ### Delta -/

/-- The loop of `Ext`: continuation bytes while `r >= K`, then the remainder (41_compress.md R127). `fuel` bounds the
passes; `off` passes are enough when `K >= 1`. -/
def deltaExtLoop (K : Byte) : Nat → Nat → List Byte
  | 0, r => [BitVec.ofNat 8 r]
  | fuel + 1, r => if K.toNat ≤ r then K :: deltaExtLoop K fuel (r - K.toNat) else [BitVec.ofNat 8 r]

/-- `Ext(off)`: the extension bytes of an offset, none when `off < 31` (41_compress.md R127). -/
def deltaExt (K : Byte) (off : Nat) : List Byte := if off < 31 then [] else deltaExtLoop K off (off - 31)

/-- The length of the run that starts here: consecutive differing bytes, at most 8 (41_compress.md R126). Each pair is
a byte of the scanline and the byte of the seed row at the same index. -/
def deltaRunLength (pairs : List (Byte × Byte)) : Nat :=
  ((pairs.take 8).takeWhile (fun p => p.1 != p.2)).length

/-- The header of a run: `((n - 1) << 5) | min(off, 31)` (41_compress.md R126). -/
def deltaHeader (n off : Nat) : Byte := (BitVec.ofNat 8 (n - 1) <<< 5) ||| BitVec.ofNat 8 (min off 31)

/-- The pass of `Delta` from left to right (41_compress.md R126). `off` counts the unchanged bytes since the end of the
last run; `fuel` bounds the passes, each of which consumes a byte at least. -/
def deltaPass (K : Byte) : Nat → Nat → List (Byte × Byte) → List Byte
  | 0, _, _ => []
  | _ + 1, _, [] => []
  | fuel + 1, off, p :: ps =>
    if p.1 = p.2 then deltaPass K fuel (off + 1) ps
    else
      deltaHeader (deltaRunLength (p :: ps)) off ::
        (deltaExt K off ++ ((p :: ps).take (deltaRunLength (p :: ps))).map (fun q => q.1) ++
          deltaPass K fuel 0 ((p :: ps).drop (deltaRunLength (p :: ps))))

/-- `Delta(S, R)` of two rows of equal length (41_compress.md R126). -/
def delta (K : Byte) (S R : List Byte) : List Byte := deltaPass K S.length 0 (S.zip R)

/-! ### PackBits -/

/-- The row without its longest all-zero suffix (41_compress.md R131). -/
def trimZeros (S : List Byte) : List Byte := (S.reverse.dropWhile (fun b => b == 0)).reverse

/-- A pending literal run written out: control byte `m - 1`, then the `m` bytes; nothing when there is none
(41_compress.md R130, R132). -/
def flushLiteral (lit : List Byte) : List Byte :=
  if lit.isEmpty then [] else BitVec.ofNat 8 (lit.length - 1) :: lit

/-- The length of the run of bytes equal to `b` that starts at `b`, capped at 128 (41_compress.md R130). -/
def repeatLength (b : Byte) (bs : List Byte) : Nat := 1 + ((bs.take 127).takeWhile (fun c => c == b)).length

/-- `u8(1 - r)`, the control byte of a repeat run (41_compress.md R132, 00_scope.md R8). -/
def repeatControl (r : Nat) : Byte := BitVec.ofInt 8 (1 - (r : Int))

/-- The pass of `PackBits` (41_compress.md R130). `lit` is the pending literal run; `fuel` bounds the passes, each of
which consumes a byte at least. -/
def packBitsPass : Nat → List Byte → List Byte → List Byte
  | 0, lit, _ => flushLiteral lit
  | _ + 1, lit, [] => flushLiteral lit
  | fuel + 1, lit, b :: bs =>
    if 3 ≤ repeatLength b bs then
      flushLiteral lit ++ repeatControl (repeatLength b bs) :: b ::
        packBitsPass fuel [] (bs.drop (repeatLength b bs - 1))
    else if (lit ++ [b]).length = 128 then flushLiteral (lit ++ [b]) ++ packBitsPass fuel [] bs
    else packBitsPass fuel (lit ++ [b]) bs

/-- `PackBits(S)` (41_compress.md R130, R131). -/
def packBits (S : List Byte) : List Byte := packBitsPass (trimZeros S).length [] (trimZeros S)

/-! ### The reference decoders -/

/-- The extension bytes of an offset added to it, until a byte other than `K` (41_compress.md R140); the rest of the
encoding comes with it. -/
def readExt (K : Byte) : Nat → List Byte → Nat × List Byte
  | off, [] => (off, [])
  | off, b :: E => if b = K then readExt K (off + b.toNat) E else (off + b.toNat, E)

/-- `out[a..a+len(bs)) <- bs` (41_compress.md R140). -/
def overwriteAt (out : List Byte) (a : Nat) (bs : List Byte) : List Byte :=
  out.take a ++ bs ++ out.drop (a + bs.length)

/-- The offset of a run from its header and the bytes after it, and what follows the offset (41_compress.md R140). -/
def readOffset (K h : Byte) (E : List Byte) : Nat × List Byte :=
  if h.toNat % 32 = 31 then readExt K 31 E else (h.toNat % 32, E)

/-- The loop of `DeltaDecode` (41_compress.md R140). -/
def deltaDecodePass (K : Byte) : Nat → List Byte → Nat → List Byte → List Byte
  | 0, _, _, out => out
  | _ + 1, [], _, out => out
  | fuel + 1, h :: E, pos, out =>
    deltaDecodePass K fuel ((readOffset K h E).2.drop (h.toNat / 32 + 1))
      (pos + (readOffset K h E).1 + (h.toNat / 32 + 1))
      (overwriteAt out (pos + (readOffset K h E).1) ((readOffset K h E).2.take (h.toNat / 32 + 1)))

/-- `DeltaDecode(E, R)`, where `R` is the seed row before the COMPRESS (41_compress.md R140). -/
def deltaDecode (K : Byte) (E R : List Byte) : List Byte := deltaDecodePass K E.length E 0 R

/-- The loop of `PackBitsDecode` (41_compress.md R140): a control byte of 0 or more is a literal run, a negative one a
repeat run. -/
def packBitsDecodePass : Nat → List Byte → List Byte
  | 0, _ => []
  | _ + 1, [] => []
  | fuel + 1, c :: E =>
    if 0 ≤ c.toInt then E.take (c.toNat + 1) ++ packBitsDecodePass fuel (E.drop (c.toNat + 1))
    else List.replicate (1 - c.toInt).toNat (E.headD 0) ++ packBitsDecodePass fuel E.tail

/-- `PackBitsDecode(E, L)` (41_compress.md R140). -/
def packBitsDecode (E : List Byte) (L : Nat) : List Byte :=
  packBitsDecodePass E.length E ++ List.replicate (L - (packBitsDecodePass E.length E).length) 0

end Sys2Proof.Machine
end

