-- ==== Sys2Proof/Machine/Compress.lean ====
section
/-! DEFINITION. The compression selector COMPRESS (41_compress.md R120 to R142). -/

namespace Sys2Proof.Machine

/-- What COMPRESS decides for one row (41_compress.md R121). -/
structure RowResult where
  kind : ResultKind
  /-- `out`, the bytes written at DST_ADDR: the winner's, or none (R139). -/
  out : List Byte := []
  /-- The length of the Delta candidate, if one was built (10_state.md R42). -/
  deltaSize : Option Nat := none
  /-- The length of the PackBits candidate, if one was built (10_state.md R43). -/
  packBitsSize : Option Nat := none
  /-- The bytes that replace `Seed[p][0..L)`, if the seed row is written (R125, R138). -/
  seed : Option (List Byte) := none
  deriving DecidableEq, Repr

/-- `Select` (41_compress.md R134, R135, R136). A candidate that was not built is `none`; one gains only when it is
shorter than the row (R129, R133); a tie under ADAPTIVE goes to ACT.METHOD. -/
def selectCandidate (method : Bool) (L : Nat) : Option (List Byte) → Option (List Byte) → ResultKind × List Byte
  | none, none => (.noGain, [])
  | some d, none => if d.length < L then (.delta, d) else (.noGain, [])
  | none, some k => if k.length < L then (.packBits, k) else (.noGain, [])
  | some d, some k =>
    if d.length < L then
      if k.length < L then
        if d.length < k.length then (.delta, d)
        else if k.length < d.length then (.packBits, k)
        else if method then (.packBits, k) else (.delta, d)
      else (.delta, d)
    else if k.length < L then (.packBits, k)
    else (.noGain, [])

/-- The Delta candidate, built in modes DELTA and ADAPTIVE (41_compress.md R121). -/
def deltaCandidate (K : Byte) (mode : Mode) (S R : List Byte) : Option (List Byte) :=
  match mode with
  | .delta | .adaptive => some (delta K S R)
  | .block | .packBits => none

/-- The PackBits candidate, built in modes PACKBITS and ADAPTIVE (41_compress.md R121). -/
def packBitsCandidate (mode : Mode) (S : List Byte) : Option (List Byte) :=
  match mode with
  | .packBits | .adaptive => some (packBits S)
  | .block | .delta => none

/-- The result of one row in a mode other than BLOCK: REPEAT, then ALLZERO, then the selection (41_compress.md R121,
R124, R125, R134 to R138). A function of `(S, R, mode, ACT.METHOD)` and the parameter `K` (R141). -/
def compressRow (K : Byte) (mode : Mode) (method : Bool) (S R : List Byte) : RowResult :=
  if S = R then { kind := .repeatRow }
  else if S = List.replicate S.length 0 then { kind := .allZero, seed := some (List.replicate S.length 0) }
  else
    { kind := (selectCandidate method S.length (deltaCandidate K mode S R) (packBitsCandidate mode S)).1
      out := (selectCandidate method S.length (deltaCandidate K mode S R) (packBitsCandidate mode S)).2
      deltaSize := (deltaCandidate K mode S R).map List.length
      packBitsSize := (packBitsCandidate mode S).map List.length
      seed := some S }

/-- What a COMPRESS will do, computed before it writes anything. -/
structure CompressPlan where
  foot : Footprint
  result : RowResult
  ending : Ending
  deriving DecidableEq, Repr

/-- `S`, the raw scanline: LEN bytes at SRC_ADDR (41_compress.md R120). -/
def State.scanline (s : State) : List Byte := Memory.bytes s.mem (addresses s.srcAddr.toNat s.len.toNat)

/-- `R = Seed[p][0..L)` (41_compress.md R120). -/
def State.seedRow (s : State) (p : BitVec 2) : List Byte := seedPrefix (s.seed p) s.len.toNat

/-- The row result of a COMPRESS in a mode other than BLOCK (41_compress.md R121). -/
def State.rowResult (s : State) (p : BitVec 2) : RowResult :=
  compressRow s.params.deltaExtCont s.mode s.method s.scanline (s.seedRow p)

/-- The checks and writes of COMPRESS after the session check (41_compress.md R121): BLOCK, the degrade, the read
range, the result, the write range. -/
def compressPlan (p : BitVec 2) (s : State) : Except ErrorCode CompressPlan :=
  if s.mode = .block then .ok { foot := {}, result := { kind := .noGain }, ending := .normal }
  else if s.params.seedBytes < s.len.toNat then
    .ok { foot := {}, result := { kind := .noGain }, ending := .degraded }
  else if fits s.params.bufBytes s.srcAddr.toNat s.len.toNat then
    if fits s.params.bufBytes s.dstAddr.toNat (s.rowResult p).out.length then
      .ok { foot :=
              { reads := addresses s.srcAddr.toNat s.len.toNat
                out := rowCells s.dstAddr.toNat (s.rowResult p).out }
            result := s.rowResult p
            ending := .normal }
    else .error .bounds
  else .error .bounds

/-- DSIZE or PSIZE: the candidate's length, and 0xFFFFFFFF when none was built (10_state.md R42, R43). A length of
2^32 or more has no stated register value: a free value (log 9). -/
def sizeWord : Option Nat → Word
  | none => 0xFFFFFFFF
  | some n => if n < 2 ^ 32 then BitVec.ofNat 32 n else Config.oversizeLength n

/-- ACT after a row: DELTA sets METHOD to 0, PACKBITS to 1, every other kind leaves it (41_compress.md R137). -/
def actAfter (act : Word) : ResultKind → Word
  | .delta => methodWord false
  | .packBits => methodWord true
  | .none | .repeatRow | .allZero | .noGain => act

/-- `Seed[p][0..L)` written with the bytes of the result, if it writes the seed row (41_compress.md R138). -/
def State.updateSeed (s : State) (p : BitVec 2) (new : Option (List Byte)) : State :=
  match new with
  | some row => s.setSeed p (seedUpdated (s.seed p) row)
  | none => s

/-- The result registers and ACT after a row (41_compress.md R121 `set_result`, R137). -/
def State.setResult (s : State) (r : RowResult) : State :=
  { s with
    resKind := r.kind.word
    resLen := BitVec.ofNat 32 r.out.length
    dsize := sizeWord r.deltaSize
    psize := sizeWord r.packBitsSize
    act := actAfter s.act r.kind }

/-- The writes of a COMPRESS: memory, the seed row, the result registers and ACT (41_compress.md R121). -/
def State.commitRow (s : State) (p : BitVec 2) (c : CompressPlan) : State :=
  ((s.commit c.foot).updateSeed p c.result.seed).setResult c.result

/-- COMPRESS: the selector for one scanline of plane `plane`; ILLEGAL (PLANE = 3), NOSESSION, BOUNDS; cancellable
(41_compress.md R121, 60_exceptions.md R223). -/
def execCompress (plane : BitVec 2) (s : State) : Host.Outcome State Fault Refusal :=
  .next <|
    if plane = 3 then s.raiseError .illegal
    else s.unlessCancelled <|
      if s.session then
        match compressPlan plane s with
        | .error e => s.raiseError e
        | .ok c => (s.commitRow plane c).endStep c.ending
      else s.raiseError .noSession

end Sys2Proof.Machine
end

