-- ==== Sys2Proof/Machine/Control.lean ====
section
/-! DEFINITION. The control commands NOP, OPEN, CLOSE and SEEDCLR (40_control.md). -/

namespace Sys2Proof.Machine

/-- NOP: nothing but the end of the engine step; never cancelled (40_control.md R101, 60_exceptions.md R226). -/
def execNop (s : State) : Host.Outcome State Fault Refusal := .next s.finish

/-- What OPEN writes: the seed rows, ACT and SESSION (40_control.md R102). -/
def State.opened (s : State) : State :=
  { s.zeroSeeds with act := methodWord false, status := setBit s.status 1 true }

/-- OPEN: claim the session; REENTRY when one is open; cancellable (40_control.md R100, R102). -/
def execOpen (s : State) : Host.Outcome State Fault Refusal :=
  .next (s.unlessCancelled (if s.session then s.raiseError .reentry else s.opened.finish))

/-- What CLOSE writes: the seed rows, ACT, ROT_STATE and SESSION (40_control.md R103). -/
def State.closed (s : State) : State :=
  { s.zeroSeeds with act := methodWord false, rotState := 0, status := setBit s.status 1 false }

/-- CLOSE: end the blit; NOSESSION when no session is open; never cancelled (40_control.md R100, R103). -/
def execClose (s : State) : Host.Outcome State Fault Refusal :=
  .next (if s.session then s.closed.finish else s.raiseError .noSession)

/-- SEEDCLR: zero the seed rows; NOSESSION when no session is open; never cancelled (40_control.md R100, R104). -/
def execSeedClr (s : State) : Host.Outcome State Fault Refusal :=
  .next (if s.session then s.zeroSeeds.finish else s.raiseError .noSession)

end Sys2Proof.Machine
end

