-- ==== Sys2Proof/Machine/Transpose.lean ====
section
/-! DEFINITION. The transpose engine: TPOSE and ROTSTART (43_transpose.md R190 to R197), and the rotated-row fetch
that PACK1.R and PACK4.R share (R198 to R200). -/

namespace Sys2Proof.Machine

/-- The address of byte `c` of source row 0: `A + c` (43_transpose.md R192). -/
def State.columnBase (s : State) : Nat := s.srcAddr.toNat + s.rotCol.toNat

/-- The source bytes of byte column ROT_COL: `A + j * SS + c` for `j < N` (43_transpose.md R192). -/
def State.columnAddresses (s : State) : List Nat :=
  stridedAddresses s.columnBase s.srcStride.toNat s.width.toNat

/-- `col`, the group's source bytes (43_transpose.md R196, R198). -/
def State.column (s : State) : List Byte := Memory.bytes s.mem s.columnAddresses

/-- The whole source column is in the buffer memory. -/
def State.columnFits (s : State) : Bool :=
  fitsStrided s.params.bufBytes s.columnBase s.srcStride.toNat s.width.toNat

/-! ### TPOSE -/

/-- The checks and accesses of TPOSE (43_transpose.md R196). -/
def tposePlan (bpp4 : Bool) (s : State) : Except ErrorCode Footprint :=
  if s.columnFits &&
      fitsRows s.params.bufBytes s.dstAddr.toNat s.dstStride.toNat (groupSize bpp4)
        (rotatedBytes bpp4 s.width.toNat) then
    .ok { reads := s.columnAddresses
          out := rowsCells s.dstAddr.toNat s.dstStride.toNat (transpose bpp4 s.column) }
  else .error .bounds

/-- TPOSE: transpose one group into DST; BOUNDS; cancellable; no register but STATUS changes (43_transpose.md
R196). -/
def execTpose (bpp4 : Bool) (s : State) : Host.Outcome State Fault Refusal :=
  .next <| s.unlessCancelled <|
    match tposePlan bpp4 s with
    | .error e => s.raiseError e
    | .ok f => (s.commit f).finish

/-! ### ROTSTART -/

/-- The ROT_STATE that ROTSTART sets up for in-byte index `e` (43_transpose.md R197). -/
def rotStarted (bpp4 : Bool) (e : Nat) : RotState :=
  { tpLeft := 0, tpSkip := groupSize bpp4 - 1 - e, tpBpp4 := bpp4, tpValid := true, tpEnd := false }

/-- ROTSTART: set up a rotated sequence; OPERAND when `e >= G`; cancellable; of the registers it writes ROT_STATE only
(43_transpose.md R197). The model's own `rotFirst` notes the column ROT_COL names, `c0` (log 7). -/
def execRotStart (bpp4 : Bool) (s : State) : Host.Outcome State Fault Refusal :=
  .next <| s.unlessCancelled <|
    if groupSize bpp4 ≤ s.sbit then s.raiseError .operand
    else { s with rotState := (rotStarted bpp4 s.sbit).word, rotFirst := s.rotCol }.finish

/-! ### Rotated-row fetch -/

/-- What `RotPlan` returns (43_transpose.md R198). The group's column `c` is ROT_COL, `N` is WIDTH and `ra` is
ROT_ADDR, which the command does not change before `RotCommit`. -/
structure RotPlan where
  /-- `do_t`: a group boundary is crossed, so the command transposes. -/
  transposes : Bool
  /-- `k`: the row of the group this command consumes. -/
  row : Nat
  /-- `newstate`. -/
  next : RotState
  /-- `newcol`. -/
  nextCol : Word
  deriving DecidableEq, Repr

/-- `RotPlan(bpp4)` (43_transpose.md R198): OPERAND when no sequence of this depth is set up, ROT_EXHAUSTED when no
column is left (R200), else the row to consume; the column steps left when the group is transposed (R199). -/
def rotPlan (bpp4 : Bool) (s : State) : Except ErrorCode RotPlan :=
  let st := s.rot
  if !st.tpValid || st.tpBpp4 != bpp4 then .error .operand
  else if st.tpLeft = 0 then
    if st.tpEnd then .error .rotExhausted
    else
      let left := groupSize bpp4 - st.tpSkip
      .ok { transposes := true
            row := groupSize bpp4 - left
            next := { tpLeft := left - 1, tpSkip := 0, tpBpp4 := bpp4, tpValid := true
                      tpEnd := s.rotCol == 0 }
            nextCol := if s.rotCol = 0 then s.rotCol else s.rotCol - 1 }
  else
    .ok { transposes := false
          row := groupSize bpp4 - st.tpLeft
          next := { tpLeft := st.tpLeft - 1, tpSkip := st.tpSkip, tpBpp4 := bpp4, tpValid := true
                    tpEnd := st.tpEnd }
          nextCol := s.rotCol }

/-- `rowaddr = ra + k * RB` (43_transpose.md R198). -/
def RotPlan.rowAddr (p : RotPlan) (bpp4 : Bool) (s : State) : Nat :=
  s.rotAddr.toNat + p.row * rotatedBytes bpp4 s.width.toNat

/-- The addresses checked for a plan (43_transpose.md R198): the column and the whole scratch when it transposes, and
always the scratch row it reads. -/
def RotPlan.fitsMemory (p : RotPlan) (bpp4 : Bool) (s : State) : Bool :=
  (!p.transposes ||
    (s.columnFits &&
      fits s.params.bufBytes s.rotAddr.toNat (groupSize bpp4 * rotatedBytes bpp4 s.width.toNat))) &&
    fits s.params.bufBytes (p.rowAddr bpp4 s) (rotatedBytes bpp4 s.width.toNat)

/-- The writes of `RotApply`: every row of the group, packed at ROT_ADDR with no gap (43_transpose.md R198). -/
def RotPlan.scratch (p : RotPlan) (bpp4 : Bool) (s : State) : List Host.Cell :=
  if p.transposes then
    rowsCells s.rotAddr.toNat (rotatedBytes bpp4 s.width.toNat) (transpose bpp4 s.column)
  else []

/-- The source bytes `RotApply` reads (43_transpose.md R198). -/
def RotPlan.columnReads (p : RotPlan) (s : State) : List Nat :=
  if p.transposes then s.columnAddresses else []

/-- The whole rotation scratch: `G * RB` bytes at ROT_ADDR (43_transpose.md R198). -/
def State.scratchSpan (s : State) (bpp4 : Bool) : Span :=
  { first := s.rotAddr.toNat, count := groupSize bpp4 * rotatedBytes bpp4 s.width.toNat }

/-- How many bytes of each source row the source region of a rotated sequence has: columns 0 to `c0`, the one ROTSTART
found in ROT_COL, or to ROT_COL where the host has written a larger one since (43_transpose.md R197, R202; log 7). -/
def State.sourceColumns (s : State) : Nat := max s.rotFirst.toNat s.rotCol.toNat + 1

/-- The source region of a rotated sequence, one span for each of its `N` rows (43_transpose.md R190, R191, R202;
log 7). -/
def State.sourceRegion (s : State) : List Span :=
  (stridedAddresses s.srcAddr.toNat s.srcStride.toNat s.width.toNat).map (fun a =>
    { first := a, count := s.sourceColumns })

/-- `RotCommit(plan)` (43_transpose.md R198). -/
def State.rotCommit (s : State) (p : RotPlan) : State :=
  { s with rotState := p.next.word, rotCol := p.nextCol }

end Sys2Proof.Machine
end

