-- ==== Sys2Proof/Machine/Pack.lean ====
section
/-! DEFINITION. The bit-aligned byte packer: PACK1 and PACK4, each with its rotated form (42_pack.md). -/

namespace Sys2Proof.Machine

/-- Where a pack takes its row from (42_pack.md R160, R170, R177): SRC_ADDR, or the rotation scratch. -/
structure PackSource where
  /-- `A`, the address of the row's first byte. -/
  addr : Nat
  /-- The rotation plan of a rotated pack. -/
  plan : Option RotPlan
  deriving DecidableEq, Repr

/-- The row of a pack: the rotation plan's when ROT is set, which may raise OPERAND or ROT_EXHAUSTED, else the one at
SRC_ADDR (42_pack.md R167, R175). -/
def packSource (rot bpp4 : Bool) (s : State) : Except ErrorCode PackSource :=
  if rot then
    match rotPlan bpp4 s with
    | .error e => .error e
    | .ok p => .ok { addr := p.rowAddr bpp4 s, plan := some p }
  else .ok { addr := s.srcAddr.toNat, plan := none }

/-- The addresses checked for the source's plan, if it has one (43_transpose.md R198). -/
def PackSource.fitsMemory (src : PackSource) (bpp4 : Bool) (s : State) : Bool :=
  match src.plan with
  | some p => p.fitsMemory bpp4 s
  | none => true

/-- The scratch writes of the source's plan, if it has one. -/
def PackSource.scratch (src : PackSource) (bpp4 : Bool) (s : State) : List Host.Cell :=
  match src.plan with
  | some p => p.scratch bpp4 s
  | none => []

/-- The source row as the command reads it: after its own scratch writes (00_scope.md R10, 43_transpose.md R198). -/
def PackSource.bytes (src : PackSource) (bpp4 : Bool) (s : State) (n : Nat) : List Byte :=
  Memory.bytes (Memory.writeAll s.mem (src.scratch bpp4 s)) (addresses src.addr n)

/-- The accesses of a pack that reads `n` bytes of its row, reads some bytes of a table, and writes `out`. The bytes a
rotated pack reads of its row are scratch bytes (43_transpose.md R198). The output must stay clear of the whole table
(42_pack.md R176) and, when rotated, of the whole scratch and source region (43_transpose.md R202), also where the
command reads no byte of them: the model's choice (log 7). -/
def PackSource.footprint (src : PackSource) (bpp4 : Bool) (s : State) (n : Nat) (tableReads : List Nat)
    (table : List Span) (out : List Host.Cell) : Footprint :=
  match src.plan with
  | some p =>
    { reads := p.columnReads s ++ tableReads, row := addresses src.addr n
      region := s.scratchSpan bpp4 :: s.sourceRegion ++ table
      checked := table.flatMap Span.all, scratch := p.scratch bpp4 s, out := out }
  | none =>
    { reads := addresses src.addr n ++ tableReads, region := table, checked := table.flatMap Span.all, out := out }

/-- What a pack will do, computed before it writes anything. -/
structure PackPlan where
  foot : Footprint
  /-- MASKS and PACK_LEN afterwards (42_pack.md R168). -/
  masks : Word
  packLen : Word
  rot : Option RotPlan
  deriving DecidableEq, Repr

/-- The writes of a pack: memory, MASKS and PACK_LEN, and ROT_STATE and ROT_COL when rotated (42_pack.md R167,
R168). -/
def State.commitPack (s : State) (p : PackPlan) : State :=
  let packed := { s.commit p.foot with masks := p.masks, packLen := p.packLen }
  match p.rot with
  | some r => packed.rotCommit r
  | none => packed

/-! ### PACK1 -/

/-- `S`: SBIT, and 0 for a rotated row (42_pack.md R160). -/
def State.packBit (s : State) (rot : Bool) : Nat := if rot then 0 else s.sbit

/-- The output row of a PACK1 that takes its row from `src` (42_pack.md R167). -/
def PackSource.row1 (src : PackSource) (rot inv maskOr : Bool) (s : State) : List Byte :=
  pack1Row (src.bytes false s (sourceBytes1 (s.packBit rot) s.width.toNat)) inv maskOr (s.packBit rot) s.dbit
    s.width.toNat

/-- The checks and writes of PACK1 (42_pack.md R167). -/
def pack1Plan (rot inv maskOr : Bool) (s : State) : Except ErrorCode PackPlan :=
  match packSource rot false s with
  | .error e => .error e
  | .ok src =>
    let nsrc := sourceBytes1 (s.packBit rot) s.width.toNat
    let nout := ceilDiv (s.dbit + s.width.toNat) 8
    if src.fitsMemory false s && fits s.params.bufBytes src.addr nsrc &&
        fits s.params.bufBytes s.dstAddr.toNat nout then
      .ok { foot := src.footprint false s nsrc [] [] (rowCells s.dstAddr.toNat (src.row1 rot inv maskOr s))
            masks := packMasks s.dbit s.width.toNat nout
            packLen := BitVec.ofNat 32 nout
            rot := src.plan }
    else .error .bounds

/-- PACK1: shift, invert, mask; BOUNDS, and OPERAND or ROT_EXHAUSTED when rotated; cancellable (42_pack.md R167). -/
def execPack1 (rot inv maskOr : Bool) (s : State) : Host.Outcome State Fault Refusal :=
  .next <| s.unlessCancelled <|
    match pack1Plan rot inv maskOr s with
    | .error e => s.raiseError e
    | .ok p => (s.commitPack p).finish

/-! ### PACK4 -/

/-- The address of byte `p` of table entry `b`: `T + 4b + p` (42_pack.md R171). -/
def State.tableAddress (s : State) (b : Byte) (p : Nat) : Nat := s.lutAddr.toNat + 4 * b.toNat + p

/-- The table as the command reads it: after its own scratch writes (00_scope.md R10, 42_pack.md R171). -/
def PackSource.table (src : PackSource) (s : State) (b : Byte) (p : Nat) : Byte :=
  Memory.byte (Memory.writeAll s.mem (src.scratch true s)) (s.tableAddress b p)

/-- The OPERAND checks that PACK4 makes itself: DBIT first, then S4 without ROT (42_pack.md R175, 60_exceptions.md
R223). -/
def pack4Operands (rot : Bool) (s : State) : Bool := s.dbit == 0 && (rot || decide (s.sbit ≤ 1))

/-- The source bytes of a PACK4 row (42_pack.md R172). -/
def PackSource.bytes4 (src : PackSource) (rot : Bool) (s : State) : List Byte :=
  src.bytes true s (sourceBytes4 (s.packBit rot) s.width.toNat)

/-- PACK4's table, 1024 bytes at LUT_ADDR; none when there is no output byte (42_pack.md R171, R175). -/
def State.tableSpans (s : State) : List Span :=
  if ceilDiv s.width.toNat 8 = 0 then [] else [{ first := s.lutAddr.toNat, count := 1024 }]

/-- The table bytes PACK4 reads: three of each entry in use (42_pack.md R171, R173). Its own scratch writes overlap
when they meet one of these (20_memory.md R73); its planes overlap on any byte of the table, byte 3 and entries not in
use among them (42_pack.md R176; the model's choice, log 7). -/
def PackSource.tableReads (src : PackSource) (rot : Bool) (s : State) : List Nat :=
  (List.range (4 * ceilDiv s.width.toNat 8)).flatMap (fun j =>
    (List.range 3).map
      (s.tableAddress (alignedByte (src.bytes4 rot s) (s.packBit rot) s.width.toNat j)))

/-- The three plane rows of a PACK4, plane 0 first (42_pack.md R173, R174). -/
def PackSource.planes (src : PackSource) (rot maskOr : Bool) (s : State) : List (List Byte) :=
  (List.range 3).map
    (planeRow (src.table s) (src.bytes4 rot s) maskOr (s.packBit rot) s.width.toNat)

/-- The checks and writes of PACK4 (42_pack.md R175). -/
def pack4Plan (rot maskOr : Bool) (s : State) : Except ErrorCode PackPlan :=
  if pack4Operands rot s then
    match packSource rot true s with
    | .error e => .error e
    | .ok src =>
      let nsrc := sourceBytes4 (s.packBit rot) s.width.toNat
      let nout := ceilDiv s.width.toNat 8
      if src.fitsMemory true s && fits s.params.bufBytes src.addr nsrc &&
          (nout == 0 || fits s.params.bufBytes s.lutAddr.toNat 1024) &&
          fitsRows s.params.bufBytes s.dstAddr.toNat s.dstStride.toNat 3 nout then
        .ok { foot := src.footprint true s nsrc (src.tableReads rot s) s.tableSpans
                (rowsCells s.dstAddr.toNat s.dstStride.toNat (src.planes rot maskOr s))
              masks := packMasks 0 s.width.toNat nout
              packLen := BitVec.ofNat 32 nout
              rot := src.plan }
      else .error .bounds
  else .error .operand

/-- PACK4: table lookup to 3 planes, then mask; OPERAND, BOUNDS, and ROT_EXHAUSTED when rotated; cancellable
(42_pack.md R175). -/
def execPack4 (rot maskOr : Bool) (s : State) : Host.Outcome State Fault Refusal :=
  .next <| s.unlessCancelled <|
    match pack4Plan rot maskOr s with
    | .error e => s.raiseError e
    | .ok p => (s.commitPack p).finish

end Sys2Proof.Machine
end

