-- ==== Sys2Proof/Machine/Dispatch.lean ====
section
/-! DEFINITION. The dispatch of 30_encoding.md R91: one arm per command. -/

namespace Sys2Proof.Machine

def exec (i : Instr) (s : State) : Host.Outcome State Fault Refusal :=
  match i with
  | .nop => Sys2Proof.Machine.execNop s
  | .openSession => Sys2Proof.Machine.execOpen s
  | .closeSession => Sys2Proof.Machine.execClose s
  | .seedClr => Sys2Proof.Machine.execSeedClr s
  | .tpose bpp4 => Sys2Proof.Machine.execTpose bpp4 s
  | .rotStart bpp4 => Sys2Proof.Machine.execRotStart bpp4 s
  | .pack1 rot inv maskOr => Sys2Proof.Machine.execPack1 rot inv maskOr s
  | .pack4 rot maskOr => Sys2Proof.Machine.execPack4 rot maskOr s
  | .compress plane => Sys2Proof.Machine.execCompress plane s

end Sys2Proof.Machine
end

