-- ==== Sys2Proof/Machine/Engine.lean ====
section
/-! DEFINITION. The engine step (30_encoding.md R91) around exec: fetching the command word from CMD, the error
ILLEGAL of a word that is no command, and what the end of the step does to the model's own fields. -/

namespace Sys2Proof.Machine

/-- The engine moves next: a command is in flight, and no host action goes before its engine step, or the host has
none left (20_memory.md R70, 70_reset_and_hazards.md R262; log 4). -/
def State.engineTurn (s : State) : Bool := s.busy && (s.delay == 0 || s.host.isEmpty)

/-- After the engine step no command is in flight: the bytes the host wrote in a race take free values once more, since
the command may have met them before or after that write (20_memory.md R71; log 6), and the delay is over. -/
def State.retire (s : State) : State := { s.drawBytes s.raced with raced := [], delay := 0 }

/-- The same at the end of a step that has an outcome. -/
def retireOutcome : Host.Outcome State Fault Refusal → Host.Outcome State Fault Refusal
  | .next t => .next t.retire
  | .fault r => .fault r
  | .refused r => .refused r

/-- `engine_step()` (30_encoding.md R91): the word of CMD is executed when it is legal, and raises ILLEGAL when it is
not (R84). exec writes STATUS as R91 says. -/
def engineStep (s : State) : Host.Outcome State Fault Refusal :=
  match decode s.cmd with
  | .ok i => retireOutcome (exec i s)
  | .error _ => .next (s.raiseError .illegal).retire

end Sys2Proof.Machine
end

