-- ==== Sys2Proof/Machine/Host.lean ====
section
/-! DEFINITION. What the host can do to STCP (00_scope.md R4): register accesses (10_state.md R23 to R28, 60_exceptions.md
R222), buffer accesses and their races with the command in flight (20_memory.md R66, R70, R71), WAIT (30_encoding.md
R90) and reset (70_reset_and_hazards.md R250, R251). -/

namespace Sys2Proof.Machine

/-! ### The register map -/

/-- The 22 registers (10_state.md R24). -/
inductive Reg where
  | cmd | status | ctrl | cfg | srcAddr | srcStride | dstAddr | dstStride | width | offs | rotAddr | rotCol
  | lutAddr | len | resKind | resLen | dsize | psize | act | masks | packLen | rotState
  deriving DecidableEq, Repr

/-- The offset of a register (10_state.md R24). -/
def Reg.offset : Reg → Nat
  | .cmd => 0x00
  | .status => 0x04
  | .ctrl => 0x08
  | .cfg => 0x0C
  | .srcAddr => 0x10
  | .srcStride => 0x14
  | .dstAddr => 0x18
  | .dstStride => 0x1C
  | .width => 0x20
  | .offs => 0x24
  | .rotAddr => 0x28
  | .rotCol => 0x2C
  | .lutAddr => 0x30
  | .len => 0x34
  | .resKind => 0x38
  | .resLen => 0x3C
  | .dsize => 0x40
  | .psize => 0x44
  | .act => 0x48
  | .masks => 0x4C
  | .packLen => 0x50
  | .rotState => 0x54

/-- Every register, in the order of its offset. -/
def Reg.all : List Reg :=
  [.cmd, .status, .ctrl, .cfg, .srcAddr, .srcStride, .dstAddr, .dstStride, .width, .offs, .rotAddr, .rotCol,
    .lutAddr, .len, .resKind, .resLen, .dsize, .psize, .act, .masks, .packLen, .rotState]

/-- The register at an offset; 0x58 to 0xFC are unmapped (10_state.md R23). -/
def Reg.ofOffset (offset : Nat) : Option Reg := Reg.all.find? (fun r => r.offset == offset)

/-- The bits of a register that are not reserved (10_state.md R25 to R47). -/
def Reg.fields : Reg → Word
  | .status => 0x000001FF
  | .ctrl => 0x00000001
  | .cfg => 0x00000003
  | .offs => 0x00000707
  | .resKind => 0x00000007
  | .act => 0x00000001
  | .rotState => 0x0000077F
  | .cmd | .srcAddr | .srcStride | .dstAddr | .dstStride | .width | .rotAddr | .rotCol | .lutAddr | .len | .resLen
  | .dsize | .psize | .masks | .packLen => 0xFFFFFFFF

/-- The word a register holds. -/
def Reg.word : Reg → State → Word
  | .cmd, s => s.cmd
  | .status, s => s.status
  | .ctrl, s => s.ctrl
  | .cfg, s => s.cfg
  | .srcAddr, s => s.srcAddr
  | .srcStride, s => s.srcStride
  | .dstAddr, s => s.dstAddr
  | .dstStride, s => s.dstStride
  | .width, s => s.width
  | .offs, s => s.offs
  | .rotAddr, s => s.rotAddr
  | .rotCol, s => s.rotCol
  | .lutAddr, s => s.lutAddr
  | .len, s => s.len
  | .resKind, s => s.resKind
  | .resLen, s => s.resLen
  | .dsize, s => s.dsize
  | .psize, s => s.psize
  | .act, s => s.act
  | .masks, s => s.masks
  | .packLen, s => s.packLen
  | .rotState, s => s.rotState

/-- What a read of a register returns: a reserved field reads 0 (10_state.md R23). -/
def State.readReg (s : State) (r : Reg) : Word := r.word s &&& r.fields

/-- A write to an operand register just stores its value, but for reserved fields (20_memory.md R67, 10_state.md R23);
a write to a read-only register is ignored (R23). CMD, STATUS and CTRL are not written here. -/
def State.storeReg (s : State) (r : Reg) (v : Word) : State :=
  match r with
  | .cfg => { s with cfg := v &&& Reg.fields .cfg }
  | .srcAddr => { s with srcAddr := v }
  | .srcStride => { s with srcStride := v }
  | .dstAddr => { s with dstAddr := v }
  | .dstStride => { s with dstStride := v }
  | .width => { s with width := v }
  | .offs => { s with offs := v &&& Reg.fields .offs }
  | .rotAddr => { s with rotAddr := v }
  | .rotCol => { s with rotCol := v }
  | .lutAddr => { s with lutAddr := v }
  | .len => { s with len := v }
  | .resKind | .resLen | .dsize | .psize | .act | .masks | .packLen | .rotState => s
  | .cmd | .status | .ctrl => s

/-- An accepted CMD write: the word is in flight (10_state.md R25). Its engine step comes after as many further host
actions as the schedule's head says, at once when the schedule is empty (70_reset_and_hazards.md R262; log 4). -/
def State.acceptCommand (s : State) (w : Word) : State :=
  { s with
    cmd := w
    status := setBit s.status 0 true
    delay := s.schedule.headD 0
    schedule := s.schedule.tail }

/-- A host write to a register: CTRL and STATUS always (10_state.md R27, R28); any other register is ignored while
BUSY = 1 and raises the host-side error BUSY (R23, 60_exceptions.md R222). That a read-only register raises it too,
although R23 also says that a write to one is ignored "with no error", is the model's reading (log 11). -/
def State.hostWrite (s : State) (r : Reg) (v : Word) : State :=
  if r = .ctrl then { s with ctrl := v &&& Reg.fields .ctrl }
  else if r = .status then (if v.getLsbD 3 then s.clearError else s)
  else if s.busy then s.hostBusyError
  else if r = .cmd then s.acceptCommand v
  else s.storeReg r v

/-- Where a register access goes: `none` is an unmapped offset. An access outside the 256 bytes at REG_BASE is none to
STCP, and one that is not 32 bits wide or not aligned has no meaning: both are refused (10_state.md R23; log 10). -/
def regAccess (p : Params) (addr bits : Nat) : Except Refusal (Option Reg) :=
  if addr < p.regBase ∨ p.regBase + 256 ≤ addr then .error .outsideRegisterSpace
  else if bits ≠ 32 ∨ (addr - p.regBase) % 4 ≠ 0 then .error .registerAccess
  else .ok (Reg.ofOffset (addr - p.regBase))

/-! ### The command in flight -/

/-- The accesses of a pack. One that will raise an error counts none: it makes no write, and its checks come before its
reads (20_memory.md R63, 42_pack.md R167, R175). That R71's "rule's address set" is then empty is the model's choice
(log 6). -/
def packFootprint : Except ErrorCode PackPlan → Footprint
  | .ok p => p.foot
  | .error _ => {}

/-- The accesses of a COMPRESS. One that will raise BOUNDS at its write range has read its scanline (41_compress.md R121)
and counts it; one that will raise any other error, BOUNDS at its read range among them, counts none. What counts for a
command that will raise an error is the model's choice (log 6). -/
def compressFootprint (plane : BitVec 2) (s : State) : Footprint :=
  if plane = 3 ∨ s.session = false then {}
  else
    match compressPlan plane s with
    | .ok c => c.foot
    | .error _ =>
      if fits s.params.bufBytes s.srcAddr.toNat s.len.toNat then
        { reads := addresses s.srcAddr.toNat s.len.toNat }
      else {}

/-- The buffer bytes a command reads and writes from a state (30_encoding.md R86), whether or not it will be cancelled.
A TPOSE, PACK1 or PACK4 that will raise an error counts none, so a host write to a byte it would have read or written
is no race of 20_memory.md R71. Both are the model's choice (log 6). -/
def commandFootprint (i : Instr) (s : State) : Footprint :=
  match i with
  | .nop | .openSession | .closeSession | .seedClr | .rotStart _ => {}
  | .tpose bpp4 =>
    match tposePlan bpp4 s with
    | .ok f => f
    | .error _ => {}
  | .pack1 rot inv maskOr => packFootprint (pack1Plan rot inv maskOr s)
  | .pack4 rot maskOr => packFootprint (pack4Plan rot maskOr s)
  | .compress plane => compressFootprint plane s

/-- The accesses of the command in flight (10_state.md R50): none when there is none, or when its word is illegal. -/
def State.inFlight (s : State) : Footprint :=
  if s.busy then
    match decode s.cmd with
    | .ok i => commandFootprint i s
    | .error _ => {}
  else {}

/-- Every address of a command's set: the bytes it reads, checks and writes (20_memory.md R63, R71). -/
def Footprint.touched (f : Footprint) : List Nat := f.reads ++ f.row ++ f.checked ++ f.written

/-! ### Host accesses -/

/-- The host receives a value. -/
def State.receive (s : State) (v : Word) : State := { s with received := v :: s.received }

/-- A host register write (10_state.md R23): an unmapped offset ignores it, with no error. -/
def hostRegWrite (s : State) (addr bits : Nat) (v : Word) : Host.Outcome State Fault Refusal :=
  match regAccess s.params addr bits with
  | .error e => .refused e
  | .ok none => .next s
  | .ok (some r) => .next (s.hostWrite r v)

/-- A host register read (10_state.md R23): no side effect on any register, and an unmapped offset returns 0. -/
def hostRegRead (s : State) (addr bits : Nat) : Host.Outcome State Fault Refusal :=
  match regAccess s.params addr bits with
  | .error e => .refused e
  | .ok none => .next (s.receive 0)
  | .ok (some r) => .next (s.receive (s.readReg r))

/-- A host byte write: refused past the buffer memory (20_memory.md R66); in a race with the command in flight, every
byte that command writes and the byte written take free values (R71; log 6). -/
def hostBufWrite (s : State) (a : Nat) (v : Byte) : Host.Outcome State Fault Refusal :=
  if s.params.bufBytes ≤ a then .refused .bufferAddress
  else if s.inFlight.touched.contains a then
    .next { s.drawBytes (s.inFlight.written ++ [a]) with raced := a :: s.raced }
  else .next { s with mem := Memory.write s.mem a v }

/-- A host byte read: refused past the buffer memory (20_memory.md R66); of a byte the command in flight writes it
returns a free value (R71). -/
def hostBufRead (s : State) (a : Nat) : Host.Outcome State Fault Refusal :=
  if s.params.bufBytes ≤ a then .refused .bufferAddress
  else if s.inFlight.written.contains a then
    .next ({ s with draws := s.draws + 1 }.receive ((Config.freeByte s.draws).setWidth 32))
  else .next (s.receive ((Memory.byte s.mem a).setWidth 32))

/-- One poll of `WAIT`: a read of STATUS, and the loop goes on while BUSY = 1 (30_encoding.md R90). `s` is the state
with the action taken off the host's list. -/
def hostWait (s : State) : State :=
  if s.busy then { s.receive (s.readReg .status) with host := .wait :: s.host }
  else s.receive (s.readReg .status)

/-- Reset (70_reset_and_hazards.md R250): every register at its reset value and every seed byte 0. Buffer memory keeps
its bytes; so do the parameters and the host. A command in flight is discarded and makes no write (R251; log 8). -/
def State.afterReset (s : State) : State :=
  { State.reset with
    params := s.params
    seed0 := List.replicate s.params.seedBytes 0
    seed1 := List.replicate s.params.seedBytes 0
    seed2 := List.replicate s.params.seedBytes 0
    mem := s.mem
    host := s.host
    received := s.received
    schedule := s.schedule
    draws := s.draws }

/-- The host's action `a`, with `rest` still to come: one of the accesses that go before the in-flight command's engine
step, if there is one (20_memory.md R70). -/
def hostStep (a : HostAction) (rest : List HostAction) (s : State) : Host.Outcome State Fault Refusal :=
  let s0 := { s with host := rest, delay := s.delay - 1 }
  match a with
  | .regWrite addr bits v => hostRegWrite s0 addr bits v
  | .regRead addr bits => hostRegRead s0 addr bits
  | .bufWrite addr v => hostBufWrite s0 addr v
  | .bufRead addr => hostBufRead s0 addr
  | .wait => .next (hostWait s0)
  | .reset => .next s0.afterReset

/-! ### Host programs (30_encoding.md R89, R90) -/

/-- `WR <REG>, <value>`. -/
def HostAction.wr (p : Params) (r : Reg) (v : Word) : HostAction := .regWrite (p.regBase + r.offset) 32 v

/-- `RD <REG>`. -/
def HostAction.rd (p : Params) (r : Reg) : HostAction := .regRead (p.regBase + r.offset) 32

/-- `CMD <mnemonic>`: `WR CMD, <word of R88>`. -/
def HostAction.command (p : Params) (i : Instr) : HostAction := .wr p .cmd (encode i)

/-- `ISSUE <mnemonic>`: `CMD <mnemonic>` then `WAIT`. -/
def HostAction.issue (p : Params) (i : Instr) : List HostAction := [.command p i, .wait]

/-- `MEMW <addr>: b0 b1 ...`. -/
def HostAction.memw (addr : Nat) (bytes : List Byte) : List HostAction :=
  (rowCells addr bytes).map (fun c => .bufWrite c.1 c.2)

/-- `MEMR <addr>, <n>`. -/
def HostAction.memr (addr n : Nat) : List HostAction := (addresses addr n).map .bufRead

end Sys2Proof.Machine
end

