-- ==== Sys2Proof/Machine/Step.lean ====
section
/-! DEFINITION. One step of the machine: the engine step of the command in flight, or the host's next action, or
nothing when STCP is idle (20_memory.md R70, 60_exceptions.md R236). -/

namespace Sys2Proof.Machine

/-- One step. The engine moves when it is its turn; else the host's next action takes effect; with nothing in flight
and no host action, STCP is idle and all state is kept (60_exceptions.md R236). -/
def step (s : State) : Host.Outcome State Fault Refusal :=
  if s.engineTurn then engineStep s
  else
    match s.host with
    | [] => .next s
    | a :: rest => hostStep a rest s

/-- The state in which the next step runs the command word: the word is in flight and its engine step comes next, as
after an accepted CMD write (10_state.md R25, 30_encoding.md R91; log 5). -/
def State.withFetchWord (s : State) (nbits w : Nat) : State :=
  { s with cmd := BitVec.ofNat 32 (w % 2 ^ nbits), status := setBit s.status 0 true, delay := 0 }

end Sys2Proof.Machine
end

