-- ==== Sys2Proof/Safety.lean ====
section
/-! DEFINITION. The terms the claims are stated in: pixels of a row in buffer memory, how an engine step may end, and
the invariant of a legal state of STCP. -/

namespace Sys2Proof.Machine

/-! ### Rows in buffer memory -/

/-- Pixel `q` of the 1bpp row at address `a` (00_scope.md R7). -/
def rowBit (m : Memory) (a q : Nat) : Bool := (Memory.byte m (a + q / 8)).getLsbD (7 - q % 8)

/-- Pixel `i` of the 4bpp row at address `a` (00_scope.md R7). -/
def rowNibble (m : Memory) (a i : Nat) : BitVec 4 :=
  if i % 2 = 0 then (Memory.byte m (a + i / 2)).extractLsb' 4 4 else (Memory.byte m (a + i / 2)).extractLsb' 0 4

/-- Pixel `i` of a PACK4 row of `W` pixels that begins at nibble `S4` of address `a`; 0 past the row (42_pack.md
R172). -/
def packPixel (m : Memory) (a S4 W i : Nat) : BitVec 4 := if i < W then rowNibble m a (S4 + i) else 0

/-- The output bit of pixel `q` in plane `p`: bit 7 of the table entry's byte `p` for the first pixel of a packed
byte, bit 6 for the second (42_pack.md R171). -/
def tableBit (m : Memory) (T p : Nat) (first second : BitVec 4) (q : Nat) : Bool :=
  (Memory.byte m (T + 4 * (first.toNat * 16 + second.toNat) + p)).getLsbD (if q % 2 = 0 then 7 else 6)

/-! ### How an engine step ends -/

/-- The six fields of STATUS (10_state.md R26): BUSY, SESSION, CANCELLED, ERR, ERRCODE, DEGRADED. -/
def State.statusFields (s : State) : Bool × Bool × Bool × Bool × BitVec 4 × Bool :=
  (s.busy, s.session, s.cancelled, s.err, s.errCode, s.degraded)

/-- The reserved bits of STATUS (10_state.md R26). -/
def State.statusReserved (s : State) : Word := s.status &&& 0xFFFFFE00

/-- A command finished normally: of STATUS only BUSY, CANCELLED and DEGRADED are written (30_encoding.md R91). -/
def EndsNormally (s t : State) : Prop :=
  t.statusFields = (false, s.session, false, s.err, s.errCode, false) ∧ t.statusReserved = s.statusReserved

/-- A command finished degraded (60_exceptions.md R227). -/
def EndsDegraded (s t : State) : Prop :=
  t.statusFields = (false, s.session, false, s.err, s.errCode, true) ∧ t.statusReserved = s.statusReserved

/-- A command ended in the error `code`: nothing but STATUS changed (60_exceptions.md R224). -/
def EndsWithError (s : State) (code : BitVec 4) (t : State) : Prop :=
  t.statusFields = (false, s.session, false, true, code, false) ∧ t.statusReserved = s.statusReserved ∧
    t = { s with status := t.status }

/-- A command was cancelled: nothing but STATUS changed (60_exceptions.md R226). -/
def EndsCancelled (s t : State) : Prop :=
  t.statusFields = (false, s.session, true, s.err, s.errCode, false) ∧ t.statusReserved = s.statusReserved ∧
    t = { s with status := t.status }

/-! ### What a pack leaves -/

/-- PACK_LEN and MASKS after a pack at bit offset `O` and width `W` (42_pack.md R168): the output bytes counted, and
the first and the last AND-mask with their complements, or 0xFFFF0000 when there is no output byte. -/
def PackResult (O W : Nat) (t : State) : Prop :=
  t.packLen.toNat = (O + W + 7) / 8 ∧
  (t.packLen = 0 → t.masks = 0xFFFF0000) ∧
  (t.packLen ≠ 0 → ∀ b < 8,
    t.masks.getLsbD (7 - b) = (decide (O ≤ b) && decide (b < O + W)) ∧
    t.masks.getLsbD (15 - b) =
      decide (8 * ((O + W + 7) / 8 - 1) + b < O + W ∧ O ≤ 8 * ((O + W + 7) / 8 - 1) + b) ∧
    t.masks.getLsbD (23 - b) = !t.masks.getLsbD (7 - b) ∧
    t.masks.getLsbD (31 - b) = !t.masks.getLsbD (15 - b))

/-- The byte at `a` holds a free value that the step from `s` to `t` drew (20_memory.md R71, R73; log 3). -/
def FreshByte (s t : State) (a : Nat) : Prop :=
  ∃ n, s.draws ≤ n ∧ n < t.draws ∧ Memory.byte t.mem a = Config.freeByte n

/-! ### The areas of a rotated sequence and of PACK4 -/

/-- The address is in byte column ROT_COL (43_transpose.md R192, R198). -/
def State.InColumn (s : State) (a : Nat) : Prop :=
  ∃ j < s.width.toNat, a = s.srcAddr.toNat + j * s.srcStride.toNat + s.rotCol.toNat

/-- The address is in the rotation scratch, `G * RB` bytes at ROT_ADDR (43_transpose.md R198). -/
def State.InScratch (s : State) (bpp4 : Bool) (a : Nat) : Prop :=
  ∃ i < groupSize bpp4 * rotatedBytes bpp4 s.width.toNat, a = s.rotAddr.toNat + i

/-- The address is in the source region of R202: columns 0 to the one ROTSTART found in ROT_COL, or to ROT_COL where
that is larger now. Which bytes the region has is the model's reading (log 7). -/
def State.InSourceRegion (s : State) (a : Nat) : Prop :=
  ∃ j < s.width.toNat, ∃ c ≤ max s.rotFirst.toNat s.rotCol.toNat, a = s.srcAddr.toNat + j * s.srcStride.toNat + c

/-- The address is in PACK4's table, all 1024 bytes of it (42_pack.md R171, R176; log 7). -/
def State.InTable (s : State) (a : Nat) : Prop := ∃ i < 1024, a = s.lutAddr.toNat + i

/-- A rotated PACK with a row left takes it from an address at or past BUF_BYTES (43_transpose.md R198, "addresses
checked for a plan"). -/
def State.RotatedRowPastBuffer (s : State) (bpp4 : Bool) : Prop :=
  (s.rot.tpLeft = 0 ∧ s.rot.tpEnd = false ∧
    ((∃ j < s.width.toNat,
        s.params.bufBytes ≤ s.srcAddr.toNat + j * s.srcStride.toNat + s.rotCol.toNat) ∨
      ∃ i < groupSize bpp4 * rotatedBytes bpp4 s.width.toNat, s.params.bufBytes ≤ s.rotAddr.toNat + i)) ∨
  (0 < s.rot.tpLeft ∧ s.rot.tpLeft ≤ groupSize bpp4 ∧
    ∃ i < rotatedBytes bpp4 s.width.toNat,
      s.params.bufBytes ≤
        s.rotAddr.toNat + (groupSize bpp4 - s.rot.tpLeft) * rotatedBytes bpp4 s.width.toNat + i)

/-! ### The invariant -/

/-- Every seed byte is 0. -/
def State.seedsZero (s : State) : Bool :=
  s.seed0.all (fun b => b == 0) && s.seed1.all (fun b => b == 0) && s.seed2.all (fun b => b == 0)

/-- The seed rows have `SEED_BYTES` bytes each (10_state.md R48). -/
def State.seedsSized (s : State) : Bool :=
  s.seed0.length == s.params.seedBytes && s.seed1.length == s.params.seedBytes &&
    s.seed2.length == s.params.seedBytes

/-- Every reserved bit of every register is 0 (10_state.md R23). -/
def State.reservedZero (s : State) : Bool := Reg.all.all (fun r => r.word s &&& ~~~r.fields == 0)

/-- ERR and ERRCODE agree: ERRCODE is 0 exactly while ERR is 0, and never above 7 (60_exceptions.md R221). CANCELLED
and DEGRADED are not both set (10_state.md R26). -/
def State.statusLegal (s : State) : Bool :=
  (s.err == (s.errCode != 0)) && decide (s.errCode.toNat ≤ 7) && !(s.cancelled && s.degraded)

/-- RES_KIND is one of its six values, and RES_LEN is 0 unless it is DELTA or PACKBITS (10_state.md R40, R41). -/
def State.resultLegal (s : State) : Bool :=
  decide (s.resKind.toNat ≤ 5) && (s.resKind == 3 || s.resKind == 4 || s.resLen == 0)

/-- The OR-masks of MASKS are the complements of its AND-masks (10_state.md R45). -/
def State.masksLegal (s : State) : Bool :=
  s.masks == masksWord (s.masks.extractLsb' 0 8) (s.masks.extractLsb' 8 8)

/-- ROT_STATE is clear, or a sequence is set up whose counters are below the group size and whose rows to skip are
still to be skipped only while no row is left (10_state.md R47, 43_transpose.md R197, R198). -/
def State.rotLegal (s : State) : Bool :=
  s.rotState == 0 ||
    (s.rot.tpValid && decide (s.rot.tpLeft < groupSize s.rot.tpBpp4) &&
      decide (s.rot.tpSkip < groupSize s.rot.tpBpp4) && (s.rot.tpLeft == 0 || s.rot.tpSkip == 0))

/-- The model's own fields: a raced address is in the buffer memory, and there is one only while a command is in
flight. -/
def State.racedLegal (s : State) : Bool :=
  s.raced.all (fun a => decide (a < s.params.bufBytes)) && (s.busy || s.raced.isEmpty)

/-- A legal state of STCP: every claim about it holds at reset and is kept by every step. -/
structure State.Inv (s : State) : Prop where
  /-- The parameters are in their ranges (00_scope.md R5). -/
  params : s.params.wf = true
  /-- The buffer memory keeps its canonical form. -/
  canonical : Memory.wf s.mem = true
  /-- No byte is held outside the buffer memory (20_memory.md R61). -/
  within : Memory.within s.params.bufBytes s.mem = true
  /-- The seed rows keep their size (10_state.md R48). -/
  sized : s.seedsSized = true
  /-- Whenever SESSION = 0, every seed byte is 0 (10_state.md R49). -/
  zeroed : s.session = false → s.seedsZero = true
  /-- Reserved register fields are 0 (10_state.md R23). -/
  reserved : s.reservedZero = true
  status : s.statusLegal = true
  result : s.resultLegal = true
  masks : s.masksLegal = true
  rotation : s.rotLegal = true
  races : s.racedLegal = true

end Sys2Proof.Machine
end

