-- ==== Sys2Proof/Certificates/Slice0/Obligations.lean ====
section
/-! DEFINITION. The statements for the provers. Each docstring names the rule of spec/ it formalises; a clause that
rests on the model's own choice says so and names the log entry. -/

open Sys2Proof Sys2Proof.Machine

/-! ### Encoding (30_encoding.md R80 to R91) -/

/-- A few words written out from 30_encoding.md R80 decode to their commands, or to the reason they are illegal. -/
def Obligations.SampleWordsDecode : Prop :=
  decode 0x00000000 = .ok .nop ∧ decode 0x00000002 = .ok .closeSession ∧ decode 0x00000084 = .ok (.tpose true) ∧
  decode 0x00000056 = .ok (.pack1 true false true) ∧ decode 0x00000047 = .ok (.pack4 false true) ∧
  decode 0x00000208 = .ok (.compress 2) ∧ decode 0x00000027 = .error .unusedFlag ∧
  decode 0x00000308 = .error .illegalPlane ∧ decode 0x00000406 = .error .reservedBits ∧
  decode 0x0000000F = .error .reservedOp

/-- Every well-formed command, with every flag and PLANE at every value its encoding admits, is read back from its
encoding (R82, R88). -/
def Obligations.EveryCommandDecodesFromItsEncoding : Prop :=
  ∀ i : Instr, i.wellFormed = true → decode (encode i) = .ok i

/-- Every 32-bit word that decodes is the encoding of the well-formed command it decodes to: no bit is ignored and no
two words mean one command (R82, R87). -/
def Obligations.DecodedWordIsTheEncodingOfItsCommand : Prop :=
  ∀ (w : Word) (i : Instr), decode w = .ok i → i.wellFormed = true ∧ encode i = w

/-- A word is refused exactly when it matches no row of R82, or is COMPRESS with PLANE = 3 (R84, first sentence). -/
def Obligations.RefusedWordsAreTheIllegalOnes : Prop :=
  ∀ w : Word, (∃ e, decode w = .error e) ↔ ((∀ op : Opcode, w &&& op.mask ≠ op.pattern) ∨ w = 0x00000308)

/-! ### The engine step (30_encoding.md R91) -/

/-- When it is the engine's turn and CMD decodes, step is exec of that command; the model's own fields `raced` and
`delay` are then cleared, and each byte the host wrote in a race takes a free value (logs 4, 6). -/
def Obligations.EngineStepRunsTheDecodedCommand : Prop :=
  ∀ (s t : State) (i : Instr), s.engineTurn = true → decode s.cmd = .ok i → exec i s = .next t →
    step s = .next { t.drawBytes t.raced with raced := [], delay := 0 }

/-- An illegal word raises ILLEGAL in its engine step with no other effect, whatever CTRL.CANCEL is (R84, R223). With
no host race, nothing but STATUS and the model's own `delay` changes. -/
def Obligations.IllegalWordRaisesIllegal : Prop :=
  ∀ (s : State) (e : DecodeError), s.engineTurn = true → s.raced = [] → decode s.cmd = .error e →
    ∃ t, step s = .next t ∧ t.statusFields = (false, s.session, false, true, 1, false) ∧
      t.statusReserved = s.statusReserved ∧ t = { s with status := t.status, delay := 0 }

/-- No command stops the engine: every engine step has a next state, with BUSY = 0 (R91, 60_exceptions.md R220). -/
def Obligations.EveryEngineStepFinishesItsCommand : Prop :=
  ∀ s : State, s.engineTurn = true → ∃ t, step s = .next t ∧ t.busy = false ∧ t.raced = []

/-- The engine writes no register of R24 whose "engine writes" column says no: CMD, CTRL, CFG and every operand
register but ROT_COL. -/
def Obligations.EngineKeepsTheHostsRegisters : Prop :=
  ∀ s t : State, s.engineTurn = true → step s = .next t →
    t.cmd = s.cmd ∧ t.ctrl = s.ctrl ∧ t.cfg = s.cfg ∧ t.srcAddr = s.srcAddr ∧ t.srcStride = s.srcStride ∧
    t.dstAddr = s.dstAddr ∧ t.dstStride = s.dstStride ∧ t.width = s.width ∧ t.offs = s.offs ∧
    t.rotAddr = s.rotAddr ∧ t.lutAddr = s.lutAddr ∧ t.len = s.len ∧ t.params = s.params

/-- Every WAIT ends (30_encoding.md R90, 70_reset_and_hazards.md R262): a WAIT that reads BUSY = 0 leaves the host's
list; and with a command in flight and the host waiting, BUSY is 0 after as many polls as the delay says and the engine
step, and the next poll leaves the list. That the delay is counted in host actions, and that a poll is noted in
`received`, is the model's choice (log 4). -/
def Obligations.EveryWaitEnds : Prop :=
  ∀ (s : State) (rest : List HostAction), s.host = .wait :: rest →
    (s.busy = false →
      step s = .next { s with host := rest, delay := s.delay - 1, received := s.readReg .status :: s.received }) ∧
    (s.busy = true →
      ∃ t, Host.Core.run Sys2Proof.core (s.delay + 1) s = .next t ∧ t.busy = false ∧ t.host = .wait :: rest ∧
        Host.Core.run Sys2Proof.core (s.delay + 2) s =
          .next { t with host := rest, received := t.readReg .status :: t.received })

/-! ### Reset and invariants -/

/-- Reset, wherever it falls between two host accesses, gives every register its value of 10_state.md R24 and zeroes
the seed rows; buffer memory is not written (70_reset_and_hazards.md R250). A command in flight is discarded (R251). -/
def Obligations.ResetGivesEveryRegisterItsValue : Prop :=
  ∀ (s : State) (rest : List HostAction), s.engineTurn = false → s.host = .reset :: rest →
    ∃ t, step s = .next t ∧
      (∀ r : Reg, t.readReg r =
        if r = .dsize ∨ r = .psize then 0xFFFFFFFF else if r = .masks then 0xFFFF0000 else 0) ∧
      t.seedsZero = true ∧ t.seedsSized = true ∧ t.mem = s.mem ∧ t.params = s.params

/-- The state right after power-up reset holds the reset values of 10_state.md R24, with zero seed rows and no buffer
byte written. -/
def Obligations.ResetStateHoldsTheResetValues : Prop :=
  (∀ r : Reg, State.reset.readReg r =
    if r = .dsize ∨ r = .psize then 0xFFFFFFFF else if r = .masks then 0xFFFF0000 else 0) ∧
  State.reset.seedsZero = true ∧ State.reset.seedsSized = true ∧ State.reset.mem = []

/-- The reset state is legal. Its parameters are the model's choice (log 1). -/
def Obligations.ResetStateIsLegal : Prop := State.reset.Inv

/-- Every step from a legal state leads to a legal state: the memory stays canonical and inside BUF_BYTES, seed rows
keep their size and are zero outside a session, reserved fields stay 0, and STATUS, RES_KIND, MASKS and ROT_STATE stay
legal. -/
def Obligations.EveryStepKeepsTheStateLegal : Prop :=
  ∀ s t : State, s.Inv → step s = .next t → t.Inv

/-- Whenever STATUS.SESSION = 0, every seed byte is 0 (10_state.md R49): reset zeroes them and sets SESSION to 0, every
step keeps the rule, and no command changes a seed byte while SESSION = 0. -/
def Obligations.SeedRowsAreZeroOutsideASession : Prop :=
  (State.reset.session = false ∧ State.reset.seedsZero = true) ∧
  (∀ s t : State, (s.session = false → s.seedsZero = true) → step s = .next t →
    t.session = false → t.seedsZero = true) ∧
  ∀ (i : Instr) (s t : State), s.session = false → s.seedsZero = true → s.seedsSized = true →
    exec i s = .next t → t.seed0 = s.seed0 ∧ t.seed1 = s.seed1 ∧ t.seed2 = s.seed2

/-- SESSION changes only in the engine step of OPEN or CLOSE, or by reset (10_state.md R26). -/
def Obligations.OnlyOpenCloseAndResetChangeSession : Prop :=
  ∀ s t : State, step s = .next t → t.session ≠ s.session →
    (s.engineTurn = true ∧ (decode s.cmd = .ok .openSession ∨ decode s.cmd = .ok .closeSession)) ∨
    (s.engineTurn = false ∧ ∃ rest, s.host = .reset :: rest)

/-- The host reaches the seed rows only through COMPRESS, SEEDCLR, OPEN and CLOSE, and reset (10_state.md R48). -/
def Obligations.OnlySeedCommandsChangeSeedRows : Prop :=
  ∀ s t : State, step s = .next t → (t.seed0, t.seed1, t.seed2) ≠ (s.seed0, s.seed1, s.seed2) →
    (s.engineTurn = true ∧
      (decode s.cmd = .ok .openSession ∨ decode s.cmd = .ok .closeSession ∨ decode s.cmd = .ok .seedClr ∨
        ∃ p, decode s.cmd = .ok (.compress p))) ∨
    (s.engineTurn = false ∧ ∃ rest, s.host = .reset :: rest)

/-! ### Errors and cancellation (60_exceptions.md) -/

/-- Errors are precise (R224): a command that sets ERR changes nothing but STATUS, and of STATUS only ERR, ERRCODE,
CANCELLED, DEGRADED and BUSY. -/
def Obligations.ErrorsArePrecise : Prop :=
  ∀ (i : Instr) (s t : State), s.err = false → exec i s = .next t → t.err = true →
    EndsWithError s t.errCode t ∧ 1 ≤ t.errCode.toNat ∧ t.errCode.toNat ≤ 7

/-- With CTRL.CANCEL = 1 each cancellable command is discarded: only CANCELLED, DEGRADED and BUSY are written; NOP,
CLOSE and SEEDCLR run normally and clear CANCELLED (R226). -/
def Obligations.CancelDiscardsCancellableCommands : Prop :=
  ∀ (i : Instr) (s : State), s.cancelRequested = true → i.wellFormed = true →
    ∃ t, exec i s = .next t ∧
      if i = .nop ∨ i = .closeSession ∨ i = .seedClr then
        t.cancelled = false ∧ exec i { s with ctrl := 0 } = .next { t with ctrl := 0 }
      else EndsCancelled s t

/-- OPEN in an open session raises REENTRY; CLOSE, SEEDCLR and COMPRESS without one raise NOSESSION (40_control.md
R100). -/
def Obligations.SessionRequirements : Prop :=
  ∀ (s : State) (p : BitVec 2),
    (s.session = true → s.cancelRequested = false → ∃ t, exec .openSession s = .next t ∧ EndsWithError s 3 t) ∧
    (s.session = false → (∃ t, exec .closeSession s = .next t ∧ EndsWithError s 4 t) ∧
      (∃ t, exec .seedClr s = .next t ∧ EndsWithError s 4 t) ∧
      (s.cancelRequested = false → p ≠ 3 → ∃ t, exec (.compress p) s = .next t ∧ EndsWithError s 4 t))

/-! ### Control commands (40_control.md) -/

/-- NOP: word 0, finishes from every state and writes only BUSY, CANCELLED and DEGRADED (R101). -/
def Obligations.NopOnlyEndsItsStep : Prop :=
  decode 0x00000000 = .ok .nop ∧
  ∀ s : State, ∃ t, exec .nop s = .next t ∧ EndsNormally s t ∧ t = { s with status := t.status }

/-- OPEN: word 1; claims a free session, zeroes every seed byte and sets METHOD to Delta (R102). -/
def Obligations.OpenClaimsTheSession : Prop :=
  decode 0x00000001 = .ok .openSession ∧
  ∀ s : State, s.session = false → s.cancelRequested = false →
    ∃ t, exec .openSession s = .next t ∧
      t.statusFields = (false, true, false, s.err, s.errCode, false) ∧ t.statusReserved = s.statusReserved ∧
      t.act = 0 ∧ t.seedsZero = true ∧ t.seedsSized = true ∧
      t = { s with status := t.status, act := t.act, seed0 := t.seed0, seed1 := t.seed1, seed2 := t.seed2 }

/-- CLOSE: word 2; whatever CTRL.CANCEL is, it releases an open session, zeroes every seed byte, METHOD and ROT_STATE,
and keeps ROT_COL and every operand register (R103). -/
def Obligations.CloseReleasesTheSession : Prop :=
  decode 0x00000002 = .ok .closeSession ∧
  ∀ s : State, s.session = true →
    ∃ t, exec .closeSession s = .next t ∧
      t.statusFields = (false, false, false, s.err, s.errCode, false) ∧ t.statusReserved = s.statusReserved ∧
      t.act = 0 ∧ t.rotState = 0 ∧ t.seedsZero = true ∧ t.seedsSized = true ∧
      t = { s with status := t.status, act := t.act, rotState := t.rotState,
                   seed0 := t.seed0, seed1 := t.seed1, seed2 := t.seed2 }

/-- SEEDCLR: word 3; whatever CTRL.CANCEL is, it zeroes every seed byte of an open session and nothing else (R104). -/
def Obligations.SeedClrZeroesTheSeedRows : Prop :=
  decode 0x00000003 = .ok .seedClr ∧
  ∀ s : State, s.session = true →
    ∃ t, exec .seedClr s = .next t ∧ EndsNormally s t ∧ t.seedsZero = true ∧ t.seedsSized = true ∧
      t = { s with status := t.status, seed0 := t.seed0, seed1 := t.seed1, seed2 := t.seed2 }

/-! ### The transpose engine (43_transpose.md) -/

/-- TPOSE completes, in both forms, whenever its addresses are in the buffer memory, and writes only its `G` rows of
`RB` bytes at DST_ADDR and only STATUS of the registers (R196). Overlap and races are not shut out: `draws`, the
model's own counter, moves with them (log 3). -/
def Obligations.TposeCompletesAndWritesOnlyItsRows : Prop :=
  ∀ (bpp4 : Bool) (s : State), s.cancelRequested = false →
    (∀ j < s.width.toNat,
      s.srcAddr.toNat + j * s.srcStride.toNat + s.rotCol.toNat < s.params.bufBytes) →
    (∀ k < groupSize bpp4, ∀ i < rotatedBytes bpp4 s.width.toNat,
      s.dstAddr.toNat + k * s.dstStride.toNat + i < s.params.bufBytes) →
    ∃ t, exec (.tpose bpp4) s = .next t ∧ EndsNormally s t ∧
      t = { s with status := t.status, mem := t.mem, draws := t.draws } ∧
      ∀ a, (∀ k < groupSize bpp4, ∀ i < rotatedBytes bpp4 s.width.toNat,
          a ≠ s.dstAddr.toNat + k * s.dstStride.toNat + i) →
        Memory.byte t.mem a = Memory.byte s.mem a

/-- TPOSE.1: with no overlap and no race, pixel `j` of rotated row `k` is bit `k` of source byte `j`, and the pad bits
are 0 (R193, R195). -/
def Obligations.TposeOneBitRowsAreBitColumns : Prop :=
  ∀ s : State, s.cancelRequested = false → s.raced = [] →
    (∀ j < s.width.toNat,
      s.srcAddr.toNat + j * s.srcStride.toNat + s.rotCol.toNat < s.params.bufBytes) →
    (∀ k < 8, ∀ i < (s.width.toNat + 7) / 8,
      s.dstAddr.toNat + k * s.dstStride.toNat + i < s.params.bufBytes) →
    (∀ k < 8, ∀ i < (s.width.toNat + 7) / 8, ∀ j < s.width.toNat,
      s.dstAddr.toNat + k * s.dstStride.toNat + i ≠
        s.srcAddr.toNat + j * s.srcStride.toNat + s.rotCol.toNat) →
    (s.width.toNat + 7) / 8 ≤ s.dstStride.toNat →
    ∃ t, exec (.tpose false) s = .next t ∧
      ∀ k < 8,
        (∀ j < s.width.toNat,
          rowBit t.mem (s.dstAddr.toNat + k * s.dstStride.toNat) j =
            (Memory.byte s.mem
              (s.srcAddr.toNat + j * s.srcStride.toNat + s.rotCol.toNat)).getLsbD k) ∧
        ∀ q, s.width.toNat ≤ q → q < 8 * ((s.width.toNat + 7) / 8) →
          rowBit t.mem (s.dstAddr.toNat + k * s.dstStride.toNat) q = false

/-- TPOSE.4: with no overlap and no race, pixel `j` of rotated row `k` is nibble `k` of source byte `j` (0 the low
one), and the pad nibble is 0 (R194, R195). -/
def Obligations.TposeFourBitRowsAreNibbleColumns : Prop :=
  ∀ s : State, s.cancelRequested = false → s.raced = [] →
    (∀ j < s.width.toNat,
      s.srcAddr.toNat + j * s.srcStride.toNat + s.rotCol.toNat < s.params.bufBytes) →
    (∀ k < 2, ∀ i < (s.width.toNat + 1) / 2,
      s.dstAddr.toNat + k * s.dstStride.toNat + i < s.params.bufBytes) →
    (∀ k < 2, ∀ i < (s.width.toNat + 1) / 2, ∀ j < s.width.toNat,
      s.dstAddr.toNat + k * s.dstStride.toNat + i ≠
        s.srcAddr.toNat + j * s.srcStride.toNat + s.rotCol.toNat) →
    (s.width.toNat + 1) / 2 ≤ s.dstStride.toNat →
    ∃ t, exec (.tpose true) s = .next t ∧
      ∀ k < 2,
        (∀ j < s.width.toNat,
          rowNibble t.mem (s.dstAddr.toNat + k * s.dstStride.toNat) j =
            (Memory.byte s.mem
              (s.srcAddr.toNat + j * s.srcStride.toNat + s.rotCol.toNat)).extractLsb' (4 * k) 4) ∧
        ∀ q, s.width.toNat ≤ q → q < 2 * ((s.width.toNat + 1) / 2) →
          rowNibble t.mem (s.dstAddr.toNat + k * s.dstStride.toNat) q = 0

/-- TPOSE with any address of its column or its rows at or past BUF_BYTES, and PACK1 with one of its source or output
row, raises BOUNDS and writes nothing (20_memory.md R63). PACK1 checks no source byte past the last valid one
(42_pack.md R161). PACK1.R with a row left does the same for its column and scratch when it transposes, for the scratch row it
takes otherwise, and for its output row (43_transpose.md R198). -/
def Obligations.AddressesPastTheBufferRaiseBounds : Prop :=
  ∀ (bpp4 inv maskOr : Bool) (s : State), s.cancelRequested = false →
    (((∃ j < s.width.toNat,
        s.params.bufBytes ≤ s.srcAddr.toNat + j * s.srcStride.toNat + s.rotCol.toNat) ∨
      ∃ k < groupSize bpp4, ∃ i < rotatedBytes bpp4 s.width.toNat,
        s.params.bufBytes ≤ s.dstAddr.toNat + k * s.dstStride.toNat + i) →
      ∃ t, exec (.tpose bpp4) s = .next t ∧ EndsWithError s 6 t) ∧
    (((0 < s.width.toNat ∧
        ∃ j < (s.sbit + s.width.toNat + 7) / 8, s.params.bufBytes ≤ s.srcAddr.toNat + j) ∨
      ∃ k < (s.dbit + s.width.toNat + 7) / 8, s.params.bufBytes ≤ s.dstAddr.toNat + k) →
      ∃ t, exec (.pack1 false inv maskOr) s = .next t ∧ EndsWithError s 6 t) ∧
    (s.rot.tpValid = true → s.rot.tpBpp4 = false → (0 < s.rot.tpLeft ∨ s.rot.tpEnd = false) →
      (s.RotatedRowPastBuffer false ∨
        ∃ k < (s.dbit + s.width.toNat + 7) / 8, s.params.bufBytes ≤ s.dstAddr.toNat + k) →
      ∃ t, exec (.pack1 true inv maskOr) s = .next t ∧ EndsWithError s 6 t)

/-- A TPOSE whose rows overlap its column, or one another, or with which the host raced, completes with the same
effect on the registers, and every byte it writes holds a free value drawn in this step (20_memory.md R71, R73). That
the free values are drawn one after another by `draws` is the model's choice (log 3). -/
def Obligations.OverlappingTposeWritesFreeBytes : Prop :=
  ∀ (bpp4 : Bool) (s : State), s.cancelRequested = false →
    (∀ j < s.width.toNat,
      s.srcAddr.toNat + j * s.srcStride.toNat + s.rotCol.toNat < s.params.bufBytes) →
    (∀ k < groupSize bpp4, ∀ i < rotatedBytes bpp4 s.width.toNat,
      s.dstAddr.toNat + k * s.dstStride.toNat + i < s.params.bufBytes) →
    (s.raced ≠ [] ∨
      (∃ k < groupSize bpp4, ∃ i < rotatedBytes bpp4 s.width.toNat, ∃ j < s.width.toNat,
        s.dstAddr.toNat + k * s.dstStride.toNat + i =
          s.srcAddr.toNat + j * s.srcStride.toNat + s.rotCol.toNat) ∨
      ∃ k < groupSize bpp4, ∃ k' < groupSize bpp4, ∃ i < rotatedBytes bpp4 s.width.toNat,
        ∃ i' < rotatedBytes bpp4 s.width.toNat, k ≠ k' ∧
          s.dstAddr.toNat + k * s.dstStride.toNat + i = s.dstAddr.toNat + k' * s.dstStride.toNat + i') →
    ∃ t, exec (.tpose bpp4) s = .next t ∧ EndsNormally s t ∧
      t = { s with status := t.status, mem := t.mem, draws := t.draws } ∧
      ∀ k < groupSize bpp4, ∀ i < rotatedBytes bpp4 s.width.toNat,
        ∃ n, s.draws ≤ n ∧ n < t.draws ∧
          Memory.byte t.mem (s.dstAddr.toNat + k * s.dstStride.toNat + i) = Config.freeByte n

/-- ROTSTART sets ROT_STATE and no other register when the in-byte index `e` is below the group size, and raises OPERAND
otherwise, in both forms (R197). That the model's own `rotFirst` notes ROT_COL is the model's choice (log 7). -/
def Obligations.RotStartSetsUpASequence : Prop :=
  decode 0x00000005 = .ok (.rotStart false) ∧ decode 0x00000085 = .ok (.rotStart true) ∧
  ∀ (bpp4 : Bool) (s : State), s.cancelRequested = false →
    (s.sbit < (if bpp4 then 2 else 8) →
      ∃ t, exec (.rotStart bpp4) s = .next t ∧ EndsNormally s t ∧
        t.rot = { tpLeft := 0, tpSkip := (if bpp4 then 2 else 8) - 1 - s.sbit, tpBpp4 := bpp4,
                  tpValid := true, tpEnd := false } ∧
        t.readReg .rotState = t.rotState ∧
        t = { s with status := t.status, rotState := t.rotState, rotFirst := s.rotCol }) ∧
    ((if bpp4 then 2 else 8) ≤ s.sbit →
      ∃ t, exec (.rotStart bpp4) s = .next t ∧ EndsWithError s 5 t)

/-- A rotated pack with no sequence set up, or one of the other depth, raises OPERAND; one whose sequence has
delivered every row raises ROT_EXHAUSTED (R198, R200). PACK4.R checks DBIT first (60_exceptions.md R223). -/
def Obligations.RotatedPackErrors : Prop :=
  ∀ (inv maskOr : Bool) (s : State), s.cancelRequested = false →
    (s.rot.tpValid = false ∨ s.rot.tpBpp4 = true →
      ∃ t, exec (.pack1 true inv maskOr) s = .next t ∧ EndsWithError s 5 t) ∧
    (s.rot.tpValid = false ∨ s.rot.tpBpp4 = false →
      ∃ t, exec (.pack4 true maskOr) s = .next t ∧ EndsWithError s 5 t) ∧
    (s.rot.tpValid = true → s.rot.tpLeft = 0 → s.rot.tpEnd = true →
      (s.rot.tpBpp4 = false → ∃ t, exec (.pack1 true inv maskOr) s = .next t ∧ EndsWithError s 7 t) ∧
      (s.rot.tpBpp4 = true → s.dbit = 0 →
        ∃ t, exec (.pack4 true maskOr) s = .next t ∧ EndsWithError s 7 t))

/-- A PACK1.R that finds an unconsumed row transposes nothing: it takes row `8 - TP_LEFT` of the scratch, counts
TP_LEFT down, keeps ROT_COL, sets PACK_LEN and MASKS, and places the row's pixels at DBIT, inverted by INV, with every
other output bit MASKOR (R198, 42_pack.md R166, R168). With a race, or an output byte in the scratch or the source
region (R202), every output byte is a free value instead. Which bytes the source region has, and that it and the
scratch count whole although the command reads one row, is the model's reading (log 7). -/
def Obligations.RotatedPackOneConsumesAScratchRow : Prop :=
  ∀ (inv maskOr : Bool) (s : State), s.cancelRequested = false →
    s.rot.tpValid = true → s.rot.tpBpp4 = false → 0 < s.rot.tpLeft → s.rot.tpLeft ≤ 8 →
    (∀ i < (s.width.toNat + 7) / 8,
      s.rotAddr.toNat + (8 - s.rot.tpLeft) * ((s.width.toNat + 7) / 8) + i < s.params.bufBytes) →
    (∀ k < (s.dbit + s.width.toNat + 7) / 8, s.dstAddr.toNat + k < s.params.bufBytes) →
    ∃ t, exec (.pack1 true inv maskOr) s = .next t ∧ EndsNormally s t ∧
      t.rot = { s.rot with tpLeft := s.rot.tpLeft - 1 } ∧ PackResult s.dbit s.width.toNat t ∧
      t = { s with status := t.status, mem := t.mem, masks := t.masks, packLen := t.packLen,
                   rotState := t.rotState, draws := t.draws } ∧
      (∀ a, (∀ k < (s.dbit + s.width.toNat + 7) / 8, a ≠ s.dstAddr.toNat + k) →
        Memory.byte t.mem a = Memory.byte s.mem a) ∧
      (s.raced = [] →
        (∀ k < (s.dbit + s.width.toNat + 7) / 8,
          ¬s.InScratch false (s.dstAddr.toNat + k) ∧ ¬s.InSourceRegion (s.dstAddr.toNat + k)) →
        t.draws = s.draws ∧
        ∀ q < 8 * ((s.dbit + s.width.toNat + 7) / 8),
          rowBit t.mem s.dstAddr.toNat q =
            if s.dbit ≤ q ∧ q < s.dbit + s.width.toNat then
              xor (rowBit s.mem (s.rotAddr.toNat + (8 - s.rot.tpLeft) * ((s.width.toNat + 7) / 8)) (q - s.dbit)) inv
            else maskOr) ∧
      ((s.raced ≠ [] ∨ ∃ k < (s.dbit + s.width.toNat + 7) / 8,
          s.InScratch false (s.dstAddr.toNat + k) ∨ s.InSourceRegion (s.dstAddr.toNat + k)) →
        ∀ k < (s.dbit + s.width.toNat + 7) / 8, FreshByte s t (s.dstAddr.toNat + k))

/-- A PACK1.R that crosses a group boundary transposes column ROT_COL into the scratch, all eight rows of it with pad
bits 0, consumes row TP_SKIP of them, clears TP_SKIP, steps ROT_COL left, setting TP_END at column 0, and sets PACK_LEN
and MASKS (R193, R195, R198, R199, 42_pack.md R168). Its output holds bit TP_SKIP of every source byte. With a race, an
output byte in the scratch or the source region (R202), or a scratch byte in the column (20_memory.md R73), every byte
of the scratch and the output is a free value instead. Which bytes the source region has, and that it counts whole
although the command reads one column, is the model's reading (log 7). -/
def Obligations.RotatedPackOneTransposesAtAGroupBoundary : Prop :=
  ∀ (inv maskOr : Bool) (s : State), s.cancelRequested = false →
    s.rot.tpValid = true → s.rot.tpBpp4 = false → s.rot.tpLeft = 0 → s.rot.tpEnd = false →
    (∀ j < s.width.toNat,
      s.srcAddr.toNat + j * s.srcStride.toNat + s.rotCol.toNat < s.params.bufBytes) →
    (∀ i < 8 * ((s.width.toNat + 7) / 8), s.rotAddr.toNat + i < s.params.bufBytes) →
    (∀ k < (s.dbit + s.width.toNat + 7) / 8, s.dstAddr.toNat + k < s.params.bufBytes) →
    ∃ t, exec (.pack1 true inv maskOr) s = .next t ∧ EndsNormally s t ∧
      t.rot = { tpLeft := 7 - s.rot.tpSkip, tpSkip := 0, tpBpp4 := false, tpValid := true,
                tpEnd := s.rotCol == 0 } ∧
      t.rotCol = (if s.rotCol = 0 then 0 else s.rotCol - 1) ∧ PackResult s.dbit s.width.toNat t ∧
      t = { s with status := t.status, mem := t.mem, masks := t.masks, packLen := t.packLen,
                   rotState := t.rotState, rotCol := t.rotCol, draws := t.draws } ∧
      (∀ a, (∀ k < (s.dbit + s.width.toNat + 7) / 8, a ≠ s.dstAddr.toNat + k) → ¬s.InScratch false a →
        Memory.byte t.mem a = Memory.byte s.mem a) ∧
      (s.raced = [] →
        (∀ k < (s.dbit + s.width.toNat + 7) / 8,
          ¬s.InScratch false (s.dstAddr.toNat + k) ∧ ¬s.InSourceRegion (s.dstAddr.toNat + k)) →
        (∀ i < 8 * ((s.width.toNat + 7) / 8), ¬s.InColumn (s.rotAddr.toNat + i)) →
        t.draws = s.draws ∧
        (∀ k < 8,
          (∀ j < s.width.toNat,
            rowBit t.mem (s.rotAddr.toNat + k * ((s.width.toNat + 7) / 8)) j =
              (Memory.byte s.mem (s.srcAddr.toNat + j * s.srcStride.toNat + s.rotCol.toNat)).getLsbD k) ∧
          ∀ q, s.width.toNat ≤ q → q < 8 * ((s.width.toNat + 7) / 8) →
            rowBit t.mem (s.rotAddr.toNat + k * ((s.width.toNat + 7) / 8)) q = false) ∧
        ∀ q < 8 * ((s.dbit + s.width.toNat + 7) / 8),
          rowBit t.mem s.dstAddr.toNat q =
            if s.dbit ≤ q ∧ q < s.dbit + s.width.toNat then
              xor ((Memory.byte s.mem (s.srcAddr.toNat + (q - s.dbit) * s.srcStride.toNat +
                s.rotCol.toNat)).getLsbD s.rot.tpSkip) inv
            else maskOr) ∧
      ((s.raced ≠ [] ∨
          (∃ k < (s.dbit + s.width.toNat + 7) / 8,
            s.InScratch false (s.dstAddr.toNat + k) ∨ s.InSourceRegion (s.dstAddr.toNat + k)) ∨
          ∃ i < 8 * ((s.width.toNat + 7) / 8), s.InColumn (s.rotAddr.toNat + i)) →
        (∀ k < (s.dbit + s.width.toNat + 7) / 8, FreshByte s t (s.dstAddr.toNat + k)) ∧
        ∀ i < 8 * ((s.width.toNat + 7) / 8), FreshByte s t (s.rotAddr.toNat + i))

/-- PACK4.R with DBIT = 0, both forms. At a group boundary it transposes column ROT_COL: scratch row `k` holds nibble
`k` of every source byte, the pad nibble 0; it consumes row TP_SKIP, steps the sequence as PACK1.R does, and each output
bit is the table's bit of two consecutive pixels of that row (R194, R195, R198, R199, 42_pack.md R173, R177). With a row
left it transposes nothing, keeps ROT_COL, counts TP_LEFT down and takes row `2 - TP_LEFT` of the scratch. PACK_LEN and
MASKS are those of R168 for offset 0. With a race, two planes that share a byte, a plane byte in the scratch, the source
region (R202) or the table (R176), or a scratch byte in the column (R73), every byte written is a free value instead.
Which bytes the source region has, and that it, the scratch and the table count whole, is the model's reading (log 7).
The bytes of a transposing PACK4.R whose scratch meets its table are not stated. -/
def Obligations.RotatedPackFourTransposesAtAGroupBoundary : Prop :=
  ∀ (maskOr : Bool) (s : State), s.cancelRequested = false → s.dbit = 0 →
    s.rot.tpValid = true → s.rot.tpBpp4 = true →
    (0 < s.width.toNat → s.lutAddr.toNat + 1023 < s.params.bufBytes) →
    (∀ p < 3, ∀ k < (s.width.toNat + 7) / 8,
      s.dstAddr.toNat + p * s.dstStride.toNat + k < s.params.bufBytes) →
    (s.rot.tpLeft = 0 → s.rot.tpEnd = false → s.rot.tpSkip < 2 →
      (∀ j < s.width.toNat,
        s.srcAddr.toNat + j * s.srcStride.toNat + s.rotCol.toNat < s.params.bufBytes) →
      (∀ i < 2 * ((s.width.toNat + 1) / 2), s.rotAddr.toNat + i < s.params.bufBytes) →
      ∃ t, exec (.pack4 true maskOr) s = .next t ∧ EndsNormally s t ∧
        t.rot = { tpLeft := 1 - s.rot.tpSkip, tpSkip := 0, tpBpp4 := true, tpValid := true,
                  tpEnd := s.rotCol == 0 } ∧
        t.rotCol = (if s.rotCol = 0 then 0 else s.rotCol - 1) ∧ PackResult 0 s.width.toNat t ∧
        t = { s with status := t.status, mem := t.mem, masks := t.masks, packLen := t.packLen,
                     rotState := t.rotState, rotCol := t.rotCol, draws := t.draws } ∧
        (∀ a, (∀ p < 3, ∀ k < (s.width.toNat + 7) / 8, a ≠ s.dstAddr.toNat + p * s.dstStride.toNat + k) →
          ¬s.InScratch true a → Memory.byte t.mem a = Memory.byte s.mem a) ∧
        (s.raced = [] → (s.width.toNat + 7) / 8 ≤ s.dstStride.toNat →
          (∀ p < 3, ∀ k < (s.width.toNat + 7) / 8,
            ¬s.InScratch true (s.dstAddr.toNat + p * s.dstStride.toNat + k) ∧
            ¬s.InSourceRegion (s.dstAddr.toNat + p * s.dstStride.toNat + k) ∧
            ¬s.InTable (s.dstAddr.toNat + p * s.dstStride.toNat + k)) →
          (∀ i < 2 * ((s.width.toNat + 1) / 2),
            ¬s.InColumn (s.rotAddr.toNat + i) ∧ ¬s.InTable (s.rotAddr.toNat + i)) →
          t.draws = s.draws ∧
          (∀ k < 2,
            (∀ j < s.width.toNat,
              rowNibble t.mem (s.rotAddr.toNat + k * ((s.width.toNat + 1) / 2)) j =
                (Memory.byte s.mem
                  (s.srcAddr.toNat + j * s.srcStride.toNat + s.rotCol.toNat)).extractLsb' (4 * k) 4) ∧
            ∀ q, s.width.toNat ≤ q → q < 2 * ((s.width.toNat + 1) / 2) →
              rowNibble t.mem (s.rotAddr.toNat + k * ((s.width.toNat + 1) / 2)) q = 0) ∧
          ∀ p < 3, ∀ q < 8 * ((s.width.toNat + 7) / 8),
            rowBit t.mem (s.dstAddr.toNat + p * s.dstStride.toNat) q =
              if q < s.width.toNat then
                tableBit s.mem s.lutAddr.toNat p
                  ((Memory.byte s.mem (s.srcAddr.toNat + 2 * (q / 2) * s.srcStride.toNat +
                    s.rotCol.toNat)).extractLsb' (4 * s.rot.tpSkip) 4)
                  (if 2 * (q / 2) + 1 < s.width.toNat then
                    (Memory.byte s.mem (s.srcAddr.toNat + (2 * (q / 2) + 1) * s.srcStride.toNat +
                      s.rotCol.toNat)).extractLsb' (4 * s.rot.tpSkip) 4
                  else 0) q
              else maskOr) ∧
        ((s.raced ≠ [] ∨ s.dstStride.toNat < (s.width.toNat + 7) / 8 ∨
            (∃ p < 3, ∃ k < (s.width.toNat + 7) / 8,
              s.InScratch true (s.dstAddr.toNat + p * s.dstStride.toNat + k) ∨
              s.InSourceRegion (s.dstAddr.toNat + p * s.dstStride.toNat + k) ∨
              s.InTable (s.dstAddr.toNat + p * s.dstStride.toNat + k)) ∨
            ∃ i < 2 * ((s.width.toNat + 1) / 2), s.InColumn (s.rotAddr.toNat + i)) →
          (∀ p < 3, ∀ k < (s.width.toNat + 7) / 8,
            FreshByte s t (s.dstAddr.toNat + p * s.dstStride.toNat + k)) ∧
          ∀ i < 2 * ((s.width.toNat + 1) / 2), FreshByte s t (s.rotAddr.toNat + i))) ∧
    (0 < s.rot.tpLeft → s.rot.tpLeft ≤ 2 →
      (∀ i < (s.width.toNat + 1) / 2,
        s.rotAddr.toNat + (2 - s.rot.tpLeft) * ((s.width.toNat + 1) / 2) + i < s.params.bufBytes) →
      ∃ t, exec (.pack4 true maskOr) s = .next t ∧ EndsNormally s t ∧
        t.rot = { s.rot with tpLeft := s.rot.tpLeft - 1 } ∧ PackResult 0 s.width.toNat t ∧
        t = { s with status := t.status, mem := t.mem, masks := t.masks, packLen := t.packLen,
                     rotState := t.rotState, draws := t.draws } ∧
        (∀ a, (∀ p < 3, ∀ k < (s.width.toNat + 7) / 8, a ≠ s.dstAddr.toNat + p * s.dstStride.toNat + k) →
          Memory.byte t.mem a = Memory.byte s.mem a) ∧
        (s.raced = [] → (s.width.toNat + 7) / 8 ≤ s.dstStride.toNat →
          (∀ p < 3, ∀ k < (s.width.toNat + 7) / 8,
            ¬s.InScratch true (s.dstAddr.toNat + p * s.dstStride.toNat + k) ∧
            ¬s.InSourceRegion (s.dstAddr.toNat + p * s.dstStride.toNat + k) ∧
            ¬s.InTable (s.dstAddr.toNat + p * s.dstStride.toNat + k)) →
          t.draws = s.draws ∧
          ∀ p < 3, ∀ q < 8 * ((s.width.toNat + 7) / 8),
            rowBit t.mem (s.dstAddr.toNat + p * s.dstStride.toNat) q =
              if q < s.width.toNat then
                tableBit s.mem s.lutAddr.toNat p
                  (packPixel s.mem (s.rotAddr.toNat + (2 - s.rot.tpLeft) * ((s.width.toNat + 1) / 2)) 0
                    s.width.toNat (2 * (q / 2)))
                  (packPixel s.mem (s.rotAddr.toNat + (2 - s.rot.tpLeft) * ((s.width.toNat + 1) / 2)) 0
                    s.width.toNat (2 * (q / 2) + 1)) q
              else maskOr) ∧
        ((s.raced ≠ [] ∨ s.dstStride.toNat < (s.width.toNat + 7) / 8 ∨
            ∃ p < 3, ∃ k < (s.width.toNat + 7) / 8,
              s.InScratch true (s.dstAddr.toNat + p * s.dstStride.toNat + k) ∨
              s.InSourceRegion (s.dstAddr.toNat + p * s.dstStride.toNat + k) ∨
              s.InTable (s.dstAddr.toNat + p * s.dstStride.toNat + k)) →
          ∀ p < 3, ∀ k < (s.width.toNat + 7) / 8,
            FreshByte s t (s.dstAddr.toNat + p * s.dstStride.toNat + k)))

/-! ### The packer (42_pack.md) -/

/-- The shift, invert and mask stages together: output bit `q` is source pixel `q - O + S`, inverted by INV, for
`O <= q < O + W`, and MASKOR otherwise, over `ceil((O + W) / 8)` bytes (R166), for every row and every S, O and W. -/
def Obligations.PackOneRowIsTheClosedForm : Prop :=
  ∀ (src : List Byte) (inv maskOr : Bool) (S O W : Nat),
    (pack1Row src inv maskOr S O W).length = (O + W + 7) / 8 ∧
    ∀ q < 8 * ((O + W + 7) / 8),
      pixel1 (pack1Row src inv maskOr S O W) q =
        if O ≤ q ∧ q < O + W then xor (pixel1 src (q - O + S)) inv else maskOr

/-- The carry form of the shift stage (R162): each shifted byte is made of two neighbouring source bytes. -/
def Obligations.ShiftStageIsTheCarryForm : Prop :=
  ∀ (src : List Byte) (S O k : Nat), S ≤ 7 → O ≤ 7 →
    shiftedByte src S O k =
      if S < O then
        ((if k = 0 then 0 else src.getD (k - 1) 0) <<< (8 - (O - S))) ||| (src.getD k 0 >>> (O - S))
      else if O < S then (src.getD k 0 <<< (S - O)) ||| (src.getD (k + 1) 0 >>> (8 - (S - O)))
      else src.getD k 0

/-- The boundary masks: a set bit of an AND-mask marks a valid pixel bit, the OR-mask is its complement, and both in
closed form (R163). -/
def Obligations.BoundaryMasksInClosedForm : Prop :=
  ∀ O W : Nat,
    (∀ k, (∀ b < 8, (andMask O W k).getLsbD (7 - b) = decide (O ≤ 8 * k + b ∧ 8 * k + b < O + W)) ∧
      orMask O W k = ~~~(andMask O W k)) ∧
    (O ≤ 7 → 2 ≤ (O + W + 7) / 8 →
      andMask O W 0 = (0xFF : Byte) >>> O ∧
      andMask O W ((O + W + 7) / 8 - 1) =
        (if (O + W) % 8 = 0 then 0xFF else (0xFF : Byte) <<< (8 - (O + W) % 8)) ∧
      ∀ k, 0 < k → k < (O + W + 7) / 8 - 1 → andMask O W k = 0xFF) ∧
    (O ≤ 7 → (O + W + 7) / 8 = 1 →
      andMask O W 0 =
        ((0xFF : Byte) >>> O) &&& (if (O + W) % 8 = 0 then 0xFF else (0xFF : Byte) <<< (8 - (O + W) % 8)))

/-- PACK1 completes, whatever its flags, when its addresses are in the buffer memory: PACK_LEN and MASKS are those of
R168, no other register but STATUS changes, and only the output row is written. Overlap and races are not shut out:
`draws`, the model's own counter, moves with them (log 3). -/
def Obligations.PackOneCompletesAndWritesOnlyItsRow : Prop :=
  ∀ (inv maskOr : Bool) (s : State), s.cancelRequested = false →
    (0 < s.width.toNat → ∀ j < (s.sbit + s.width.toNat + 7) / 8, s.srcAddr.toNat + j < s.params.bufBytes) →
    (∀ k < (s.dbit + s.width.toNat + 7) / 8, s.dstAddr.toNat + k < s.params.bufBytes) →
    ∃ t, exec (.pack1 false inv maskOr) s = .next t ∧ EndsNormally s t ∧
      PackResult s.dbit s.width.toNat t ∧
      t = { s with status := t.status, mem := t.mem, masks := t.masks, packLen := t.packLen, draws := t.draws } ∧
      ∀ a, (∀ k < (s.dbit + s.width.toNat + 7) / 8, a ≠ s.dstAddr.toNat + k) →
        Memory.byte t.mem a = Memory.byte s.mem a

/-- PACK1 without overlap or race writes, at DST_ADDR, the WIDTH source pixels that begin at pixel SBIT of SRC_ADDR's
row, placed at output pixel DBIT and inverted by INV, and MASKOR in every other bit (R166, R167). -/
def Obligations.PackOnePlacesTheSourcePixels : Prop :=
  ∀ (inv maskOr : Bool) (s : State), s.cancelRequested = false → s.raced = [] →
    (0 < s.width.toNat → ∀ j < (s.sbit + s.width.toNat + 7) / 8, s.srcAddr.toNat + j < s.params.bufBytes) →
    (∀ k < (s.dbit + s.width.toNat + 7) / 8, s.dstAddr.toNat + k < s.params.bufBytes) →
    (0 < s.width.toNat → ∀ k < (s.dbit + s.width.toNat + 7) / 8, ∀ j < (s.sbit + s.width.toNat + 7) / 8,
      s.dstAddr.toNat + k ≠ s.srcAddr.toNat + j) →
    ∃ t, exec (.pack1 false inv maskOr) s = .next t ∧
      ∀ q < 8 * ((s.dbit + s.width.toNat + 7) / 8),
        rowBit t.mem s.dstAddr.toNat q =
          if s.dbit ≤ q ∧ q < s.dbit + s.width.toNat then
            xor (rowBit s.mem s.srcAddr.toNat (q - s.dbit + s.sbit)) inv
          else maskOr

/-- PACK4 completes when its operands are legal and its source row, its table and its three planes are in the buffer
memory: PACK_LEN and MASKS are those of R168 for offset 0, no other register but STATUS changes, and only the planes are
written (R175). With a race, two planes that share a byte, or a plane byte in the source row read or anywhere in the
table (R176), every plane byte is a free value. `draws` is the model's own counter (log 3). That a table byte the
command does not read counts, as "the table" of R176 says and "a byte it also reads" of R73 does not, is the model's
reading (log 7). -/
def Obligations.PackFourCompletesAndWritesOnlyItsPlanes : Prop :=
  ∀ (maskOr : Bool) (s : State), s.cancelRequested = false → s.dbit = 0 → s.sbit ≤ 1 →
    (0 < s.width.toNat → ∀ j < (s.sbit + s.width.toNat + 1) / 2, s.srcAddr.toNat + j < s.params.bufBytes) →
    (0 < s.width.toNat → s.lutAddr.toNat + 1023 < s.params.bufBytes) →
    (∀ p < 3, ∀ k < (s.width.toNat + 7) / 8,
      s.dstAddr.toNat + p * s.dstStride.toNat + k < s.params.bufBytes) →
    ∃ t, exec (.pack4 false maskOr) s = .next t ∧ EndsNormally s t ∧ PackResult 0 s.width.toNat t ∧
      t = { s with status := t.status, mem := t.mem, masks := t.masks, packLen := t.packLen, draws := t.draws } ∧
      (∀ a, (∀ p < 3, ∀ k < (s.width.toNat + 7) / 8, a ≠ s.dstAddr.toNat + p * s.dstStride.toNat + k) →
        Memory.byte t.mem a = Memory.byte s.mem a) ∧
      ((s.raced ≠ [] ∨ s.dstStride.toNat < (s.width.toNat + 7) / 8 ∨
          ∃ p < 3, ∃ k < (s.width.toNat + 7) / 8,
            s.InTable (s.dstAddr.toNat + p * s.dstStride.toNat + k) ∨
            ∃ j < (s.sbit + s.width.toNat + 1) / 2,
              s.dstAddr.toNat + p * s.dstStride.toNat + k = s.srcAddr.toNat + j) →
        ∀ p < 3, ∀ k < (s.width.toNat + 7) / 8,
          FreshByte s t (s.dstAddr.toNat + p * s.dstStride.toNat + k))

/-- PACK4 without overlap or race: bit `q` of plane `p` is the table's bit for pixel `q`, looked up with its packed
byte of two pixels (0 past the row), and every pad bit is MASKOR (R171 to R174). -/
def Obligations.PackFourLooksUpEachPixelPair : Prop :=
  ∀ (maskOr : Bool) (s : State), s.cancelRequested = false → s.raced = [] → s.dbit = 0 → s.sbit ≤ 1 →
    (0 < s.width.toNat → ∀ j < (s.sbit + s.width.toNat + 1) / 2, s.srcAddr.toNat + j < s.params.bufBytes) →
    (0 < s.width.toNat → s.lutAddr.toNat + 1023 < s.params.bufBytes) →
    (∀ p < 3, ∀ k < (s.width.toNat + 7) / 8,
      s.dstAddr.toNat + p * s.dstStride.toNat + k < s.params.bufBytes) →
    (s.width.toNat + 7) / 8 ≤ s.dstStride.toNat →
    (∀ p < 3, ∀ k < (s.width.toNat + 7) / 8,
      (∀ j < (s.sbit + s.width.toNat + 1) / 2,
        s.dstAddr.toNat + p * s.dstStride.toNat + k ≠ s.srcAddr.toNat + j) ∧
      ∀ i < 1024, s.dstAddr.toNat + p * s.dstStride.toNat + k ≠ s.lutAddr.toNat + i) →
    ∃ t, exec (.pack4 false maskOr) s = .next t ∧
      ∀ p < 3, ∀ q < 8 * ((s.width.toNat + 7) / 8),
        rowBit t.mem (s.dstAddr.toNat + p * s.dstStride.toNat) q =
          if q < s.width.toNat then
            tableBit s.mem s.lutAddr.toNat p
              (packPixel s.mem s.srcAddr.toNat s.sbit s.width.toNat (2 * (q / 2)))
              (packPixel s.mem s.srcAddr.toNat s.sbit s.width.toNat (2 * (q / 2) + 1)) q
          else maskOr

/-- PACK4 raises OPERAND for a DBIT other than 0, and without ROT for an SBIT above 1; with legal operands it raises
BOUNDS for a source, table or plane address at or past BUF_BYTES, the whole table counting (R175). PACK4.R with a row
left does the same for its column and scratch when it transposes and for the scratch row it takes otherwise
(43_transpose.md R198), and for its table and planes. -/
def Obligations.PackFourErrors : Prop :=
  ∀ (rot maskOr : Bool) (s : State), s.cancelRequested = false →
    (s.dbit ≠ 0 → ∃ t, exec (.pack4 rot maskOr) s = .next t ∧ EndsWithError s 5 t) ∧
    (1 < s.sbit → ∃ t, exec (.pack4 false maskOr) s = .next t ∧ EndsWithError s 5 t) ∧
    (s.dbit = 0 → s.sbit ≤ 1 → 0 < s.width.toNat →
      ((∃ j < (s.sbit + s.width.toNat + 1) / 2, s.params.bufBytes ≤ s.srcAddr.toNat + j) ∨
        s.params.bufBytes ≤ s.lutAddr.toNat + 1023 ∨
        ∃ p < 3, ∃ k < (s.width.toNat + 7) / 8,
          s.params.bufBytes ≤ s.dstAddr.toNat + p * s.dstStride.toNat + k) →
      ∃ t, exec (.pack4 false maskOr) s = .next t ∧ EndsWithError s 6 t) ∧
    (s.dbit = 0 → s.rot.tpValid = true → s.rot.tpBpp4 = true → (0 < s.rot.tpLeft ∨ s.rot.tpEnd = false) →
      (s.RotatedRowPastBuffer true ∨
        (0 < s.width.toNat ∧ s.params.bufBytes ≤ s.lutAddr.toNat + 1023) ∨
        ∃ p < 3, ∃ k < (s.width.toNat + 7) / 8,
          s.params.bufBytes ≤ s.dstAddr.toNat + p * s.dstStride.toNat + k) →
      ∃ t, exec (.pack4 true maskOr) s = .next t ∧ EndsWithError s 6 t)

/-! ### The compression selector (41_compress.md) -/

/-- COMPRESS in mode BLOCK reports NOGAIN with no candidate and touches no seed row, no buffer byte and not ACT
(R122). -/
def Obligations.CompressInBlockModeGivesNoGain : Prop :=
  ∀ (p : BitVec 2) (s : State), p ≠ 3 → s.cancelRequested = false → s.session = true → s.mode = .block →
    ∃ t, exec (.compress p) s = .next t ∧ EndsNormally s t ∧
      t.resKind = 5 ∧ t.resLen = 0 ∧ t.dsize = 0xFFFFFFFF ∧ t.psize = 0xFFFFFFFF ∧
      t = { s with status := t.status, resKind := t.resKind, resLen := t.resLen, dsize := t.dsize,
                   psize := t.psize }

/-- COMPRESS of a row longer than SEED_BYTES in any other mode degrades: NOGAIN and DEGRADED, no error, nothing else
written (R123). -/
def Obligations.CompressOfALongRowDegrades : Prop :=
  ∀ (p : BitVec 2) (s : State), p ≠ 3 → s.cancelRequested = false → s.session = true → s.mode ≠ .block →
    s.params.seedBytes < s.len.toNat →
    ∃ t, exec (.compress p) s = .next t ∧ EndsDegraded s t ∧
      t.resKind = 5 ∧ t.resLen = 0 ∧ t.dsize = 0xFFFFFFFF ∧ t.psize = 0xFFFFFFFF ∧
      t = { s with status := t.status, resKind := t.resKind, resLen := t.resLen, dsize := t.dsize,
                   psize := t.psize }

/-- COMPRESS of a row equal to its seed row reports REPEAT, the empty row among them, and writes only the result
registers (R124). -/
def Obligations.CompressOfTheSeedRowRepeats : Prop :=
  ∀ (p : BitVec 2) (s : State), p ≠ 3 → s.cancelRequested = false → s.session = true → s.mode ≠ .block →
    s.len.toNat ≤ s.params.seedBytes → (∀ j < s.len.toNat, s.srcAddr.toNat + j < s.params.bufBytes) →
    (∀ j < s.len.toNat, Memory.byte s.mem (s.srcAddr.toNat + j) = (s.seed p).getD j 0) →
    ∃ t, exec (.compress p) s = .next t ∧ EndsNormally s t ∧
      t.resKind = 1 ∧ t.resLen = 0 ∧ t.dsize = 0xFFFFFFFF ∧ t.psize = 0xFFFFFFFF ∧
      t = { s with status := t.status, resKind := t.resKind, resLen := t.resLen, dsize := t.dsize,
                   psize := t.psize }

/-- COMPRESS of an all-zero row that is not its seed row reports ALLZERO, zeroes the first LEN bytes of the seed row
and leaves buffer memory, ACT and the other seed rows as they were (R125). -/
def Obligations.CompressOfAZeroRowSignalsAllZero : Prop :=
  ∀ (p : BitVec 2) (s : State), p ≠ 3 → s.cancelRequested = false → s.session = true → s.mode ≠ .block →
    s.len.toNat ≤ s.params.seedBytes → (∀ j < s.len.toNat, s.srcAddr.toNat + j < s.params.bufBytes) →
    (∀ j < s.len.toNat, Memory.byte s.mem (s.srcAddr.toNat + j) = 0) →
    (∃ j < s.len.toNat, (s.seed p).getD j 0 ≠ 0) →
    ∃ t, exec (.compress p) s = .next t ∧ EndsNormally s t ∧
      t.resKind = 2 ∧ t.resLen = 0 ∧ t.dsize = 0xFFFFFFFF ∧ t.psize = 0xFFFFFFFF ∧
      (∀ j, (t.seed p).getD j 0 = if j < s.len.toNat then 0 else (s.seed p).getD j 0) ∧
      (∀ p', p' ≠ p → t.seed p' = s.seed p') ∧
      t = { s with status := t.status, resKind := t.resKind, resLen := t.resLen, dsize := t.dsize,
                   psize := t.psize, seed0 := t.seed0, seed1 := t.seed1, seed2 := t.seed2 }

/-- COMPRESS of any other row builds the candidates of its mode, keeps the smaller one that gains, a tie going to
ACT.METHOD, writes it at DST_ADDR and nothing else, reports the sizes, copies the row into the first LEN seed bytes
and updates ACT (R129, R133 to R139). Overlap and races leave the written bytes to the free values and nothing else
(log 3). -/
def Obligations.CompressWritesTheWinningCandidate : Prop :=
  ∀ (p : BitVec 2) (s : State) (S R d k : List Byte) (useD useK : Bool),
    p ≠ 3 → s.cancelRequested = false → s.session = true → s.mode ≠ .block →
    s.len.toNat ≤ s.params.seedBytes → (∀ j < s.len.toNat, s.srcAddr.toNat + j < s.params.bufBytes) →
    S = (List.range s.len.toNat).map (fun j => Memory.byte s.mem (s.srcAddr.toNat + j)) →
    R = (List.range s.len.toNat).map (fun j => (s.seed p).getD j 0) →
    S ≠ R → S ≠ List.replicate s.len.toNat 0 →
    d = delta s.params.deltaExtCont S R → k = packBits S →
    useD = (s.mode != .packBits && decide (d.length < s.len.toNat) &&
      (s.mode == .delta || decide (s.len.toNat ≤ k.length) || decide (d.length < k.length) ||
        (d.length == k.length && !s.method))) →
    useK = (s.mode != .delta && decide (k.length < s.len.toNat) && !useD) →
    (useD = true → ∀ j < d.length, s.dstAddr.toNat + j < s.params.bufBytes) →
    (useK = true → ∀ j < k.length, s.dstAddr.toNat + j < s.params.bufBytes) →
    ∃ t, exec (.compress p) s = .next t ∧ EndsNormally s t ∧
      t.resKind = (if useD then 3 else if useK then 4 else 5) ∧
      t.resLen.toNat = (if useD then d.length else if useK then k.length else 0) ∧
      (s.mode = .packBits → t.dsize = 0xFFFFFFFF) ∧
      (s.mode ≠ .packBits → d.length < 2 ^ 32 → t.dsize.toNat = d.length) ∧
      (s.mode = .delta → t.psize = 0xFFFFFFFF) ∧
      (s.mode ≠ .delta → k.length < 2 ^ 32 → t.psize.toNat = k.length) ∧
      t.act = (if useD then 0 else if useK then 1 else s.act) ∧
      (∀ j, (t.seed p).getD j 0 = if j < s.len.toNat then S.getD j 0 else (s.seed p).getD j 0) ∧
      (∀ p', p' ≠ p → t.seed p' = s.seed p') ∧
      t = { s with status := t.status, resKind := t.resKind, resLen := t.resLen, dsize := t.dsize,
                   psize := t.psize, act := t.act, mem := t.mem, draws := t.draws,
                   seed0 := t.seed0, seed1 := t.seed1, seed2 := t.seed2 } ∧
      (∀ a, (∀ j < t.resLen.toNat, a ≠ s.dstAddr.toNat + j) → Memory.byte t.mem a = Memory.byte s.mem a) ∧
      (s.raced = [] →
        (∀ j < t.resLen.toNat, ∀ i < s.len.toNat, s.dstAddr.toNat + j ≠ s.srcAddr.toNat + i) →
        ∀ j < t.resLen.toNat,
          Memory.byte t.mem (s.dstAddr.toNat + j) = (if useD then d else k).getD j 0)

/-- COMPRESS raises BOUNDS, and writes nothing, when a byte of the scanline lies at or past BUF_BYTES, or when a byte
of the winner would (R121). -/
def Obligations.CompressOutOfBoundsRaisesBounds : Prop :=
  ∀ (p : BitVec 2) (s : State), p ≠ 3 → s.cancelRequested = false → s.session = true → s.mode ≠ .block →
    s.len.toNat ≤ s.params.seedBytes →
    ((∃ j < s.len.toNat, s.params.bufBytes ≤ s.srcAddr.toNat + j) ∨
      ((∀ j < s.len.toNat, s.srcAddr.toNat + j < s.params.bufBytes) ∧
        ∃ j < (compressRow s.params.deltaExtCont s.mode s.method
            ((List.range s.len.toNat).map (fun j => Memory.byte s.mem (s.srcAddr.toNat + j)))
            ((List.range s.len.toNat).map (fun j => (s.seed p).getD j 0))).out.length,
          s.params.bufBytes ≤ s.dstAddr.toNat + j)) →
    ∃ t, exec (.compress p) s = .next t ∧ EndsWithError s 6 t

/-- Delta decodes to the row it encodes, for every pair of rows of equal length and every continuation value but 0
(R140). -/
def Obligations.DeltaDecodesToItsRow : Prop :=
  ∀ (K : Byte) (S R : List Byte), K ≠ 0 → S.length = R.length →
    deltaDecode K (delta K S R) R = S

/-- PackBits decodes to the row it encodes, for every row (R140). -/
def Obligations.PackBitsDecodesToItsRow : Prop :=
  ∀ S : List Byte, packBitsDecode (packBits S) S.length = S

/-- Delta of two rows of equal length is empty exactly when they are equal (R128, last sentence but one); PackBits of a
row is empty exactly when every byte is 0, and zeros at the end of a row never change it (R131). -/
def Obligations.EmptyEncodingsAndTrailingZeros : Prop :=
  (∀ (K : Byte) (S R : List Byte), S.length = R.length → (delta K S R = [] ↔ S = R)) ∧
  ∀ (S : List Byte) (n : Nat), (packBits S = [] ↔ S = List.replicate S.length 0) ∧
    packBits (S ++ List.replicate n 0) = packBits S

/-- The Delta header fields and the extension bytes (R127): none below 31, else `floor((off - 31) / K) + 1` bytes, each
but the last the continuation value, the last below it, that add up to `off - 31`. -/
def Obligations.DeltaOffsetExtension : Prop :=
  ∀ (K : Byte) (off : Nat), K ≠ 0 →
    (∀ n, 1 ≤ n → n ≤ 8 → ((deltaHeader n off).extractLsb' 5 3).toNat = n - 1 ∧
      ((deltaHeader n off).extractLsb' 0 5).toNat = min off 31) ∧
    (off < 31 → deltaExt K off = []) ∧
    (31 ≤ off → ∃ last : Byte, deltaExt K off = List.replicate ((off - 31) / K.toNat) K ++ [last] ∧
      last.toNat < K.toNat ∧ (off - 31) / K.toNat * K.toNat + last.toNat = off - 31)

/-- What COMPRESS reports and writes gives back the scanline in every case (R140): REPEAT by the old seed row, ALLZERO
by zeros, DELTA and PACKBITS by decoding the RES_LEN bytes at DST_ADDR. -/
def Obligations.CompressedScanlineDecodes : Prop :=
  ∀ (p : BitVec 2) (s t : State) (S R E : List Byte), p ≠ 3 → s.params.wf = true → s.cancelRequested = false →
    s.session = true → s.err = false → s.mode ≠ .block → s.raced = [] →
    exec (.compress p) s = .next t → t.err = false → t.degraded = false →
    (∀ j < t.resLen.toNat, ∀ i < s.len.toNat, s.dstAddr.toNat + j ≠ s.srcAddr.toNat + i) →
    S = (List.range s.len.toNat).map (fun j => Memory.byte s.mem (s.srcAddr.toNat + j)) →
    R = (List.range s.len.toNat).map (fun j => (s.seed p).getD j 0) →
    E = (List.range t.resLen.toNat).map (fun j => Memory.byte t.mem (s.dstAddr.toNat + j)) →
    (t.resKind = 1 ∧ S = R) ∨ (t.resKind = 2 ∧ S = List.replicate s.len.toNat 0) ∨
    (t.resKind = 3 ∧ deltaDecode s.params.deltaExtCont E R = S) ∨
    (t.resKind = 4 ∧ packBitsDecode E s.len.toNat = S) ∨ t.resKind = 5

/-! ### The host (10_state.md R23 to R28, 20_memory.md R66 to R71, 60_exceptions.md R222) -/

/-- A register write other than to CTRL and STATUS while BUSY = 1 is ignored and raises the host-side error BUSY at
once; the command in flight is not affected (60_exceptions.md R222). For a read-only register, 10_state.md R23 says both
that a write is ignored "with no error" and that a write to any register other than CTRL and STATUS while BUSY = 1
raises BUSY; that BUSY is raised there too is the model's reading (log 11). -/
def Obligations.RegisterWriteWhileBusyIsIgnored : Prop :=
  ∀ (s : State) (r : Reg) (v : Word) (rest : List HostAction), s.busy = true → s.engineTurn = false →
    r ≠ .ctrl → r ≠ .status → s.host = .wr s.params r v :: rest →
    ∃ t, step s = .next t ∧
      t.statusFields = (true, s.session, s.cancelled, true, 2, s.degraded) ∧
      t.statusReserved = s.statusReserved ∧
      t = { s with status := t.status, host := rest, delay := s.delay - 1 }

/-- A CMD write while BUSY = 0 is accepted whatever the word is: CMD holds it, BUSY is 1, and nothing else of STCP
changes (10_state.md R25). The delay of its engine step is the model's schedule (log 4). -/
def Obligations.CmdWriteIssuesTheWord : Prop :=
  ∀ (s : State) (w : Word) (rest : List HostAction), s.busy = false → s.host = .wr s.params .cmd w :: rest →
    ∃ t, step s = .next t ∧ t.cmd = w ∧
      t.statusFields = (true, s.session, s.cancelled, s.err, s.errCode, s.degraded) ∧
      t.statusReserved = s.statusReserved ∧
      t = { s with cmd := t.cmd, status := t.status, host := rest, delay := t.delay, schedule := t.schedule }

/-- A host write to STATUS is accepted even while BUSY = 1: with bit 3 of the value set it clears ERR and ERRCODE, and
every other bit of the value is ignored (10_state.md R27). -/
def Obligations.StatusWriteClearsTheError : Prop :=
  ∀ (s : State) (v : Word) (rest : List HostAction), s.engineTurn = false →
    s.host = .wr s.params .status v :: rest →
    ∃ t, step s = .next t ∧ t.statusReserved = s.statusReserved ∧
      t.statusFields = (s.busy, s.session, s.cancelled, if v.getLsbD 3 then false else s.err,
        if v.getLsbD 3 then 0 else s.errCode, s.degraded) ∧
      t = { s with status := t.status, host := rest, delay := s.delay - 1 }

/-- A register write with BUSY = 0 to an operand register stores its value but for the reserved fields, and a write to
a read-only register is ignored: what the register then reads, and that every other register reads as before
(10_state.md R23, R24, 20_memory.md R67). CTRL takes its write while BUSY = 1 too (R28). -/
def Obligations.OperandRegisterHoldsWhatTheHostWrote : Prop :=
  ∀ (s : State) (r : Reg) (v : Word) (rest : List HostAction), s.engineTurn = false →
    (s.busy = false ∨ r = .ctrl) → r ≠ .cmd → r ≠ .status → s.host = .wr s.params r v :: rest →
    ∃ t, step s = .next t ∧
      (∀ r', r' ≠ r → t.readReg r' = s.readReg r') ∧
      t.readReg r =
        (if r = .resKind ∨ r = .resLen ∨ r = .dsize ∨ r = .psize ∨ r = .act ∨ r = .masks ∨ r = .packLen ∨
            r = .rotState then s.readReg r
         else if r = .ctrl then v &&& 0x00000001 else if r = .cfg then v &&& 0x00000003
         else if r = .offs then v &&& 0x00000707 else v) ∧
      t.mem = s.mem ∧ t.seed0 = s.seed0 ∧ t.seed1 = s.seed1 ∧ t.seed2 = s.seed2

/-- An aligned 32-bit read in the register space returns the register's word with reserved fields 0, and 0 at an
unmapped offset, with no side effect on STCP, while BUSY = 1 too (10_state.md R23). -/
def Obligations.RegisterReadHasNoSideEffect : Prop :=
  ∀ (s : State) (offset : Nat) (rest : List HostAction), s.engineTurn = false → offset < 256 → offset % 4 = 0 →
    s.host = .regRead (s.params.regBase + offset) 32 :: rest →
    ∃ v, step s = .next { s with host := rest, delay := s.delay - 1, received := v :: s.received } ∧
      (∀ r : Reg, r.offset = offset → v = s.readReg r ∧ v &&& ~~~r.fields = 0) ∧ (0x58 ≤ offset → v = 0)

/-- The model refuses a register access that is not 32 bits wide or not aligned, and a host access to a buffer address
at or past BUF_BYTES (10_state.md R23, 20_memory.md R66). Alignment is taken within the register space (log 10). -/
def Obligations.MeaninglessHostAccessesAreRefused : Prop :=
  ∀ (s : State) (offset bits a : Nat) (v : Word) (b : Byte) (rest : List HostAction), s.engineTurn = false →
    offset < 256 → (bits ≠ 32 ∨ offset % 4 ≠ 0) → s.params.bufBytes ≤ a →
    step { s with host := .regWrite (s.params.regBase + offset) bits v :: rest } = .refused .registerAccess ∧
    step { s with host := .regRead (s.params.regBase + offset) bits :: rest } = .refused .registerAccess ∧
    step { s with host := .bufWrite a b :: rest } = .refused .bufferAddress ∧
    step { s with host := .bufRead a :: rest } = .refused .bufferAddress

/-- A host write to a buffer byte, with no command in flight, stores the byte and leaves every other byte and every
register as it was; a read returns the byte and changes nothing (20_memory.md R67, R70). -/
def Obligations.HostBufferAccessesWithNothingInFlight : Prop :=
  ∀ (s : State) (a : Nat) (b : Byte) (rest : List HostAction), s.busy = false → a < s.params.bufBytes →
    (s.host = .bufWrite a b :: rest →
      ∃ t, step s = .next t ∧ (∀ a', Memory.byte t.mem a' = if a' = a then b else Memory.byte s.mem a') ∧
        t = { s with host := rest, delay := s.delay - 1, mem := t.mem }) ∧
    (s.host = .bufRead a :: rest →
      step s = .next { s with host := rest, delay := s.delay - 1,
                              received := (Memory.byte s.mem a).setWidth 32 :: s.received })

/-- A host write that races with the command in flight leaves a free value in the byte written and in every byte that
command writes, and nothing else changes; a racing read returns a free value (20_memory.md R71). The draws, the model's
own fields and which bytes count for a command that will raise an error are the model's choice (logs 3, 6). -/
def Obligations.RacingHostAccessesGetFreeValues : Prop :=
  ∀ (s : State) (a : Nat) (b : Byte) (rest : List HostAction), s.engineTurn = false → a < s.params.bufBytes →
    (s.host = .bufWrite a b :: rest → a ∈ s.inFlight.touched →
      ∃ t, step s = .next t ∧
        (∀ a', a' = a ∨ a' ∈ s.inFlight.written →
          ∃ n, s.draws ≤ n ∧ n < t.draws ∧ Memory.byte t.mem a' = Config.freeByte n) ∧
        (∀ a', a' ≠ a → a' ∉ s.inFlight.written → Memory.byte t.mem a' = Memory.byte s.mem a') ∧
        t = { s with host := rest, delay := s.delay - 1, mem := t.mem, raced := a :: s.raced,
                     draws := t.draws }) ∧
    (s.host = .bufRead a :: rest → a ∈ s.inFlight.written →
      step s = .next { s with host := rest, delay := s.delay - 1, draws := s.draws + 1,
                              received := (Config.freeByte s.draws).setWidth 32 :: s.received })
end

