-- ==== Sys2Proof/Laws/State.lean ====
section
/-! SUPPORT. The field lemmas of State: for each update that commands and host accesses share, what every field is
afterwards. Later proofs cite these and unfold no record update. -/

namespace Sys2Proof.Machine

/-- Drawing free bytes changes buffer memory and the counter only. -/
theorem drawBytes_eq (as : List Nat) (s : State) :
    s.drawBytes as = { s with mem := (s.drawBytes as).mem, draws := s.draws + as.length } := by
  induction as generalizing s with
  | nil => rfl
  | cons a as ih =>
    rw [State.drawBytes, ih]
    simp [Nat.add_comm, Nat.add_left_comm]

/-- The writes of a command change buffer memory and the counter of free bytes only. -/
theorem commit_eq (s : State) (f : Footprint) :
    s.commit f = { s with mem := (s.commit f).mem, draws := (s.commit f).draws } := by
  unfold State.commit
  split
  · rw [drawBytes_eq]
  · rfl

/-- Replacing a seed row changes seed rows only. -/
theorem setSeed_eq (s : State) (p : BitVec 2) (row : List Byte) :
    s.setSeed p row =
      { s with
        seed0 := (s.setSeed p row).seed0
        seed1 := (s.setSeed p row).seed1
        seed2 := (s.setSeed p row).seed2 } := by
  unfold State.setSeed
  split <;> rfl

/-- The seed-row update of a COMPRESS changes seed rows only. -/
theorem updateSeed_eq (s : State) (p : BitVec 2) (new : Option (List Byte)) :
    s.updateSeed p new =
      { s with
        seed0 := (s.updateSeed p new).seed0
        seed1 := (s.updateSeed p new).seed1
        seed2 := (s.updateSeed p new).seed2 } := by
  unfold State.updateSeed
  split
  · exact setSeed_eq _ _ _
  · rfl

/-! #### The end of an engine step -/

@[simp] theorem endStep_params (s : State) (e : Ending) : (s.endStep e).params = s.params := rfl
@[simp] theorem endStep_cmd (s : State) (e : Ending) : (s.endStep e).cmd = s.cmd := rfl
@[simp] theorem endStep_status (s : State) (e : Ending) : (s.endStep e).status = statusAfter s.status e := rfl
@[simp] theorem endStep_ctrl (s : State) (e : Ending) : (s.endStep e).ctrl = s.ctrl := rfl
@[simp] theorem endStep_cfg (s : State) (e : Ending) : (s.endStep e).cfg = s.cfg := rfl
@[simp] theorem endStep_srcAddr (s : State) (e : Ending) : (s.endStep e).srcAddr = s.srcAddr := rfl
@[simp] theorem endStep_srcStride (s : State) (e : Ending) : (s.endStep e).srcStride = s.srcStride := rfl
@[simp] theorem endStep_dstAddr (s : State) (e : Ending) : (s.endStep e).dstAddr = s.dstAddr := rfl
@[simp] theorem endStep_dstStride (s : State) (e : Ending) : (s.endStep e).dstStride = s.dstStride := rfl
@[simp] theorem endStep_width (s : State) (e : Ending) : (s.endStep e).width = s.width := rfl
@[simp] theorem endStep_offs (s : State) (e : Ending) : (s.endStep e).offs = s.offs := rfl
@[simp] theorem endStep_rotAddr (s : State) (e : Ending) : (s.endStep e).rotAddr = s.rotAddr := rfl
@[simp] theorem endStep_rotCol (s : State) (e : Ending) : (s.endStep e).rotCol = s.rotCol := rfl
@[simp] theorem endStep_lutAddr (s : State) (e : Ending) : (s.endStep e).lutAddr = s.lutAddr := rfl
@[simp] theorem endStep_len (s : State) (e : Ending) : (s.endStep e).len = s.len := rfl
@[simp] theorem endStep_resKind (s : State) (e : Ending) : (s.endStep e).resKind = s.resKind := rfl
@[simp] theorem endStep_resLen (s : State) (e : Ending) : (s.endStep e).resLen = s.resLen := rfl
@[simp] theorem endStep_dsize (s : State) (e : Ending) : (s.endStep e).dsize = s.dsize := rfl
@[simp] theorem endStep_psize (s : State) (e : Ending) : (s.endStep e).psize = s.psize := rfl
@[simp] theorem endStep_act (s : State) (e : Ending) : (s.endStep e).act = s.act := rfl
@[simp] theorem endStep_masks (s : State) (e : Ending) : (s.endStep e).masks = s.masks := rfl
@[simp] theorem endStep_packLen (s : State) (e : Ending) : (s.endStep e).packLen = s.packLen := rfl
@[simp] theorem endStep_rotState (s : State) (e : Ending) : (s.endStep e).rotState = s.rotState := rfl
@[simp] theorem endStep_seed0 (s : State) (e : Ending) : (s.endStep e).seed0 = s.seed0 := rfl
@[simp] theorem endStep_seed1 (s : State) (e : Ending) : (s.endStep e).seed1 = s.seed1 := rfl
@[simp] theorem endStep_seed2 (s : State) (e : Ending) : (s.endStep e).seed2 = s.seed2 := rfl
@[simp] theorem endStep_mem (s : State) (e : Ending) : (s.endStep e).mem = s.mem := rfl
@[simp] theorem endStep_host (s : State) (e : Ending) : (s.endStep e).host = s.host := rfl
@[simp] theorem endStep_received (s : State) (e : Ending) : (s.endStep e).received = s.received := rfl
@[simp] theorem endStep_schedule (s : State) (e : Ending) : (s.endStep e).schedule = s.schedule := rfl
@[simp] theorem endStep_delay (s : State) (e : Ending) : (s.endStep e).delay = s.delay := rfl
@[simp] theorem endStep_raced (s : State) (e : Ending) : (s.endStep e).raced = s.raced := rfl
@[simp] theorem endStep_draws (s : State) (e : Ending) : (s.endStep e).draws = s.draws := rfl
@[simp] theorem endStep_rotFirst (s : State) (e : Ending) : (s.endStep e).rotFirst = s.rotFirst := rfl

/-! #### Zeroing the seed rows -/

@[simp] theorem zeroSeeds_params (s : State) : (s.zeroSeeds).params = s.params := rfl
@[simp] theorem zeroSeeds_cmd (s : State) : (s.zeroSeeds).cmd = s.cmd := rfl
@[simp] theorem zeroSeeds_status (s : State) : (s.zeroSeeds).status = s.status := rfl
@[simp] theorem zeroSeeds_ctrl (s : State) : (s.zeroSeeds).ctrl = s.ctrl := rfl
@[simp] theorem zeroSeeds_cfg (s : State) : (s.zeroSeeds).cfg = s.cfg := rfl
@[simp] theorem zeroSeeds_srcAddr (s : State) : (s.zeroSeeds).srcAddr = s.srcAddr := rfl
@[simp] theorem zeroSeeds_srcStride (s : State) : (s.zeroSeeds).srcStride = s.srcStride := rfl
@[simp] theorem zeroSeeds_dstAddr (s : State) : (s.zeroSeeds).dstAddr = s.dstAddr := rfl
@[simp] theorem zeroSeeds_dstStride (s : State) : (s.zeroSeeds).dstStride = s.dstStride := rfl
@[simp] theorem zeroSeeds_width (s : State) : (s.zeroSeeds).width = s.width := rfl
@[simp] theorem zeroSeeds_offs (s : State) : (s.zeroSeeds).offs = s.offs := rfl
@[simp] theorem zeroSeeds_rotAddr (s : State) : (s.zeroSeeds).rotAddr = s.rotAddr := rfl
@[simp] theorem zeroSeeds_rotCol (s : State) : (s.zeroSeeds).rotCol = s.rotCol := rfl
@[simp] theorem zeroSeeds_lutAddr (s : State) : (s.zeroSeeds).lutAddr = s.lutAddr := rfl
@[simp] theorem zeroSeeds_len (s : State) : (s.zeroSeeds).len = s.len := rfl
@[simp] theorem zeroSeeds_resKind (s : State) : (s.zeroSeeds).resKind = s.resKind := rfl
@[simp] theorem zeroSeeds_resLen (s : State) : (s.zeroSeeds).resLen = s.resLen := rfl
@[simp] theorem zeroSeeds_dsize (s : State) : (s.zeroSeeds).dsize = s.dsize := rfl
@[simp] theorem zeroSeeds_psize (s : State) : (s.zeroSeeds).psize = s.psize := rfl
@[simp] theorem zeroSeeds_act (s : State) : (s.zeroSeeds).act = s.act := rfl
@[simp] theorem zeroSeeds_masks (s : State) : (s.zeroSeeds).masks = s.masks := rfl
@[simp] theorem zeroSeeds_packLen (s : State) : (s.zeroSeeds).packLen = s.packLen := rfl
@[simp] theorem zeroSeeds_rotState (s : State) : (s.zeroSeeds).rotState = s.rotState := rfl
@[simp] theorem zeroSeeds_seed0 (s : State) : (s.zeroSeeds).seed0 = List.replicate s.params.seedBytes 0 := rfl
@[simp] theorem zeroSeeds_seed1 (s : State) : (s.zeroSeeds).seed1 = List.replicate s.params.seedBytes 0 := rfl
@[simp] theorem zeroSeeds_seed2 (s : State) : (s.zeroSeeds).seed2 = List.replicate s.params.seedBytes 0 := rfl
@[simp] theorem zeroSeeds_mem (s : State) : (s.zeroSeeds).mem = s.mem := rfl
@[simp] theorem zeroSeeds_host (s : State) : (s.zeroSeeds).host = s.host := rfl
@[simp] theorem zeroSeeds_received (s : State) : (s.zeroSeeds).received = s.received := rfl
@[simp] theorem zeroSeeds_schedule (s : State) : (s.zeroSeeds).schedule = s.schedule := rfl
@[simp] theorem zeroSeeds_delay (s : State) : (s.zeroSeeds).delay = s.delay := rfl
@[simp] theorem zeroSeeds_raced (s : State) : (s.zeroSeeds).raced = s.raced := rfl
@[simp] theorem zeroSeeds_draws (s : State) : (s.zeroSeeds).draws = s.draws := rfl
@[simp] theorem zeroSeeds_rotFirst (s : State) : (s.zeroSeeds).rotFirst = s.rotFirst := rfl

/-! #### RotCommit -/

@[simp] theorem rotCommit_params (s : State) (p : RotPlan) : (s.rotCommit p).params = s.params := rfl
@[simp] theorem rotCommit_cmd (s : State) (p : RotPlan) : (s.rotCommit p).cmd = s.cmd := rfl
@[simp] theorem rotCommit_status (s : State) (p : RotPlan) : (s.rotCommit p).status = s.status := rfl
@[simp] theorem rotCommit_ctrl (s : State) (p : RotPlan) : (s.rotCommit p).ctrl = s.ctrl := rfl
@[simp] theorem rotCommit_cfg (s : State) (p : RotPlan) : (s.rotCommit p).cfg = s.cfg := rfl
@[simp] theorem rotCommit_srcAddr (s : State) (p : RotPlan) : (s.rotCommit p).srcAddr = s.srcAddr := rfl
@[simp] theorem rotCommit_srcStride (s : State) (p : RotPlan) : (s.rotCommit p).srcStride = s.srcStride := rfl
@[simp] theorem rotCommit_dstAddr (s : State) (p : RotPlan) : (s.rotCommit p).dstAddr = s.dstAddr := rfl
@[simp] theorem rotCommit_dstStride (s : State) (p : RotPlan) : (s.rotCommit p).dstStride = s.dstStride := rfl
@[simp] theorem rotCommit_width (s : State) (p : RotPlan) : (s.rotCommit p).width = s.width := rfl
@[simp] theorem rotCommit_offs (s : State) (p : RotPlan) : (s.rotCommit p).offs = s.offs := rfl
@[simp] theorem rotCommit_rotAddr (s : State) (p : RotPlan) : (s.rotCommit p).rotAddr = s.rotAddr := rfl
@[simp] theorem rotCommit_rotCol (s : State) (p : RotPlan) : (s.rotCommit p).rotCol = p.nextCol := rfl
@[simp] theorem rotCommit_lutAddr (s : State) (p : RotPlan) : (s.rotCommit p).lutAddr = s.lutAddr := rfl
@[simp] theorem rotCommit_len (s : State) (p : RotPlan) : (s.rotCommit p).len = s.len := rfl
@[simp] theorem rotCommit_resKind (s : State) (p : RotPlan) : (s.rotCommit p).resKind = s.resKind := rfl
@[simp] theorem rotCommit_resLen (s : State) (p : RotPlan) : (s.rotCommit p).resLen = s.resLen := rfl
@[simp] theorem rotCommit_dsize (s : State) (p : RotPlan) : (s.rotCommit p).dsize = s.dsize := rfl
@[simp] theorem rotCommit_psize (s : State) (p : RotPlan) : (s.rotCommit p).psize = s.psize := rfl
@[simp] theorem rotCommit_act (s : State) (p : RotPlan) : (s.rotCommit p).act = s.act := rfl
@[simp] theorem rotCommit_masks (s : State) (p : RotPlan) : (s.rotCommit p).masks = s.masks := rfl
@[simp] theorem rotCommit_packLen (s : State) (p : RotPlan) : (s.rotCommit p).packLen = s.packLen := rfl
@[simp] theorem rotCommit_rotState (s : State) (p : RotPlan) : (s.rotCommit p).rotState = p.next.word := rfl
@[simp] theorem rotCommit_seed0 (s : State) (p : RotPlan) : (s.rotCommit p).seed0 = s.seed0 := rfl
@[simp] theorem rotCommit_seed1 (s : State) (p : RotPlan) : (s.rotCommit p).seed1 = s.seed1 := rfl
@[simp] theorem rotCommit_seed2 (s : State) (p : RotPlan) : (s.rotCommit p).seed2 = s.seed2 := rfl
@[simp] theorem rotCommit_mem (s : State) (p : RotPlan) : (s.rotCommit p).mem = s.mem := rfl
@[simp] theorem rotCommit_host (s : State) (p : RotPlan) : (s.rotCommit p).host = s.host := rfl
@[simp] theorem rotCommit_received (s : State) (p : RotPlan) : (s.rotCommit p).received = s.received := rfl
@[simp] theorem rotCommit_schedule (s : State) (p : RotPlan) : (s.rotCommit p).schedule = s.schedule := rfl
@[simp] theorem rotCommit_delay (s : State) (p : RotPlan) : (s.rotCommit p).delay = s.delay := rfl
@[simp] theorem rotCommit_raced (s : State) (p : RotPlan) : (s.rotCommit p).raced = s.raced := rfl
@[simp] theorem rotCommit_draws (s : State) (p : RotPlan) : (s.rotCommit p).draws = s.draws := rfl
@[simp] theorem rotCommit_rotFirst (s : State) (p : RotPlan) : (s.rotCommit p).rotFirst = s.rotFirst := rfl

/-! #### The result registers of COMPRESS -/

@[simp] theorem setResult_params (s : State) (r : RowResult) : (s.setResult r).params = s.params := rfl
@[simp] theorem setResult_cmd (s : State) (r : RowResult) : (s.setResult r).cmd = s.cmd := rfl
@[simp] theorem setResult_status (s : State) (r : RowResult) : (s.setResult r).status = s.status := rfl
@[simp] theorem setResult_ctrl (s : State) (r : RowResult) : (s.setResult r).ctrl = s.ctrl := rfl
@[simp] theorem setResult_cfg (s : State) (r : RowResult) : (s.setResult r).cfg = s.cfg := rfl
@[simp] theorem setResult_srcAddr (s : State) (r : RowResult) : (s.setResult r).srcAddr = s.srcAddr := rfl
@[simp] theorem setResult_srcStride (s : State) (r : RowResult) : (s.setResult r).srcStride = s.srcStride := rfl
@[simp] theorem setResult_dstAddr (s : State) (r : RowResult) : (s.setResult r).dstAddr = s.dstAddr := rfl
@[simp] theorem setResult_dstStride (s : State) (r : RowResult) : (s.setResult r).dstStride = s.dstStride := rfl
@[simp] theorem setResult_width (s : State) (r : RowResult) : (s.setResult r).width = s.width := rfl
@[simp] theorem setResult_offs (s : State) (r : RowResult) : (s.setResult r).offs = s.offs := rfl
@[simp] theorem setResult_rotAddr (s : State) (r : RowResult) : (s.setResult r).rotAddr = s.rotAddr := rfl
@[simp] theorem setResult_rotCol (s : State) (r : RowResult) : (s.setResult r).rotCol = s.rotCol := rfl
@[simp] theorem setResult_lutAddr (s : State) (r : RowResult) : (s.setResult r).lutAddr = s.lutAddr := rfl
@[simp] theorem setResult_len (s : State) (r : RowResult) : (s.setResult r).len = s.len := rfl
@[simp] theorem setResult_resKind (s : State) (r : RowResult) : (s.setResult r).resKind = r.kind.word := rfl
@[simp] theorem setResult_resLen (s : State) (r : RowResult) : (s.setResult r).resLen = BitVec.ofNat 32 r.out.length := rfl
@[simp] theorem setResult_dsize (s : State) (r : RowResult) : (s.setResult r).dsize = sizeWord r.deltaSize := rfl
@[simp] theorem setResult_psize (s : State) (r : RowResult) : (s.setResult r).psize = sizeWord r.packBitsSize := rfl
@[simp] theorem setResult_act (s : State) (r : RowResult) : (s.setResult r).act = actAfter s.act r.kind := rfl
@[simp] theorem setResult_masks (s : State) (r : RowResult) : (s.setResult r).masks = s.masks := rfl
@[simp] theorem setResult_packLen (s : State) (r : RowResult) : (s.setResult r).packLen = s.packLen := rfl
@[simp] theorem setResult_rotState (s : State) (r : RowResult) : (s.setResult r).rotState = s.rotState := rfl
@[simp] theorem setResult_seed0 (s : State) (r : RowResult) : (s.setResult r).seed0 = s.seed0 := rfl
@[simp] theorem setResult_seed1 (s : State) (r : RowResult) : (s.setResult r).seed1 = s.seed1 := rfl
@[simp] theorem setResult_seed2 (s : State) (r : RowResult) : (s.setResult r).seed2 = s.seed2 := rfl
@[simp] theorem setResult_mem (s : State) (r : RowResult) : (s.setResult r).mem = s.mem := rfl
@[simp] theorem setResult_host (s : State) (r : RowResult) : (s.setResult r).host = s.host := rfl
@[simp] theorem setResult_received (s : State) (r : RowResult) : (s.setResult r).received = s.received := rfl
@[simp] theorem setResult_schedule (s : State) (r : RowResult) : (s.setResult r).schedule = s.schedule := rfl
@[simp] theorem setResult_delay (s : State) (r : RowResult) : (s.setResult r).delay = s.delay := rfl
@[simp] theorem setResult_raced (s : State) (r : RowResult) : (s.setResult r).raced = s.raced := rfl
@[simp] theorem setResult_draws (s : State) (r : RowResult) : (s.setResult r).draws = s.draws := rfl
@[simp] theorem setResult_rotFirst (s : State) (r : RowResult) : (s.setResult r).rotFirst = s.rotFirst := rfl

/-! #### A value the host receives -/

@[simp] theorem receive_params (s : State) (v : Word) : (s.receive v).params = s.params := rfl
@[simp] theorem receive_cmd (s : State) (v : Word) : (s.receive v).cmd = s.cmd := rfl
@[simp] theorem receive_status (s : State) (v : Word) : (s.receive v).status = s.status := rfl
@[simp] theorem receive_ctrl (s : State) (v : Word) : (s.receive v).ctrl = s.ctrl := rfl
@[simp] theorem receive_cfg (s : State) (v : Word) : (s.receive v).cfg = s.cfg := rfl
@[simp] theorem receive_srcAddr (s : State) (v : Word) : (s.receive v).srcAddr = s.srcAddr := rfl
@[simp] theorem receive_srcStride (s : State) (v : Word) : (s.receive v).srcStride = s.srcStride := rfl
@[simp] theorem receive_dstAddr (s : State) (v : Word) : (s.receive v).dstAddr = s.dstAddr := rfl
@[simp] theorem receive_dstStride (s : State) (v : Word) : (s.receive v).dstStride = s.dstStride := rfl
@[simp] theorem receive_width (s : State) (v : Word) : (s.receive v).width = s.width := rfl
@[simp] theorem receive_offs (s : State) (v : Word) : (s.receive v).offs = s.offs := rfl
@[simp] theorem receive_rotAddr (s : State) (v : Word) : (s.receive v).rotAddr = s.rotAddr := rfl
@[simp] theorem receive_rotCol (s : State) (v : Word) : (s.receive v).rotCol = s.rotCol := rfl
@[simp] theorem receive_lutAddr (s : State) (v : Word) : (s.receive v).lutAddr = s.lutAddr := rfl
@[simp] theorem receive_len (s : State) (v : Word) : (s.receive v).len = s.len := rfl
@[simp] theorem receive_resKind (s : State) (v : Word) : (s.receive v).resKind = s.resKind := rfl
@[simp] theorem receive_resLen (s : State) (v : Word) : (s.receive v).resLen = s.resLen := rfl
@[simp] theorem receive_dsize (s : State) (v : Word) : (s.receive v).dsize = s.dsize := rfl
@[simp] theorem receive_psize (s : State) (v : Word) : (s.receive v).psize = s.psize := rfl
@[simp] theorem receive_act (s : State) (v : Word) : (s.receive v).act = s.act := rfl
@[simp] theorem receive_masks (s : State) (v : Word) : (s.receive v).masks = s.masks := rfl
@[simp] theorem receive_packLen (s : State) (v : Word) : (s.receive v).packLen = s.packLen := rfl
@[simp] theorem receive_rotState (s : State) (v : Word) : (s.receive v).rotState = s.rotState := rfl
@[simp] theorem receive_seed0 (s : State) (v : Word) : (s.receive v).seed0 = s.seed0 := rfl
@[simp] theorem receive_seed1 (s : State) (v : Word) : (s.receive v).seed1 = s.seed1 := rfl
@[simp] theorem receive_seed2 (s : State) (v : Word) : (s.receive v).seed2 = s.seed2 := rfl
@[simp] theorem receive_mem (s : State) (v : Word) : (s.receive v).mem = s.mem := rfl
@[simp] theorem receive_host (s : State) (v : Word) : (s.receive v).host = s.host := rfl
@[simp] theorem receive_received (s : State) (v : Word) : (s.receive v).received = v :: s.received := rfl
@[simp] theorem receive_schedule (s : State) (v : Word) : (s.receive v).schedule = s.schedule := rfl
@[simp] theorem receive_delay (s : State) (v : Word) : (s.receive v).delay = s.delay := rfl
@[simp] theorem receive_raced (s : State) (v : Word) : (s.receive v).raced = s.raced := rfl
@[simp] theorem receive_draws (s : State) (v : Word) : (s.receive v).draws = s.draws := rfl
@[simp] theorem receive_rotFirst (s : State) (v : Word) : (s.receive v).rotFirst = s.rotFirst := rfl

/-! #### The host-side BUSY error -/

@[simp] theorem hostBusyError_params (s : State) : (s.hostBusyError).params = s.params := rfl
@[simp] theorem hostBusyError_cmd (s : State) : (s.hostBusyError).cmd = s.cmd := rfl
@[simp] theorem hostBusyError_status (s : State) : (s.hostBusyError).status = statusWithError s.status .busy := rfl
@[simp] theorem hostBusyError_ctrl (s : State) : (s.hostBusyError).ctrl = s.ctrl := rfl
@[simp] theorem hostBusyError_cfg (s : State) : (s.hostBusyError).cfg = s.cfg := rfl
@[simp] theorem hostBusyError_srcAddr (s : State) : (s.hostBusyError).srcAddr = s.srcAddr := rfl
@[simp] theorem hostBusyError_srcStride (s : State) : (s.hostBusyError).srcStride = s.srcStride := rfl
@[simp] theorem hostBusyError_dstAddr (s : State) : (s.hostBusyError).dstAddr = s.dstAddr := rfl
@[simp] theorem hostBusyError_dstStride (s : State) : (s.hostBusyError).dstStride = s.dstStride := rfl
@[simp] theorem hostBusyError_width (s : State) : (s.hostBusyError).width = s.width := rfl
@[simp] theorem hostBusyError_offs (s : State) : (s.hostBusyError).offs = s.offs := rfl
@[simp] theorem hostBusyError_rotAddr (s : State) : (s.hostBusyError).rotAddr = s.rotAddr := rfl
@[simp] theorem hostBusyError_rotCol (s : State) : (s.hostBusyError).rotCol = s.rotCol := rfl
@[simp] theorem hostBusyError_lutAddr (s : State) : (s.hostBusyError).lutAddr = s.lutAddr := rfl
@[simp] theorem hostBusyError_len (s : State) : (s.hostBusyError).len = s.len := rfl
@[simp] theorem hostBusyError_resKind (s : State) : (s.hostBusyError).resKind = s.resKind := rfl
@[simp] theorem hostBusyError_resLen (s : State) : (s.hostBusyError).resLen = s.resLen := rfl
@[simp] theorem hostBusyError_dsize (s : State) : (s.hostBusyError).dsize = s.dsize := rfl
@[simp] theorem hostBusyError_psize (s : State) : (s.hostBusyError).psize = s.psize := rfl
@[simp] theorem hostBusyError_act (s : State) : (s.hostBusyError).act = s.act := rfl
@[simp] theorem hostBusyError_masks (s : State) : (s.hostBusyError).masks = s.masks := rfl
@[simp] theorem hostBusyError_packLen (s : State) : (s.hostBusyError).packLen = s.packLen := rfl
@[simp] theorem hostBusyError_rotState (s : State) : (s.hostBusyError).rotState = s.rotState := rfl
@[simp] theorem hostBusyError_seed0 (s : State) : (s.hostBusyError).seed0 = s.seed0 := rfl
@[simp] theorem hostBusyError_seed1 (s : State) : (s.hostBusyError).seed1 = s.seed1 := rfl
@[simp] theorem hostBusyError_seed2 (s : State) : (s.hostBusyError).seed2 = s.seed2 := rfl
@[simp] theorem hostBusyError_mem (s : State) : (s.hostBusyError).mem = s.mem := rfl
@[simp] theorem hostBusyError_host (s : State) : (s.hostBusyError).host = s.host := rfl
@[simp] theorem hostBusyError_received (s : State) : (s.hostBusyError).received = s.received := rfl
@[simp] theorem hostBusyError_schedule (s : State) : (s.hostBusyError).schedule = s.schedule := rfl
@[simp] theorem hostBusyError_delay (s : State) : (s.hostBusyError).delay = s.delay := rfl
@[simp] theorem hostBusyError_raced (s : State) : (s.hostBusyError).raced = s.raced := rfl
@[simp] theorem hostBusyError_draws (s : State) : (s.hostBusyError).draws = s.draws := rfl
@[simp] theorem hostBusyError_rotFirst (s : State) : (s.hostBusyError).rotFirst = s.rotFirst := rfl

/-! #### Clearing the error -/

@[simp] theorem clearError_params (s : State) : (s.clearError).params = s.params := rfl
@[simp] theorem clearError_cmd (s : State) : (s.clearError).cmd = s.cmd := rfl
@[simp] theorem clearError_status (s : State) : (s.clearError).status = statusWithoutError s.status := rfl
@[simp] theorem clearError_ctrl (s : State) : (s.clearError).ctrl = s.ctrl := rfl
@[simp] theorem clearError_cfg (s : State) : (s.clearError).cfg = s.cfg := rfl
@[simp] theorem clearError_srcAddr (s : State) : (s.clearError).srcAddr = s.srcAddr := rfl
@[simp] theorem clearError_srcStride (s : State) : (s.clearError).srcStride = s.srcStride := rfl
@[simp] theorem clearError_dstAddr (s : State) : (s.clearError).dstAddr = s.dstAddr := rfl
@[simp] theorem clearError_dstStride (s : State) : (s.clearError).dstStride = s.dstStride := rfl
@[simp] theorem clearError_width (s : State) : (s.clearError).width = s.width := rfl
@[simp] theorem clearError_offs (s : State) : (s.clearError).offs = s.offs := rfl
@[simp] theorem clearError_rotAddr (s : State) : (s.clearError).rotAddr = s.rotAddr := rfl
@[simp] theorem clearError_rotCol (s : State) : (s.clearError).rotCol = s.rotCol := rfl
@[simp] theorem clearError_lutAddr (s : State) : (s.clearError).lutAddr = s.lutAddr := rfl
@[simp] theorem clearError_len (s : State) : (s.clearError).len = s.len := rfl
@[simp] theorem clearError_resKind (s : State) : (s.clearError).resKind = s.resKind := rfl
@[simp] theorem clearError_resLen (s : State) : (s.clearError).resLen = s.resLen := rfl
@[simp] theorem clearError_dsize (s : State) : (s.clearError).dsize = s.dsize := rfl
@[simp] theorem clearError_psize (s : State) : (s.clearError).psize = s.psize := rfl
@[simp] theorem clearError_act (s : State) : (s.clearError).act = s.act := rfl
@[simp] theorem clearError_masks (s : State) : (s.clearError).masks = s.masks := rfl
@[simp] theorem clearError_packLen (s : State) : (s.clearError).packLen = s.packLen := rfl
@[simp] theorem clearError_rotState (s : State) : (s.clearError).rotState = s.rotState := rfl
@[simp] theorem clearError_seed0 (s : State) : (s.clearError).seed0 = s.seed0 := rfl
@[simp] theorem clearError_seed1 (s : State) : (s.clearError).seed1 = s.seed1 := rfl
@[simp] theorem clearError_seed2 (s : State) : (s.clearError).seed2 = s.seed2 := rfl
@[simp] theorem clearError_mem (s : State) : (s.clearError).mem = s.mem := rfl
@[simp] theorem clearError_host (s : State) : (s.clearError).host = s.host := rfl
@[simp] theorem clearError_received (s : State) : (s.clearError).received = s.received := rfl
@[simp] theorem clearError_schedule (s : State) : (s.clearError).schedule = s.schedule := rfl
@[simp] theorem clearError_delay (s : State) : (s.clearError).delay = s.delay := rfl
@[simp] theorem clearError_raced (s : State) : (s.clearError).raced = s.raced := rfl
@[simp] theorem clearError_draws (s : State) : (s.clearError).draws = s.draws := rfl
@[simp] theorem clearError_rotFirst (s : State) : (s.clearError).rotFirst = s.rotFirst := rfl

/-! #### An accepted command -/

@[simp] theorem acceptCommand_params (s : State) (w : Word) : (s.acceptCommand w).params = s.params := rfl
@[simp] theorem acceptCommand_cmd (s : State) (w : Word) : (s.acceptCommand w).cmd = w := rfl
@[simp] theorem acceptCommand_status (s : State) (w : Word) : (s.acceptCommand w).status = setBit s.status 0 true := rfl
@[simp] theorem acceptCommand_ctrl (s : State) (w : Word) : (s.acceptCommand w).ctrl = s.ctrl := rfl
@[simp] theorem acceptCommand_cfg (s : State) (w : Word) : (s.acceptCommand w).cfg = s.cfg := rfl
@[simp] theorem acceptCommand_srcAddr (s : State) (w : Word) : (s.acceptCommand w).srcAddr = s.srcAddr := rfl
@[simp] theorem acceptCommand_srcStride (s : State) (w : Word) : (s.acceptCommand w).srcStride = s.srcStride := rfl
@[simp] theorem acceptCommand_dstAddr (s : State) (w : Word) : (s.acceptCommand w).dstAddr = s.dstAddr := rfl
@[simp] theorem acceptCommand_dstStride (s : State) (w : Word) : (s.acceptCommand w).dstStride = s.dstStride := rfl
@[simp] theorem acceptCommand_width (s : State) (w : Word) : (s.acceptCommand w).width = s.width := rfl
@[simp] theorem acceptCommand_offs (s : State) (w : Word) : (s.acceptCommand w).offs = s.offs := rfl
@[simp] theorem acceptCommand_rotAddr (s : State) (w : Word) : (s.acceptCommand w).rotAddr = s.rotAddr := rfl
@[simp] theorem acceptCommand_rotCol (s : State) (w : Word) : (s.acceptCommand w).rotCol = s.rotCol := rfl
@[simp] theorem acceptCommand_lutAddr (s : State) (w : Word) : (s.acceptCommand w).lutAddr = s.lutAddr := rfl
@[simp] theorem acceptCommand_len (s : State) (w : Word) : (s.acceptCommand w).len = s.len := rfl
@[simp] theorem acceptCommand_resKind (s : State) (w : Word) : (s.acceptCommand w).resKind = s.resKind := rfl
@[simp] theorem acceptCommand_resLen (s : State) (w : Word) : (s.acceptCommand w).resLen = s.resLen := rfl
@[simp] theorem acceptCommand_dsize (s : State) (w : Word) : (s.acceptCommand w).dsize = s.dsize := rfl
@[simp] theorem acceptCommand_psize (s : State) (w : Word) : (s.acceptCommand w).psize = s.psize := rfl
@[simp] theorem acceptCommand_act (s : State) (w : Word) : (s.acceptCommand w).act = s.act := rfl
@[simp] theorem acceptCommand_masks (s : State) (w : Word) : (s.acceptCommand w).masks = s.masks := rfl
@[simp] theorem acceptCommand_packLen (s : State) (w : Word) : (s.acceptCommand w).packLen = s.packLen := rfl
@[simp] theorem acceptCommand_rotState (s : State) (w : Word) : (s.acceptCommand w).rotState = s.rotState := rfl
@[simp] theorem acceptCommand_seed0 (s : State) (w : Word) : (s.acceptCommand w).seed0 = s.seed0 := rfl
@[simp] theorem acceptCommand_seed1 (s : State) (w : Word) : (s.acceptCommand w).seed1 = s.seed1 := rfl
@[simp] theorem acceptCommand_seed2 (s : State) (w : Word) : (s.acceptCommand w).seed2 = s.seed2 := rfl
@[simp] theorem acceptCommand_mem (s : State) (w : Word) : (s.acceptCommand w).mem = s.mem := rfl
@[simp] theorem acceptCommand_host (s : State) (w : Word) : (s.acceptCommand w).host = s.host := rfl
@[simp] theorem acceptCommand_received (s : State) (w : Word) : (s.acceptCommand w).received = s.received := rfl
@[simp] theorem acceptCommand_schedule (s : State) (w : Word) : (s.acceptCommand w).schedule = s.schedule.tail := rfl
@[simp] theorem acceptCommand_delay (s : State) (w : Word) : (s.acceptCommand w).delay = s.schedule.headD 0 := rfl
@[simp] theorem acceptCommand_raced (s : State) (w : Word) : (s.acceptCommand w).raced = s.raced := rfl
@[simp] theorem acceptCommand_draws (s : State) (w : Word) : (s.acceptCommand w).draws = s.draws := rfl
@[simp] theorem acceptCommand_rotFirst (s : State) (w : Word) : (s.acceptCommand w).rotFirst = s.rotFirst := rfl

/-! #### Free bytes -/

@[simp] theorem drawBytes_params (as : List Nat) (s : State) : (s.drawBytes as).params = s.params := by rw [drawBytes_eq]
@[simp] theorem drawBytes_cmd (as : List Nat) (s : State) : (s.drawBytes as).cmd = s.cmd := by rw [drawBytes_eq]
@[simp] theorem drawBytes_status (as : List Nat) (s : State) : (s.drawBytes as).status = s.status := by rw [drawBytes_eq]
@[simp] theorem drawBytes_ctrl (as : List Nat) (s : State) : (s.drawBytes as).ctrl = s.ctrl := by rw [drawBytes_eq]
@[simp] theorem drawBytes_cfg (as : List Nat) (s : State) : (s.drawBytes as).cfg = s.cfg := by rw [drawBytes_eq]
@[simp] theorem drawBytes_srcAddr (as : List Nat) (s : State) : (s.drawBytes as).srcAddr = s.srcAddr := by rw [drawBytes_eq]
@[simp] theorem drawBytes_srcStride (as : List Nat) (s : State) : (s.drawBytes as).srcStride = s.srcStride := by rw [drawBytes_eq]
@[simp] theorem drawBytes_dstAddr (as : List Nat) (s : State) : (s.drawBytes as).dstAddr = s.dstAddr := by rw [drawBytes_eq]
@[simp] theorem drawBytes_dstStride (as : List Nat) (s : State) : (s.drawBytes as).dstStride = s.dstStride := by rw [drawBytes_eq]
@[simp] theorem drawBytes_width (as : List Nat) (s : State) : (s.drawBytes as).width = s.width := by rw [drawBytes_eq]
@[simp] theorem drawBytes_offs (as : List Nat) (s : State) : (s.drawBytes as).offs = s.offs := by rw [drawBytes_eq]
@[simp] theorem drawBytes_rotAddr (as : List Nat) (s : State) : (s.drawBytes as).rotAddr = s.rotAddr := by rw [drawBytes_eq]
@[simp] theorem drawBytes_rotCol (as : List Nat) (s : State) : (s.drawBytes as).rotCol = s.rotCol := by rw [drawBytes_eq]
@[simp] theorem drawBytes_lutAddr (as : List Nat) (s : State) : (s.drawBytes as).lutAddr = s.lutAddr := by rw [drawBytes_eq]
@[simp] theorem drawBytes_len (as : List Nat) (s : State) : (s.drawBytes as).len = s.len := by rw [drawBytes_eq]
@[simp] theorem drawBytes_resKind (as : List Nat) (s : State) : (s.drawBytes as).resKind = s.resKind := by rw [drawBytes_eq]
@[simp] theorem drawBytes_resLen (as : List Nat) (s : State) : (s.drawBytes as).resLen = s.resLen := by rw [drawBytes_eq]
@[simp] theorem drawBytes_dsize (as : List Nat) (s : State) : (s.drawBytes as).dsize = s.dsize := by rw [drawBytes_eq]
@[simp] theorem drawBytes_psize (as : List Nat) (s : State) : (s.drawBytes as).psize = s.psize := by rw [drawBytes_eq]
@[simp] theorem drawBytes_act (as : List Nat) (s : State) : (s.drawBytes as).act = s.act := by rw [drawBytes_eq]
@[simp] theorem drawBytes_masks (as : List Nat) (s : State) : (s.drawBytes as).masks = s.masks := by rw [drawBytes_eq]
@[simp] theorem drawBytes_packLen (as : List Nat) (s : State) : (s.drawBytes as).packLen = s.packLen := by rw [drawBytes_eq]
@[simp] theorem drawBytes_rotState (as : List Nat) (s : State) : (s.drawBytes as).rotState = s.rotState := by rw [drawBytes_eq]
@[simp] theorem drawBytes_seed0 (as : List Nat) (s : State) : (s.drawBytes as).seed0 = s.seed0 := by rw [drawBytes_eq]
@[simp] theorem drawBytes_seed1 (as : List Nat) (s : State) : (s.drawBytes as).seed1 = s.seed1 := by rw [drawBytes_eq]
@[simp] theorem drawBytes_seed2 (as : List Nat) (s : State) : (s.drawBytes as).seed2 = s.seed2 := by rw [drawBytes_eq]
@[simp] theorem drawBytes_host (as : List Nat) (s : State) : (s.drawBytes as).host = s.host := by rw [drawBytes_eq]
@[simp] theorem drawBytes_received (as : List Nat) (s : State) : (s.drawBytes as).received = s.received := by rw [drawBytes_eq]
@[simp] theorem drawBytes_schedule (as : List Nat) (s : State) : (s.drawBytes as).schedule = s.schedule := by rw [drawBytes_eq]
@[simp] theorem drawBytes_delay (as : List Nat) (s : State) : (s.drawBytes as).delay = s.delay := by rw [drawBytes_eq]
@[simp] theorem drawBytes_raced (as : List Nat) (s : State) : (s.drawBytes as).raced = s.raced := by rw [drawBytes_eq]
@[simp] theorem drawBytes_draws (as : List Nat) (s : State) : (s.drawBytes as).draws = s.draws + as.length := by rw [drawBytes_eq]
@[simp] theorem drawBytes_rotFirst (as : List Nat) (s : State) : (s.drawBytes as).rotFirst = s.rotFirst := by rw [drawBytes_eq]

/-! #### The writes of a command -/

@[simp] theorem commit_params (s : State) (f : Footprint) : (s.commit f).params = s.params := by rw [commit_eq]
@[simp] theorem commit_cmd (s : State) (f : Footprint) : (s.commit f).cmd = s.cmd := by rw [commit_eq]
@[simp] theorem commit_status (s : State) (f : Footprint) : (s.commit f).status = s.status := by rw [commit_eq]
@[simp] theorem commit_ctrl (s : State) (f : Footprint) : (s.commit f).ctrl = s.ctrl := by rw [commit_eq]
@[simp] theorem commit_cfg (s : State) (f : Footprint) : (s.commit f).cfg = s.cfg := by rw [commit_eq]
@[simp] theorem commit_srcAddr (s : State) (f : Footprint) : (s.commit f).srcAddr = s.srcAddr := by rw [commit_eq]
@[simp] theorem commit_srcStride (s : State) (f : Footprint) : (s.commit f).srcStride = s.srcStride := by rw [commit_eq]
@[simp] theorem commit_dstAddr (s : State) (f : Footprint) : (s.commit f).dstAddr = s.dstAddr := by rw [commit_eq]
@[simp] theorem commit_dstStride (s : State) (f : Footprint) : (s.commit f).dstStride = s.dstStride := by rw [commit_eq]
@[simp] theorem commit_width (s : State) (f : Footprint) : (s.commit f).width = s.width := by rw [commit_eq]
@[simp] theorem commit_offs (s : State) (f : Footprint) : (s.commit f).offs = s.offs := by rw [commit_eq]
@[simp] theorem commit_rotAddr (s : State) (f : Footprint) : (s.commit f).rotAddr = s.rotAddr := by rw [commit_eq]
@[simp] theorem commit_rotCol (s : State) (f : Footprint) : (s.commit f).rotCol = s.rotCol := by rw [commit_eq]
@[simp] theorem commit_lutAddr (s : State) (f : Footprint) : (s.commit f).lutAddr = s.lutAddr := by rw [commit_eq]
@[simp] theorem commit_len (s : State) (f : Footprint) : (s.commit f).len = s.len := by rw [commit_eq]
@[simp] theorem commit_resKind (s : State) (f : Footprint) : (s.commit f).resKind = s.resKind := by rw [commit_eq]
@[simp] theorem commit_resLen (s : State) (f : Footprint) : (s.commit f).resLen = s.resLen := by rw [commit_eq]
@[simp] theorem commit_dsize (s : State) (f : Footprint) : (s.commit f).dsize = s.dsize := by rw [commit_eq]
@[simp] theorem commit_psize (s : State) (f : Footprint) : (s.commit f).psize = s.psize := by rw [commit_eq]
@[simp] theorem commit_act (s : State) (f : Footprint) : (s.commit f).act = s.act := by rw [commit_eq]
@[simp] theorem commit_masks (s : State) (f : Footprint) : (s.commit f).masks = s.masks := by rw [commit_eq]
@[simp] theorem commit_packLen (s : State) (f : Footprint) : (s.commit f).packLen = s.packLen := by rw [commit_eq]
@[simp] theorem commit_rotState (s : State) (f : Footprint) : (s.commit f).rotState = s.rotState := by rw [commit_eq]
@[simp] theorem commit_seed0 (s : State) (f : Footprint) : (s.commit f).seed0 = s.seed0 := by rw [commit_eq]
@[simp] theorem commit_seed1 (s : State) (f : Footprint) : (s.commit f).seed1 = s.seed1 := by rw [commit_eq]
@[simp] theorem commit_seed2 (s : State) (f : Footprint) : (s.commit f).seed2 = s.seed2 := by rw [commit_eq]
@[simp] theorem commit_host (s : State) (f : Footprint) : (s.commit f).host = s.host := by rw [commit_eq]
@[simp] theorem commit_received (s : State) (f : Footprint) : (s.commit f).received = s.received := by rw [commit_eq]
@[simp] theorem commit_schedule (s : State) (f : Footprint) : (s.commit f).schedule = s.schedule := by rw [commit_eq]
@[simp] theorem commit_delay (s : State) (f : Footprint) : (s.commit f).delay = s.delay := by rw [commit_eq]
@[simp] theorem commit_raced (s : State) (f : Footprint) : (s.commit f).raced = s.raced := by rw [commit_eq]
@[simp] theorem commit_rotFirst (s : State) (f : Footprint) : (s.commit f).rotFirst = s.rotFirst := by rw [commit_eq]

/-! #### The seed row of a COMPRESS -/

@[simp] theorem updateSeed_params (s : State) (p : BitVec 2) (new : Option (List Byte)) : (s.updateSeed p new).params = s.params := by rw [updateSeed_eq]
@[simp] theorem updateSeed_cmd (s : State) (p : BitVec 2) (new : Option (List Byte)) : (s.updateSeed p new).cmd = s.cmd := by rw [updateSeed_eq]
@[simp] theorem updateSeed_status (s : State) (p : BitVec 2) (new : Option (List Byte)) : (s.updateSeed p new).status = s.status := by rw [updateSeed_eq]
@[simp] theorem updateSeed_ctrl (s : State) (p : BitVec 2) (new : Option (List Byte)) : (s.updateSeed p new).ctrl = s.ctrl := by rw [updateSeed_eq]
@[simp] theorem updateSeed_cfg (s : State) (p : BitVec 2) (new : Option (List Byte)) : (s.updateSeed p new).cfg = s.cfg := by rw [updateSeed_eq]
@[simp] theorem updateSeed_srcAddr (s : State) (p : BitVec 2) (new : Option (List Byte)) : (s.updateSeed p new).srcAddr = s.srcAddr := by rw [updateSeed_eq]
@[simp] theorem updateSeed_srcStride (s : State) (p : BitVec 2) (new : Option (List Byte)) : (s.updateSeed p new).srcStride = s.srcStride := by rw [updateSeed_eq]
@[simp] theorem updateSeed_dstAddr (s : State) (p : BitVec 2) (new : Option (List Byte)) : (s.updateSeed p new).dstAddr = s.dstAddr := by rw [updateSeed_eq]
@[simp] theorem updateSeed_dstStride (s : State) (p : BitVec 2) (new : Option (List Byte)) : (s.updateSeed p new).dstStride = s.dstStride := by rw [updateSeed_eq]
@[simp] theorem updateSeed_width (s : State) (p : BitVec 2) (new : Option (List Byte)) : (s.updateSeed p new).width = s.width := by rw [updateSeed_eq]
@[simp] theorem updateSeed_offs (s : State) (p : BitVec 2) (new : Option (List Byte)) : (s.updateSeed p new).offs = s.offs := by rw [updateSeed_eq]
@[simp] theorem updateSeed_rotAddr (s : State) (p : BitVec 2) (new : Option (List Byte)) : (s.updateSeed p new).rotAddr = s.rotAddr := by rw [updateSeed_eq]
@[simp] theorem updateSeed_rotCol (s : State) (p : BitVec 2) (new : Option (List Byte)) : (s.updateSeed p new).rotCol = s.rotCol := by rw [updateSeed_eq]
@[simp] theorem updateSeed_lutAddr (s : State) (p : BitVec 2) (new : Option (List Byte)) : (s.updateSeed p new).lutAddr = s.lutAddr := by rw [updateSeed_eq]
@[simp] theorem updateSeed_len (s : State) (p : BitVec 2) (new : Option (List Byte)) : (s.updateSeed p new).len = s.len := by rw [updateSeed_eq]
@[simp] theorem updateSeed_resKind (s : State) (p : BitVec 2) (new : Option (List Byte)) : (s.updateSeed p new).resKind = s.resKind := by rw [updateSeed_eq]
@[simp] theorem updateSeed_resLen (s : State) (p : BitVec 2) (new : Option (List Byte)) : (s.updateSeed p new).resLen = s.resLen := by rw [updateSeed_eq]
@[simp] theorem updateSeed_dsize (s : State) (p : BitVec 2) (new : Option (List Byte)) : (s.updateSeed p new).dsize = s.dsize := by rw [updateSeed_eq]
@[simp] theorem updateSeed_psize (s : State) (p : BitVec 2) (new : Option (List Byte)) : (s.updateSeed p new).psize = s.psize := by rw [updateSeed_eq]
@[simp] theorem updateSeed_act (s : State) (p : BitVec 2) (new : Option (List Byte)) : (s.updateSeed p new).act = s.act := by rw [updateSeed_eq]
@[simp] theorem updateSeed_masks (s : State) (p : BitVec 2) (new : Option (List Byte)) : (s.updateSeed p new).masks = s.masks := by rw [updateSeed_eq]
@[simp] theorem updateSeed_packLen (s : State) (p : BitVec 2) (new : Option (List Byte)) : (s.updateSeed p new).packLen = s.packLen := by rw [updateSeed_eq]
@[simp] theorem updateSeed_rotState (s : State) (p : BitVec 2) (new : Option (List Byte)) : (s.updateSeed p new).rotState = s.rotState := by rw [updateSeed_eq]
@[simp] theorem updateSeed_mem (s : State) (p : BitVec 2) (new : Option (List Byte)) : (s.updateSeed p new).mem = s.mem := by rw [updateSeed_eq]
@[simp] theorem updateSeed_host (s : State) (p : BitVec 2) (new : Option (List Byte)) : (s.updateSeed p new).host = s.host := by rw [updateSeed_eq]
@[simp] theorem updateSeed_received (s : State) (p : BitVec 2) (new : Option (List Byte)) : (s.updateSeed p new).received = s.received := by rw [updateSeed_eq]
@[simp] theorem updateSeed_schedule (s : State) (p : BitVec 2) (new : Option (List Byte)) : (s.updateSeed p new).schedule = s.schedule := by rw [updateSeed_eq]
@[simp] theorem updateSeed_delay (s : State) (p : BitVec 2) (new : Option (List Byte)) : (s.updateSeed p new).delay = s.delay := by rw [updateSeed_eq]
@[simp] theorem updateSeed_raced (s : State) (p : BitVec 2) (new : Option (List Byte)) : (s.updateSeed p new).raced = s.raced := by rw [updateSeed_eq]
@[simp] theorem updateSeed_draws (s : State) (p : BitVec 2) (new : Option (List Byte)) : (s.updateSeed p new).draws = s.draws := by rw [updateSeed_eq]
@[simp] theorem updateSeed_rotFirst (s : State) (p : BitVec 2) (new : Option (List Byte)) : (s.updateSeed p new).rotFirst = s.rotFirst := by rw [updateSeed_eq]

end Sys2Proof.Machine
end

