-- ==== Sys2Proof/Laws/Flags.lean ====
section
/-! SUPPORT. The laws of the status flags: what the end of an engine step, an error and the clearing of an error leave
in each field of STATUS, and what the fields of a ROT_STATE word are. -/

namespace Sys2Proof.Machine

/-! ### Single bits -/

/-- A bit of a word with one bit set to a given value. -/
theorem getLsbD_setBit (v : Word) (n i : Nat) (b : Bool) (hn : n < 32) :
    (setBit v n b).getLsbD i = if i = n then b else v.getLsbD i := by
  unfold setBit
  by_cases hi : i < 32
  · cases b
    · simp only [Bool.false_eq_true, if_false, BitVec.getLsbD_and, BitVec.getLsbD_not, BitVec.getLsbD_shiftLeft, hi]
      by_cases h : i = n
      · subst h; simp
      · rw [if_neg h]
        by_cases h2 : i < n
        · simp [h2]
        · have : i - n ≠ 0 := by omega
          simp [this]
    · simp only [if_true, BitVec.getLsbD_or, BitVec.getLsbD_shiftLeft, hi]
      by_cases h : i = n
      · subst h; simp
      · rw [if_neg h]
        by_cases h2 : i < n
        · simp [h2]
        · have : i - n ≠ 0 := by omega
          simp [this]
  · have h1 : i ≠ n := by omega
    rw [if_neg h1, BitVec.getLsbD_of_ge _ _ (by omega), BitVec.getLsbD_of_ge _ _ (by omega)]

/-- The bits of a STATUS word after an error. -/
theorem getLsbD_statusWithError (v : Word) (e : ErrorCode) (i : Nat) :
    (statusWithError v e).getLsbD i =
      if i = 3 then true else if 4 ≤ i ∧ i < 8 then e.code.getLsbD (i - 4) else v.getLsbD i := by
  by_cases hi : i < 32
  · unfold statusWithError
    simp only [BitVec.getLsbD_or, BitVec.getLsbD_and, getLsbD_setBit _ 3 _ _ (by decide : 3 < 32),
      BitVec.getLsbD_shiftLeft, BitVec.getLsbD_setWidth, hi]
    cases e <;> interval_cases i <;> simp [ErrorCode.code]
  · rw [BitVec.getLsbD_of_ge _ _ (by omega), if_neg (by omega), if_neg (by omega),
      BitVec.getLsbD_of_ge _ _ (by omega)]

/-- The bits of a STATUS word after the error is cleared. -/
theorem getLsbD_statusWithoutError (v : Word) (i : Nat) :
    (statusWithoutError v).getLsbD i = if 3 ≤ i ∧ i < 8 then false else v.getLsbD i := by
  by_cases hi : i < 32
  · unfold statusWithoutError
    simp only [BitVec.getLsbD_and, getLsbD_setBit _ 3 _ _ (by decide : 3 < 32)]
    interval_cases i <;> simp
  · rw [BitVec.getLsbD_of_ge _ _ (by omega), if_neg (by omega), BitVec.getLsbD_of_ge _ _ (by omega)]

/-- Every bit of STATUS at the end of an engine step. -/
theorem getLsbD_statusAfter (v : Word) (e : Ending) (i : Nat) :
    (statusAfter v e).getLsbD i =
      if i = 0 then false
      else if i = 2 then e == .cancelled
      else if i = 8 then e == .degraded
      else match e with
        | .error code => if i = 3 then true else if 4 ≤ i ∧ i < 8 then code.code.getLsbD (i - 4) else v.getLsbD i
        | .normal | .degraded | .cancelled => v.getLsbD i := by
  have hm : ∀ a b : Bool, ∀ n, (setBit (setBit v 2 a) 8 b).getLsbD n =
      if n = 8 then b else if n = 2 then a else v.getLsbD n := by
    intro a b n
    rw [getLsbD_setBit _ 8 _ _ (by decide), getLsbD_setBit _ 2 _ _ (by decide)]
  cases e <;>
    simp only [statusAfter, getLsbD_setBit _ 0 _ _ (by decide : 0 < 32), getLsbD_statusWithError, hm] <;>
    by_cases h0 : i = 0 <;> by_cases h2 : i = 2 <;> by_cases h8 : i = 8 <;> simp [h0, h2, h8]

/-! ### The fields of STATUS -/

/-- ERRCODE from the bits of a word. -/
theorem errCode_eq_of_bits (v : Word) (c : BitVec 4) (h : ∀ i < 4, v.getLsbD (4 + i) = c.getLsbD i) :
    v.extractLsb' 4 4 = c := by
  apply BitVec.eq_of_getLsbD_eq
  intro i hi
  rw [BitVec.getLsbD_extractLsb']
  simp [hi, h i hi]

/-- Words with the same bits from 9 up have the same reserved STATUS bits. -/
theorem reserved_eq_of_bits (v w : Word) (h : ∀ i, 9 ≤ i → v.getLsbD i = w.getLsbD i) :
    v &&& 0xFFFFFE00 = w &&& 0xFFFFFE00 := by
  apply BitVec.eq_of_getLsbD_eq
  intro i hi
  simp only [BitVec.getLsbD_and]
  by_cases h9 : 9 ≤ i
  · rw [h i h9]
  · interval_cases i <;> simp

/-- The fields of STATUS after a step that ends normally. -/
theorem endsNormally_finish (s t : State) (h : t.status = statusAfter s.status .normal) : EndsNormally s t := by
  refine ⟨?_, reserved_eq_of_bits _ _ ?_⟩
  · simp only [State.statusFields, State.busy, State.session, State.cancelled, State.err, State.errCode,
      State.degraded, h, getLsbD_statusAfter, Prod.mk.injEq]
    refine ⟨rfl, rfl, rfl, rfl, ?_, rfl⟩
    refine errCode_eq_of_bits _ _ (fun i hi => ?_)
    rw [getLsbD_statusAfter, BitVec.getLsbD_extractLsb']
    simp only [hi, decide_true, Bool.true_and]
    rw [if_neg (by omega), if_neg (by omega), if_neg (by omega)]
  · intro i hi
    rw [h, getLsbD_statusAfter, if_neg (by omega), if_neg (by omega), if_neg (by omega)]

/-- The fields of STATUS after a step that degrades. -/
theorem endsDegraded_endStep (s t : State) (h : t.status = statusAfter s.status .degraded) : EndsDegraded s t := by
  refine ⟨?_, reserved_eq_of_bits _ _ ?_⟩
  · simp only [State.statusFields, State.busy, State.session, State.cancelled, State.err, State.errCode,
      State.degraded, h, getLsbD_statusAfter, Prod.mk.injEq]
    refine ⟨rfl, rfl, rfl, rfl, ?_, rfl⟩
    refine errCode_eq_of_bits _ _ (fun i hi => ?_)
    rw [getLsbD_statusAfter, BitVec.getLsbD_extractLsb']
    simp only [hi, decide_true, Bool.true_and]
    rw [if_neg (by omega), if_neg (by omega), if_neg (by omega)]
  · intro i hi
    rw [h, getLsbD_statusAfter, if_neg (by omega), if_neg (by omega), if_neg (by omega)]

/-- The fields of STATUS after an error, which changes nothing else. -/
theorem endsWithError_raiseError (s : State) (e : ErrorCode) : EndsWithError s e.code (s.raiseError e) := by
  refine ⟨?_, reserved_eq_of_bits _ _ ?_, rfl⟩
  · simp only [State.statusFields, State.busy, State.session, State.cancelled, State.err, State.errCode,
      State.degraded, State.raiseError, State.endStep, getLsbD_statusAfter, Prod.mk.injEq]
    refine ⟨rfl, rfl, rfl, rfl, ?_, rfl⟩
    refine errCode_eq_of_bits _ _ (fun i hi => ?_)
    rw [getLsbD_statusAfter]
    simp only
    rw [if_neg (by omega), if_neg (by omega), if_neg (by omega), if_neg (by omega), if_pos (by omega)]
    congr 1
    omega
  · intro i hi
    simp only [State.raiseError, State.endStep, getLsbD_statusAfter]
    rw [if_neg (by omega), if_neg (by omega), if_neg (by omega), if_neg (by omega), if_neg (by omega)]

/-- The fields of STATUS after a cancelled command, which changes nothing else. -/
theorem endsCancelled_cancelCommand (s : State) : EndsCancelled s s.cancelCommand := by
  refine ⟨?_, reserved_eq_of_bits _ _ ?_, rfl⟩
  · simp only [State.statusFields, State.busy, State.session, State.cancelled, State.err, State.errCode,
      State.degraded, State.cancelCommand, State.endStep, getLsbD_statusAfter, Prod.mk.injEq]
    refine ⟨rfl, rfl, rfl, rfl, ?_, rfl⟩
    refine errCode_eq_of_bits _ _ (fun i hi => ?_)
    rw [getLsbD_statusAfter, BitVec.getLsbD_extractLsb']
    simp only [hi, decide_true, Bool.true_and]
    rw [if_neg (by omega), if_neg (by omega), if_neg (by omega)]
  · intro i hi
    simp only [State.cancelCommand, State.endStep, getLsbD_statusAfter]
    rw [if_neg (by omega), if_neg (by omega), if_neg (by omega)]

/-! ### ROT_STATE -/

/-- The fields of a ROT_STATE word built from fields that fit are those fields. -/
theorem ofWord_word (r : RotState) (hl : r.tpLeft < 16) (hs : r.tpSkip < 8) : RotState.ofWord r.word = r := by
  obtain ⟨l, k, b, v, e⟩ := r
  simp only at hl hs
  interval_cases l <;> interval_cases k <;> cases b <;> cases v <;> cases e <;> decide

/-- A ROT_STATE word built from fields has every reserved bit 0. -/
theorem word_reserved (r : RotState) : r.word &&& ~~~(Reg.fields .rotState) = 0 := by
  obtain ⟨l, k, b, v, e⟩ := r
  have h : RotState.word ⟨l, k, b, v, e⟩ = RotState.word ⟨l % 16, k % 8, b, v, e⟩ := by
    simp only [RotState.word]
    have h1 : BitVec.ofNat 4 l = BitVec.ofNat 4 (l % 16) := BitVec.eq_of_toNat_eq (by simp)
    have h2 : BitVec.ofNat 3 k = BitVec.ofNat 3 (k % 8) := BitVec.eq_of_toNat_eq (by simp)
    rw [h1, h2]
  rw [h]
  have hl : l % 16 < 16 := Nat.mod_lt _ (by decide)
  have hk : k % 8 < 8 := Nat.mod_lt _ (by decide)
  generalize l % 16 = l at *
  generalize k % 8 = k at *
  interval_cases l <;> interval_cases k <;> cases b <;> cases v <;> cases e <;> decide

end Sys2Proof.Machine
end

