-- ==== Sys2Proof/Laws/Memory.lean ====
section
/-! SUPPORT. The laws of buffer memory: what a read gives after a write, and that every memory operation keeps the
canonical form and the bound of the buffer. -/

namespace Sys2Proof.Machine

/-! ### Reading after writing -/

/-- A write gives the byte written, and leaves every other address as it was. -/
theorem lookup_write (m : Memory) (a b : Nat) (v : Byte) :
    Memory.lookup (Memory.write m a v) b = if b = a then some v else Memory.lookup m b := by
  induction m with
  | nil => simp only [Memory.write, Memory.lookup]
  | cons c m ih =>
    obtain ⟨x, w⟩ := c
    by_cases h1 : a < x
    · simp [Memory.write, Memory.lookup, h1]
    · by_cases h2 : a = x
      · subst h2
        by_cases hb : b = a <;> simp [Memory.write, Memory.lookup, hb]
      · by_cases hb : b = x
        · subst hb
          simp [Memory.write, Memory.lookup, h1, h2, Ne.symm h2]
        · simp [Memory.write, Memory.lookup, h1, h2, hb, ih]

/-- A byte after a write: the byte written at its address, the old byte elsewhere. -/
@[simp] theorem byte_write (m : Memory) (a b : Nat) (v : Byte) :
    Memory.byte (Memory.write m a v) b = if b = a then v else Memory.byte m b := by
  unfold Memory.byte
  rw [lookup_write]
  split <;> rfl

/-- A byte that no write of a list addresses is as it was. -/
theorem byte_writeAll_of_not_mem (cs : List Host.Cell) (m : Memory) (a : Nat) (h : a ∉ cs.map (fun c => c.1)) :
    Memory.byte (Memory.writeAll m cs) a = Memory.byte m a := by
  induction cs generalizing m with
  | nil => rfl
  | cons c cs ih =>
    simp only [List.map_cons, List.mem_cons, not_or] at h
    rw [Memory.writeAll, ih _ h.2, byte_write, if_neg h.1]

/-- Among writes to distinct addresses, each address holds the byte written to it. -/
theorem byte_writeAll_of_mem (cs : List Host.Cell) (m : Memory) (a : Nat) (v : Byte)
    (hd : (cs.map (fun c => c.1)).Nodup) (h : (a, v) ∈ cs) : Memory.byte (Memory.writeAll m cs) a = v := by
  induction cs generalizing m with
  | nil => cases h
  | cons c cs ih =>
    simp only [List.map_cons, List.nodup_cons] at hd
    rw [Memory.writeAll]
    rcases List.mem_cons.mp h with rfl | h
    · rw [byte_writeAll_of_not_mem _ _ _ hd.1, byte_write, if_pos rfl]
    · exact ih _ hd.2 h

/-- Writes in two parts. -/
theorem writeAll_append (cs ds : List Host.Cell) (m : Memory) :
    Memory.writeAll m (cs ++ ds) = Memory.writeAll (Memory.writeAll m cs) ds := by
  induction cs generalizing m with
  | nil => rfl
  | cons c cs ih => exact ih _

/-- A byte that is not among the addresses drawn is as it was. -/
theorem byte_drawBytes_of_not_mem (as : List Nat) (s : State) (a : Nat) (h : a ∉ as) :
    Memory.byte (s.drawBytes as).mem a = Memory.byte s.mem a := by
  induction as generalizing s with
  | nil => rfl
  | cons b as ih =>
    simp only [List.mem_cons, not_or] at h
    rw [State.drawBytes, ih _ h.2]
    exact (byte_write _ _ _ _).trans (if_neg h.1)

/-- A byte among the addresses drawn holds one of the free values drawn. -/
theorem byte_drawBytes_of_mem (as : List Nat) (s : State) (a : Nat) (h : a ∈ as) :
    ∃ n, s.draws ≤ n ∧ n < (s.drawBytes as).draws ∧ Memory.byte (s.drawBytes as).mem a = Config.freeByte n := by
  induction as generalizing s with
  | nil => cases h
  | cons b as ih =>
    by_cases ha : a ∈ as
    · obtain ⟨n, h1, h2, h3⟩ := ih { s with mem := Memory.write s.mem b (Config.freeByte s.draws)
                                            draws := s.draws + 1 } ha
      exact ⟨n, Nat.le_of_succ_le h1, h2, h3⟩
    · obtain rfl : a = b := (List.mem_cons.mp h).resolve_right ha
      refine ⟨s.draws, le_refl _, ?_, ?_⟩
      · simp
      · rw [State.drawBytes, byte_drawBytes_of_not_mem _ _ _ ha]
        exact (byte_write _ _ _ _).trans (if_pos rfl)

/-- A byte that a command does not write is as it was, whether or not the command overlaps or raced. -/
theorem byte_commit_of_not_mem (s : State) (f : Footprint) (a : Nat) (h : a ∉ f.written) :
    Memory.byte (s.commit f).mem a = Memory.byte s.mem a := by
  unfold State.commit
  split
  · exact byte_drawBytes_of_not_mem _ _ _ h
  · exact byte_writeAll_of_not_mem _ _ _ h

/-- A command that neither overlaps nor raced writes its bytes. -/
theorem commit_of_disjoint (s : State) (f : Footprint) (ho : f.overlaps = false) (hr : s.raced = []) :
    s.commit f = { s with mem := Memory.writeAll s.mem f.writes } := by
  simp [State.commit, ho, hr]

/-- A command that overlaps or raced leaves a free value, drawn in this step, in every byte it writes. -/
theorem byte_commit_of_free (s : State) (f : Footprint) (a : Nat) (hf : f.overlaps = true ∨ s.raced ≠ [])
    (h : a ∈ f.written) :
    ∃ n, s.draws ≤ n ∧ n < (s.commit f).draws ∧ Memory.byte (s.commit f).mem a = Config.freeByte n := by
  have hc : s.commit f = s.drawBytes f.written := by
    unfold State.commit
    rw [if_pos]
    rcases hf with h1 | h1
    · simp [h1]
    · cases hr : s.raced with
      | nil => exact absurd hr h1
      | cons b bs => simp
  rw [hc]
  exact byte_drawBytes_of_mem _ _ _ h

/-- Every address listed after the first is above it. -/
theorem lookup_below_head (m : Memory) (a b : Nat) (v : Byte) (h : Memory.wf ((a, v) :: m) = true) (hb : b < a) :
    Memory.lookup m b = none := by
  induction m generalizing a v with
  | nil => rfl
  | cons c m ih =>
    obtain ⟨x, w⟩ := c
    simp only [Memory.wf, Bool.and_eq_true, decide_eq_true_eq] at h
    simp only [Memory.lookup]
    rw [if_neg (by omega), ih x w h.2 (by omega)]

/-! ### The canonical form -/

/-- The rest of a canonical memory is canonical. -/
theorem wf_tail {c : Host.Cell} {m : Memory} (h : Memory.wf (c :: m) = true) : Memory.wf m = true := by
  cases m with
  | nil => rfl
  | cons d m => simp only [Memory.wf, Bool.and_eq_true] at h; exact h.2

/-- A write keeps the canonical form, and does not move the first address below both. -/
theorem wf_write_above (m : Memory) (lo a : Nat) (u v : Byte) (h : Memory.wf ((lo, u) :: m) = true) (ha : lo < a) :
    Memory.wf ((lo, u) :: Memory.write m a v) = true := by
  induction m generalizing lo u with
  | nil => simpa [Memory.write, Memory.wf] using ha
  | cons c m ih =>
    obtain ⟨x, w⟩ := c
    have hx : lo < x := by
      simp only [Memory.wf, Bool.and_eq_true, decide_eq_true_eq] at h; exact h.1
    have hm := wf_tail h
    simp only [Memory.write]
    split_ifs with h1 h2
    · simp only [Memory.wf, Bool.and_eq_true, decide_eq_true_eq]
      exact ⟨ha, h1, hm⟩
    · subst h2
      cases m with
      | nil => simpa [Memory.wf] using ha
      | cons d m => simp only [Memory.wf, Bool.and_eq_true, decide_eq_true_eq] at hm ⊢; exact ⟨ha, hm⟩
    · have := ih x w hm (by omega)
      simp only [Memory.wf, Bool.and_eq_true, decide_eq_true_eq]
      exact ⟨hx, this⟩

/-- A write keeps the canonical form. -/
theorem wf_write (m : Memory) (a : Nat) (v : Byte) (h : Memory.wf m = true) :
    Memory.wf (Memory.write m a v) = true := by
  cases m with
  | nil => rfl
  | cons c m =>
    obtain ⟨x, w⟩ := c
    simp only [Memory.write]
    split_ifs with h1 h2
    · simp only [Memory.wf, Bool.and_eq_true, decide_eq_true_eq]; exact ⟨h1, h⟩
    · subst h2
      cases m with
      | nil => rfl
      | cons d m => simpa only [Memory.wf] using h
    · exact wf_write_above m x a w v h (by omega)

/-- Writes in order keep the canonical form. -/
theorem wf_writeAll (cs : List Host.Cell) (m : Memory) (h : Memory.wf m = true) :
    Memory.wf (Memory.writeAll m cs) = true := by
  induction cs generalizing m with
  | nil => exact h
  | cons c cs ih => exact ih _ (wf_write m c.1 c.2 h)

/-- Free bytes keep the canonical form. -/
theorem wf_drawBytes (as : List Nat) (s : State) (h : Memory.wf s.mem = true) :
    Memory.wf (s.drawBytes as).mem = true := by
  induction as generalizing s with
  | nil => exact h
  | cons a as ih => exact ih _ (wf_write _ _ _ h)

/-- The writes of a command keep the canonical form. -/
theorem wf_commit (s : State) (f : Footprint) (h : Memory.wf s.mem = true) :
    Memory.wf (s.commit f).mem = true := by
  unfold State.commit
  split
  · exact wf_drawBytes _ _ h
  · exact wf_writeAll _ _ h

/-! ### The bound of the buffer -/

/-- A write below the bound keeps every listed address below it. -/
theorem within_write (buf : Nat) (m : Memory) (a : Nat) (v : Byte) (h : Memory.within buf m = true) (ha : a < buf) :
    Memory.within buf (Memory.write m a v) = true := by
  induction m with
  | nil => simpa [Memory.write, Memory.within] using ha
  | cons c m ih =>
    obtain ⟨x, w⟩ := c
    simp only [Memory.within, List.all_cons, Bool.and_eq_true, decide_eq_true_eq] at h ih ⊢
    simp only [Memory.write]
    split_ifs with h1 h2
    · simp [ha, h]
    · simp [ha, h]
    · simp only [List.all_cons, Bool.and_eq_true, decide_eq_true_eq]; exact ⟨h.1, ih h.2⟩

/-- Writes below the bound keep every listed address below it. -/
theorem within_writeAll (buf : Nat) (cs : List Host.Cell) (m : Memory) (h : Memory.within buf m = true)
    (hc : ∀ c ∈ cs, c.1 < buf) : Memory.within buf (Memory.writeAll m cs) = true := by
  induction cs generalizing m with
  | nil => exact h
  | cons c cs ih =>
    exact ih _ (within_write buf m c.1 c.2 h (hc c (by simp))) (fun d hd => hc d (by simp [hd]))

/-- Free bytes below the bound keep every listed address below it. -/
theorem within_drawBytes (buf : Nat) (as : List Nat) (s : State) (h : Memory.within buf s.mem = true)
    (ha : ∀ a ∈ as, a < buf) : Memory.within buf (s.drawBytes as).mem = true := by
  induction as generalizing s with
  | nil => exact h
  | cons a as ih =>
    exact ih _ (within_write buf s.mem a _ h (ha a (by simp))) (fun b hb => ha b (by simp [hb]))

/-- The writes of a command below the bound keep every listed address below it. -/
theorem within_commit (buf : Nat) (s : State) (f : Footprint) (h : Memory.within buf s.mem = true)
    (hf : ∀ a ∈ f.written, a < buf) : Memory.within buf (s.commit f).mem = true := by
  unfold State.commit
  split
  · exact within_drawBytes buf _ _ h hf
  · refine within_writeAll buf _ _ h (fun c hc => hf c.1 ?_)
    exact List.mem_map_of_mem hc

end Sys2Proof.Machine
end

