-- ==== Sys2Proof/Laws/Rows.lean ====
section
/-! SUPPORT. The laws of address ranges, of rows placed in memory, and of pixels packed into bytes. -/

namespace Sys2Proof.Machine

/-! ### Sizes and ranges -/

theorem ceilDiv_eight (n : Nat) : ceilDiv n 8 = (n + 7) / 8 := by unfold ceilDiv; omega

theorem ceilDiv_two (n : Nat) : ceilDiv n 2 = (n + 1) / 2 := by unfold ceilDiv; omega

/-- The range check is the check of every address. -/
theorem fits_iff (buf a n : Nat) : fits buf a n = true ↔ ∀ i < n, a + i < buf := by
  simp only [fits, Bool.or_eq_true, beq_iff_eq, decide_eq_true_eq]
  constructor
  · rintro (rfl | h) i hi <;> omega
  · intro h
    by_cases hn : n = 0
    · exact .inl hn
    · exact .inr (by have := h (n - 1) (by omega); omega)

/-- The strided check is the check of every address. -/
theorem fitsStrided_iff (buf a stride n : Nat) : fitsStrided buf a stride n = true ↔ ∀ j < n, a + j * stride < buf := by
  simp only [fitsStrided, Bool.or_eq_true, beq_iff_eq, decide_eq_true_eq]
  constructor
  · rintro (rfl | h) j hj
    · omega
    · have : j * stride ≤ (n - 1) * stride := Nat.mul_le_mul_right _ (by omega)
      omega
  · intro h
    by_cases hn : n = 0
    · exact .inl hn
    · exact .inr (h (n - 1) (by omega))

/-- The check of several rows is the check of every address. -/
theorem fitsRows_iff (buf a stride rows n : Nat) :
    fitsRows buf a stride rows n = true ↔ ∀ k < rows, ∀ i < n, a + k * stride + i < buf := by
  simp only [fitsRows, Bool.or_eq_true, beq_iff_eq, decide_eq_true_eq]
  constructor
  · rintro ((rfl | rfl) | h) k hk i hi
    · omega
    · omega
    · have : k * stride ≤ (rows - 1) * stride := Nat.mul_le_mul_right _ (by omega)
      omega
  · intro h
    by_cases hr : rows = 0
    · exact .inl (.inl hr)
    by_cases hn : n = 0
    · exact .inl (.inr hn)
    exact .inr (h (rows - 1) (by omega) (n - 1) (by omega))

@[simp] theorem length_addresses (a n : Nat) : (addresses a n).length = n := by simp [addresses]

theorem mem_addresses (a n x : Nat) : x ∈ addresses a n ↔ ∃ i < n, x = a + i := by
  simp only [addresses, List.mem_map, List.mem_range, eq_comm]

theorem mem_stridedAddresses (a stride n x : Nat) :
    x ∈ stridedAddresses a stride n ↔ ∃ j < n, x = a + j * stride := by
  simp only [stridedAddresses, List.mem_map, List.mem_range, eq_comm]

/-- Byte `j` of the bytes read from a range. -/
theorem getD_bytes_addresses (m : Memory) (a n j : Nat) :
    (Memory.bytes m (addresses a n)).getD j 0 = if j < n then Memory.byte m (a + j) else 0 := by
  simp only [Memory.bytes, addresses, List.getD_eq_getElem?_getD]
  by_cases h : j < n <;> simp [h]

/-- Byte `j` of the bytes read with a stride. -/
theorem getD_bytes_strided (m : Memory) (a stride n j : Nat) :
    (Memory.bytes m (stridedAddresses a stride n)).getD j 0 =
      if j < n then Memory.byte m (a + j * stride) else 0 := by
  simp only [Memory.bytes, stridedAddresses, List.getD_eq_getElem?_getD]
  by_cases h : j < n <;> simp [h]

/-! ### Rows of writes -/

/-- The addresses of a row of writes. -/
theorem map_fst_rowCells (a : Nat) (r : List Byte) : (rowCells a r).map (fun c => c.1) = addresses a r.length := by
  induction r generalizing a with
  | nil => rfl
  | cons b bs ih =>
    simp only [rowCells, List.map_cons, ih, addresses, List.length_cons, List.range_succ_eq_map, List.map_map]
    simp only [Nat.add_zero, List.cons.injEq, true_and]
    apply List.map_congr_left
    intro i _
    simp only [Function.comp]
    omega

/-- A row writes its byte `i` at `a + i`. -/
theorem mem_rowCells (a : Nat) (r : List Byte) (i : Nat) (hi : i < r.length) :
    (a + i, r.getD i 0) ∈ rowCells a r := by
  induction r generalizing a i with
  | nil => simp at hi
  | cons b bs ih =>
    cases i with
    | zero => simp [rowCells]
    | succ i =>
      have := ih (a + 1) i (by simpa using hi)
      simp only [rowCells, List.mem_cons, List.getD_cons_succ]
      right
      rwa [show a + (i + 1) = a + 1 + i by omega]

/-- The addresses of a range do not repeat. -/
theorem nodup_addresses (a n : Nat) : (addresses a n).Nodup :=
  List.nodup_range.map (fun _ _ h => by simpa using h)

/-- What a row of writes leaves in memory. -/
theorem byte_writeAll_rowCells (m : Memory) (a x : Nat) (r : List Byte) :
    Memory.byte (Memory.writeAll m (rowCells a r)) x =
      if a ≤ x ∧ x < a + r.length then r.getD (x - a) 0 else Memory.byte m x := by
  split
  · rename_i h
    refine byte_writeAll_of_mem _ _ _ _ ?_ ?_
    · rw [map_fst_rowCells]; exact nodup_addresses _ _
    · have := mem_rowCells a r (x - a) (by omega)
      rwa [show a + (x - a) = x by omega] at this
  · rename_i h
    apply byte_writeAll_of_not_mem
    rw [map_fst_rowCells, mem_addresses]
    rintro ⟨i, hi, rfl⟩
    omega

/-- The addresses of several rows of equal length. -/
theorem mem_map_fst_rowsCells (a stride n : Nat) (rs : List (List Byte)) (hl : ∀ r ∈ rs, r.length = n) (x : Nat) :
    x ∈ (rowsCells a stride rs).map (fun c => c.1) ↔ ∃ k < rs.length, ∃ i < n, x = a + k * stride + i := by
  induction rs generalizing a with
  | nil => simp [rowsCells]
  | cons r rs ih =>
    have hr : r.length = n := hl r (by simp)
    rw [rowsCells, List.map_append, List.mem_append, ih (a + stride) (fun r' h => hl r' (by simp [h])),
      map_fst_rowCells, mem_addresses, hr]
    constructor
    · rintro (⟨i, hi, rfl⟩ | ⟨k, hk, i, hi, rfl⟩)
      · exact ⟨0, by simp, i, hi, by simp⟩
      · exact ⟨k + 1, by simpa using hk, i, hi, by rw [Nat.add_mul]; omega⟩
    · rintro ⟨k, hk, i, hi, rfl⟩
      cases k with
      | zero => exact .inl ⟨i, hi, by simp⟩
      | succ k => exact .inr ⟨k, by simpa using hk, i, hi, by rw [Nat.add_mul]; omega⟩

/-- What rows of writes that do not overlap leave in memory: byte `i` of row `k`. -/
theorem byte_writeAll_rowsCells (m : Memory) (a stride n : Nat) (rs : List (List Byte))
    (hl : ∀ r ∈ rs, r.length = n) (hs : n ≤ stride) (k i : Nat) (hk : k < rs.length) (hi : i < n) :
    Memory.byte (Memory.writeAll m (rowsCells a stride rs)) (a + k * stride + i) = (rs.getD k []).getD i 0 := by
  induction rs generalizing a k m with
  | nil => simp at hk
  | cons r rs ih =>
    have hr : r.length = n := hl r (by simp)
    rw [rowsCells, writeAll_append]
    cases k with
    | zero =>
      rw [byte_writeAll_of_not_mem, byte_writeAll_rowCells, if_pos (by omega)]
      · simp
      · rw [mem_map_fst_rowsCells _ _ n _ (fun r' h => hl r' (by simp [h]))]
        rintro ⟨k, -, i', -, h⟩
        have := Nat.zero_le (k * stride)
        omega
    | succ k =>
      have := ih (Memory.writeAll m (rowCells a r)) (a + stride) (fun r' h => hl r' (by simp [h])) k
        (by simpa using hk)
      rw [show a + (k + 1) * stride + i = a + stride + k * stride + i by rw [Nat.add_mul]; omega, this]
      simp

/-- The addresses of several rows that do not overlap do not repeat. -/
theorem nodup_map_fst_rowsCells (a stride n : Nat) (rs : List (List Byte)) (hl : ∀ r ∈ rs, r.length = n)
    (hs : n ≤ stride) : ((rowsCells a stride rs).map (fun c => c.1)).Nodup := by
  induction rs generalizing a with
  | nil => simp [rowsCells]
  | cons r rs ih =>
    have hr : r.length = n := hl r (by simp)
    have hl' : ∀ r' ∈ rs, r'.length = n := fun r' h => hl r' (by simp [h])
    rw [rowsCells, List.map_append, List.nodup_append, map_fst_rowCells]
    refine ⟨nodup_addresses _ _, ih (a + stride) hl', ?_⟩
    intro x hx y hy
    rw [mem_addresses] at hx
    rw [mem_map_fst_rowsCells _ _ n _ hl'] at hy
    obtain ⟨i, hi, rfl⟩ := hx
    obtain ⟨k, -, i', -, rfl⟩ := hy
    have := Nat.zero_le (k * stride)
    omega

/-- The test for a repeated address. -/
theorem hasRepeat_eq_false_iff (as : List Nat) : hasRepeat as = false ↔ as.Nodup := by
  induction as with
  | nil => simp [hasRepeat]
  | cons a as ih => simp [hasRepeat, ih]

/-- The addresses of a span. -/
theorem span_has_iff (r : Span) (a : Nat) : r.has a = true ↔ ∃ i < r.count, a = r.first + i := by
  simp only [Span.has, Bool.and_eq_true, decide_eq_true_eq]
  constructor
  · rintro ⟨h1, h2⟩
    exact ⟨a - r.first, by omega, by omega⟩
  · rintro ⟨i, hi, rfl⟩
    omega

/-- When a command overlaps (20_memory.md R73, 42_pack.md R176, 43_transpose.md R202; log 7). -/
theorem overlaps_iff (f : Footprint) : f.overlaps = true ↔
    (∃ a ∈ f.written, a ∈ f.reads) ∨
    (∃ a ∈ f.out.map (fun c => c.1), a ∈ f.row ∨ ∃ r ∈ f.region, r.has a = true) ∨
    ¬f.written.Nodup := by
  rw [← hasRepeat_eq_false_iff]
  simp only [Footprint.overlaps, Bool.or_eq_true, List.any_eq_true, List.contains_iff_mem, Bool.not_eq_false, or_assoc]

/-! ### Pixels packed into bytes -/

/-- Bit `7 - b` of a packed byte. -/
theorem getLsbD_byteOf (f : Nat → Bool) (b : Nat) (hb : b < 8) : (byteOf f).getLsbD (7 - b) = f b := by
  unfold byteOf
  simp only [List.foldl_cons, List.foldl_nil, BitVec.getLsbD_or, apply_ite (fun x : Byte => x.getLsbD (7 - b))]
  interval_cases b <;> simp

/-- Two bytes with the same pixels are equal. -/
theorem byte_eq_of_pixels (x y : Byte) (h : ∀ b < 8, x.getLsbD (7 - b) = y.getLsbD (7 - b)) : x = y := by
  apply BitVec.eq_of_getLsbD_eq
  intro i hi
  have := h (7 - i) (by omega)
  rwa [show 7 - (7 - i) = i by omega] at this

/-- A bit of an AND-mask marks a valid pixel. -/
theorem getLsbD_andMask (O W k b : Nat) (hb : b < 8) :
    (andMask O W k).getLsbD (7 - b) = (decide (O ≤ 8 * k + b) && decide (8 * k + b < O + W)) :=
  getLsbD_byteOf _ b hb

/-- A bit of a shifted byte. -/
theorem getLsbD_shiftedByte (src : List Byte) (S O k b : Nat) (hb : b < 8) :
    (shiftedByte src S O k).getLsbD (7 - b) = shiftedBit src S O (8 * k + b) :=
  getLsbD_byteOf _ b hb

/-- A bit of an inverted byte. -/
theorem getLsbD_invertByte (inv : Bool) (t : Byte) (b : Nat) (hb : b < 8) :
    (invertByte inv t).getLsbD (7 - b) = xor (t.getLsbD (7 - b)) inv := by
  unfold invertByte
  cases inv
  · simp
  · simp only [if_true, BitVec.getLsbD_xor]
    interval_cases b <;> simp

/-- A bit of a masked byte: the bit itself where the pixel is valid, MASKOR where it is not. -/
theorem getLsbD_maskByte (maskOr : Bool) (t : Byte) (O W k b : Nat) (hb : b < 8) :
    (maskByte maskOr t O W k).getLsbD (7 - b) =
      if O ≤ 8 * k + b ∧ 8 * k + b < O + W then t.getLsbD (7 - b) else maskOr := by
  unfold maskByte orMask
  cases maskOr
  · simp only [Bool.false_eq_true, if_false, BitVec.getLsbD_and, getLsbD_andMask _ _ _ _ hb]
    by_cases h1 : O ≤ 8 * k + b <;> by_cases h2 : 8 * k + b < O + W <;> simp [h1, h2]
  · simp only [if_true, BitVec.getLsbD_or, BitVec.getLsbD_not, getLsbD_andMask _ _ _ _ hb,
      show 7 - b < 8 by omega]
    by_cases h1 : O ≤ 8 * k + b <;> by_cases h2 : 8 * k + b < O + W <;> simp [h1, h2]

/-- Pixel `q` of a row made byte by byte. -/
theorem pixel1_map_range (f : Nat → Byte) (n q : Nat) (hq : q < 8 * n) :
    pixel1 ((List.range n).map f) q = (f (q / 8)).getLsbD (7 - q % 8) := by
  unfold pixel1
  have h : q / 8 < n := by omega
  simp [List.getD_eq_getElem?_getD, h]

/-- Pixel `q` of a row in memory is the pixel of the bytes read. -/
theorem pixel1_bytes (m : Memory) (a n q : Nat) (hq : q < 8 * n) :
    pixel1 (Memory.bytes m (addresses a n)) q = rowBit m a q := by
  unfold pixel1 rowBit
  rw [getD_bytes_addresses, if_pos (by omega)]

/-- Nibble `i` of a row in memory is the nibble of the bytes read. -/
theorem pixel4_bytes (m : Memory) (a n i : Nat) (hi : i < 2 * n) :
    pixel4 (Memory.bytes m (addresses a n)) i = rowNibble m a i := by
  unfold pixel4 rowNibble
  rw [getD_bytes_addresses, if_pos (show i / 2 < n by omega)]

/-! ### The transpose maps -/

@[simp] theorem length_rotatedRow (bpp4 : Bool) (col : List Byte) (k : Nat) :
    (rotatedRow bpp4 col k).length = rotatedBytes bpp4 col.length := by simp [rotatedRow]

@[simp] theorem length_transpose (bpp4 : Bool) (col : List Byte) : (transpose bpp4 col).length = groupSize bpp4 := by
  simp [transpose]

theorem length_of_mem_transpose (bpp4 : Bool) (col : List Byte) (r : List Byte) (h : r ∈ transpose bpp4 col) :
    r.length = rotatedBytes bpp4 col.length := by
  simp only [transpose, List.mem_map] at h
  obtain ⟨k, -, rfl⟩ := h
  simp

/-- Pixel `j` of a rotated row at 1bpp: bit `k` of source byte `j`, 0 past the column (43_transpose.md R193, R195). -/
theorem getLsbD_rotatedByte1 (col : List Byte) (k i b : Nat) (hb : b < 8) :
    (rotatedByte1 col k i).getLsbD (7 - b) = (col.getD (8 * i + b) 0).getLsbD k := getLsbD_byteOf _ b hb

/-- The nibbles of a byte made of two. -/
theorem nibbles_append (x y : BitVec 4) :
    ((x ++ y : BitVec (4 + 4)) : Byte).extractLsb' 4 4 = x ∧ ((x ++ y : BitVec (4 + 4)) : Byte).extractLsb' 0 4 = y := by
  constructor
  · apply BitVec.eq_of_getLsbD_eq
    intro i hi
    rw [BitVec.getLsbD_extractLsb', BitVec.getLsbD_append]
    simp [hi]
  · apply BitVec.eq_of_getLsbD_eq
    intro i hi
    rw [BitVec.getLsbD_extractLsb', BitVec.getLsbD_append]
    simp [hi]

end Sys2Proof.Machine
end

