-- ==== Sys2Proof/Laws/Commands.lean ====
section
/-! SUPPORT. What each plan of a command can be, said once (the inversion lemmas of the shared operations), and that a
command always has a next state. -/

namespace Sys2Proof.Machine

/-! ### Every command has a next state -/

/-- No command stops the engine (60_exceptions.md R220). -/
theorem exec_next (i : Instr) (s : State) : ∃ t, exec i s = .next t := by
  cases i <;> exact ⟨_, rfl⟩

/-- A command that may be cancelled, when CTRL.CANCEL = 0. -/
theorem unlessCancelled_of_not (s run : State) (h : s.cancelRequested = false) : s.unlessCancelled run = run := by
  simp [State.unlessCancelled, h]

/-- A command that may be cancelled, when CTRL.CANCEL = 1. -/
theorem unlessCancelled_of_requested (s run : State) (h : s.cancelRequested = true) :
    s.unlessCancelled run = s.cancelCommand := by
  simp [State.unlessCancelled, h]

/-! ### The column of a transpose -/

/-- The column check is the check of every source address (43_transpose.md R192). -/
theorem columnFits_iff (s : State) : s.columnFits = true ↔
    ∀ j < s.width.toNat, s.srcAddr.toNat + j * s.srcStride.toNat + s.rotCol.toNat < s.params.bufBytes := by
  unfold State.columnFits State.columnBase
  rw [fitsStrided_iff]
  constructor <;> intro h j hj <;> have := h j hj <;> omega

/-- The addresses of the column. -/
theorem mem_columnAddresses (s : State) (x : Nat) : x ∈ s.columnAddresses ↔
    ∃ j < s.width.toNat, x = s.srcAddr.toNat + j * s.srcStride.toNat + s.rotCol.toNat := by
  unfold State.columnAddresses State.columnBase
  rw [mem_stridedAddresses]
  constructor <;> rintro ⟨j, hj, rfl⟩ <;> exact ⟨j, hj, by omega⟩

@[simp] theorem length_column (s : State) : s.column.length = s.width.toNat := by
  simp [State.column, Memory.bytes, State.columnAddresses, stridedAddresses]

/-- Byte `j` of the column (43_transpose.md R192). -/
theorem getD_column (s : State) (j : Nat) : s.column.getD j 0 =
    if j < s.width.toNat then
      Memory.byte s.mem (s.srcAddr.toNat + j * s.srcStride.toNat + s.rotCol.toNat) else 0 := by
  unfold State.column State.columnAddresses State.columnBase
  rw [getD_bytes_strided]
  rw [show s.srcAddr.toNat + s.rotCol.toNat + j * s.srcStride.toNat =
    s.srcAddr.toNat + j * s.srcStride.toNat + s.rotCol.toNat by omega]

/-! ### TPOSE -/

/-- TPOSE's check passes exactly when every address of its column and of its rows is in the buffer memory. -/
theorem tposePlan_ok_iff (bpp4 : Bool) (s : State) (f : Footprint) : tposePlan bpp4 s = .ok f ↔
    (∀ j < s.width.toNat, s.srcAddr.toNat + j * s.srcStride.toNat + s.rotCol.toNat < s.params.bufBytes) ∧
    (∀ k < groupSize bpp4, ∀ i < rotatedBytes bpp4 s.width.toNat,
      s.dstAddr.toNat + k * s.dstStride.toNat + i < s.params.bufBytes) ∧
    f = { reads := s.columnAddresses
          out := rowsCells s.dstAddr.toNat s.dstStride.toNat (transpose bpp4 s.column) } := by
  unfold tposePlan
  rw [← columnFits_iff, ← fitsRows_iff]
  constructor
  · intro h
    split_ifs at h with hc
    rw [Bool.and_eq_true] at hc
    exact ⟨hc.1, hc.2, by cases h; rfl⟩
  · rintro ⟨h1, h2, rfl⟩
    rw [if_pos (by rw [h1, h2]; rfl)]

/-- The only error of TPOSE's plan is BOUNDS. -/
theorem tposePlan_error (bpp4 : Bool) (s : State) (e : ErrorCode) (h : tposePlan bpp4 s = .error e) : e = .bounds := by
  unfold tposePlan at h
  split_ifs at h
  cases h; rfl

/-- The addresses TPOSE writes. -/
theorem mem_written_tpose (bpp4 : Bool) (s : State) (f : Footprint) (h : tposePlan bpp4 s = .ok f) (x : Nat) :
    x ∈ f.written ↔ ∃ k < groupSize bpp4, ∃ i < rotatedBytes bpp4 s.width.toNat,
      x = s.dstAddr.toNat + k * s.dstStride.toNat + i := by
  obtain ⟨-, -, rfl⟩ := (tposePlan_ok_iff _ _ _).mp h
  simp only [Footprint.written, Footprint.writes, List.nil_append]
  rw [mem_map_fst_rowsCells _ _ (rotatedBytes bpp4 s.width.toNat)]
  · simp
  · intro r hr
    simpa using length_of_mem_transpose _ _ _ hr

/-! ### The rotation plan -/

/-- What `RotPlan` can answer (43_transpose.md R198 to R200). -/
theorem rotPlan_cases (bpp4 : Bool) (s : State) :
    ((s.rot.tpValid = false ∨ s.rot.tpBpp4 ≠ bpp4) ∧ rotPlan bpp4 s = .error .operand) ∨
    (s.rot.tpValid = true ∧ s.rot.tpBpp4 = bpp4 ∧ s.rot.tpLeft = 0 ∧ s.rot.tpEnd = true ∧
      rotPlan bpp4 s = .error .rotExhausted) ∨
    (s.rot.tpValid = true ∧ s.rot.tpBpp4 = bpp4 ∧ s.rot.tpLeft = 0 ∧ s.rot.tpEnd = false ∧
      rotPlan bpp4 s = .ok
        { transposes := true
          row := groupSize bpp4 - (groupSize bpp4 - s.rot.tpSkip)
          next := { tpLeft := groupSize bpp4 - s.rot.tpSkip - 1, tpSkip := 0, tpBpp4 := bpp4, tpValid := true
                    tpEnd := s.rotCol == 0 }
          nextCol := if s.rotCol = 0 then s.rotCol else s.rotCol - 1 }) ∨
    (s.rot.tpValid = true ∧ s.rot.tpBpp4 = bpp4 ∧ 0 < s.rot.tpLeft ∧
      rotPlan bpp4 s = .ok
        { transposes := false
          row := groupSize bpp4 - s.rot.tpLeft
          next := { s.rot with tpLeft := s.rot.tpLeft - 1 }
          nextCol := s.rotCol }) := by
  rcases hr : s.rot with ⟨l, k, b, v, e⟩
  unfold rotPlan
  simp only [hr]
  by_cases hb : b = bpp4
  · subst hb
    cases v
    · simp
    · by_cases hl : l = 0
      · subst hl
        cases e <;> simp
      · simp [hl, Nat.pos_of_ne_zero hl]
  · simp [hb]

/-- Where a pack takes its row from (42_pack.md R167, R175, R177). -/
theorem packSource_cases (rot bpp4 : Bool) (s : State) :
    (rot = false ∧ packSource rot bpp4 s = .ok { addr := s.srcAddr.toNat, plan := none }) ∨
    (rot = true ∧ ∃ p, rotPlan bpp4 s = .ok p ∧
      packSource rot bpp4 s = .ok { addr := p.rowAddr bpp4 s, plan := some p }) ∨
    (rot = true ∧ ∃ e, rotPlan bpp4 s = .error e ∧ packSource rot bpp4 s = .error e) := by
  unfold packSource
  cases rot
  · exact .inl ⟨rfl, rfl⟩
  · cases h : rotPlan bpp4 s with
    | error e => exact .inr (.inr ⟨rfl, e, rfl, by simp⟩)
    | ok p => exact .inr (.inl ⟨rfl, p, rfl, by simp⟩)

/-! ### The areas the output of a pack must stay clear of -/

/-- The rotation scratch (43_transpose.md R198, R202). -/
theorem scratchSpan_has_iff (s : State) (bpp4 : Bool) (a : Nat) :
    (s.scratchSpan bpp4).has a = true ↔ s.InScratch bpp4 a := span_has_iff _ _

/-- The source region of a rotated sequence (43_transpose.md R202; log 7). -/
theorem sourceRegion_has_iff (s : State) (a : Nat) :
    (∃ r ∈ s.sourceRegion, r.has a = true) ↔ s.InSourceRegion a := by
  simp only [State.sourceRegion, List.mem_map, mem_stridedAddresses, span_has_iff, State.sourceColumns]
  constructor
  · rintro ⟨_, ⟨_, ⟨j, hj, rfl⟩, rfl⟩, c, hc, rfl⟩
    exact ⟨j, hj, c, Nat.lt_succ_iff.mp hc, rfl⟩
  · rintro ⟨j, hj, c, hc, rfl⟩
    exact ⟨_, ⟨_, ⟨j, hj, rfl⟩, rfl⟩, c, Nat.lt_succ_iff.mpr hc, rfl⟩

/-- PACK4's table, there when the row has pixels (42_pack.md R175, R176). -/
theorem tableSpans_has_iff (s : State) (a : Nat) :
    (∃ r ∈ s.tableSpans, r.has a = true) ↔ 0 < s.width.toNat ∧ s.InTable a := by
  unfold State.tableSpans
  rw [ceilDiv_eight]
  split_ifs with h
  · simp only [List.not_mem_nil, false_and, exists_false, false_iff]
    omega
  · simp only [List.mem_singleton, exists_eq_left, span_has_iff, State.InTable]
    exact (and_iff_right (by omega)).symm

/-- What a rotated pack must stay clear of with its output (42_pack.md R176, 43_transpose.md R202; log 7). -/
theorem footprint_region_rotated (src : PackSource) (p : RotPlan) (bpp4 : Bool) (s : State) (n : Nat)
    (tableReads : List Nat) (table : List Span) (out : List Host.Cell) (hp : src.plan = some p) (a : Nat) :
    (∃ r ∈ (src.footprint bpp4 s n tableReads table out).region, r.has a = true) ↔
      s.InScratch bpp4 a ∨ s.InSourceRegion a ∨ ∃ r ∈ table, r.has a = true := by
  simp only [PackSource.footprint, hp, List.cons_append, List.mem_cons, List.mem_append, or_and_right, exists_or,
    exists_eq_left, scratchSpan_has_iff, sourceRegion_has_iff]

/-! ### PACK1 and PACK4 -/

/-- PACK1's plan, once it has its row: the bounds decide (42_pack.md R167). -/
theorem pack1Plan_of_source (rot inv maskOr : Bool) (s : State) (src : PackSource)
    (h : packSource rot false s = .ok src) :
    pack1Plan rot inv maskOr s =
      if src.fitsMemory false s && fits s.params.bufBytes src.addr (sourceBytes1 (s.packBit rot) s.width.toNat) &&
          fits s.params.bufBytes s.dstAddr.toNat (ceilDiv (s.dbit + s.width.toNat) 8) then
        .ok { foot := src.footprint false s (sourceBytes1 (s.packBit rot) s.width.toNat) [] []
                (rowCells s.dstAddr.toNat (src.row1 rot inv maskOr s))
              masks := packMasks s.dbit s.width.toNat (ceilDiv (s.dbit + s.width.toNat) 8)
              packLen := BitVec.ofNat 32 (ceilDiv (s.dbit + s.width.toNat) 8)
              rot := src.plan }
      else .error .bounds := by
  simp only [pack1Plan, h]

/-- PACK4's plan, once its own operand checks pass and it has its row: the bounds decide (42_pack.md R175). -/
theorem pack4Plan_of_source (rot maskOr : Bool) (s : State) (src : PackSource) (ho : pack4Operands rot s = true)
    (h : packSource rot true s = .ok src) :
    pack4Plan rot maskOr s =
      if src.fitsMemory true s && fits s.params.bufBytes src.addr (sourceBytes4 (s.packBit rot) s.width.toNat) &&
          (ceilDiv s.width.toNat 8 == 0 || fits s.params.bufBytes s.lutAddr.toNat 1024) &&
          fitsRows s.params.bufBytes s.dstAddr.toNat s.dstStride.toNat 3 (ceilDiv s.width.toNat 8) then
        .ok { foot := src.footprint true s (sourceBytes4 (s.packBit rot) s.width.toNat) (src.tableReads rot s)
                s.tableSpans
                (rowsCells s.dstAddr.toNat s.dstStride.toNat (src.planes rot maskOr s))
              masks := packMasks 0 s.width.toNat (ceilDiv s.width.toNat 8)
              packLen := BitVec.ofNat 32 (ceilDiv s.width.toNat 8)
              rot := src.plan }
      else .error .bounds := by
  simp only [pack4Plan, ho, h, if_true]

@[simp] theorem length_row1 (src : PackSource) (rot inv maskOr : Bool) (s : State) :
    (src.row1 rot inv maskOr s).length = ceilDiv (s.dbit + s.width.toNat) 8 := by
  simp [PackSource.row1, pack1Row]

@[simp] theorem length_planes (src : PackSource) (rot maskOr : Bool) (s : State) :
    (src.planes rot maskOr s).length = 3 := by simp [PackSource.planes]

theorem length_of_mem_planes (src : PackSource) (rot maskOr : Bool) (s : State) (r : List Byte)
    (h : r ∈ src.planes rot maskOr s) : r.length = ceilDiv s.width.toNat 8 := by
  simp only [PackSource.planes, List.mem_map] at h
  obtain ⟨p, -, rfl⟩ := h
  simp [planeRow]

/-- The pack writes memory, MASKS and PACK_LEN, and a rotated one ROT_STATE and ROT_COL: nothing else (42_pack.md
R167, R175). -/
theorem commitPack_eq (s : State) (p : PackPlan) : s.commitPack p =
    { s with
      mem := (s.commit p.foot).mem
      draws := (s.commit p.foot).draws
      masks := p.masks
      packLen := p.packLen
      rotState := match p.rot with | some r => r.next.word | none => s.rotState
      rotCol := match p.rot with | some r => r.nextCol | none => s.rotCol } := by
  unfold State.commitPack
  rw [commit_eq]
  cases p.rot <;> rfl

/-! ### COMPRESS -/

/-- What COMPRESS decides after its session check, check by check (41_compress.md R121). -/
theorem compressPlan_cases (p : BitVec 2) (s : State) :
    (s.mode = .block ∧
      compressPlan p s = .ok { foot := {}, result := { kind := .noGain }, ending := .normal }) ∨
    (s.mode ≠ .block ∧ s.params.seedBytes < s.len.toNat ∧
      compressPlan p s = .ok { foot := {}, result := { kind := .noGain }, ending := .degraded }) ∨
    (s.mode ≠ .block ∧ s.len.toNat ≤ s.params.seedBytes ∧
      ((∃ j < s.len.toNat, s.params.bufBytes ≤ s.srcAddr.toNat + j) ∨
        ∃ j < (s.rowResult p).out.length, s.params.bufBytes ≤ s.dstAddr.toNat + j) ∧
      compressPlan p s = .error .bounds) ∨
    (s.mode ≠ .block ∧ s.len.toNat ≤ s.params.seedBytes ∧
      (∀ j < s.len.toNat, s.srcAddr.toNat + j < s.params.bufBytes) ∧
      (∀ j < (s.rowResult p).out.length, s.dstAddr.toNat + j < s.params.bufBytes) ∧
      compressPlan p s = .ok
        { foot := { reads := addresses s.srcAddr.toNat s.len.toNat
                    out := rowCells s.dstAddr.toNat (s.rowResult p).out }
          result := s.rowResult p
          ending := .normal }) := by
  unfold compressPlan
  by_cases hm : s.mode = .block
  · exact .inl ⟨hm, by rw [if_pos hm]⟩
  by_cases hl : s.params.seedBytes < s.len.toNat
  · exact .inr (.inl ⟨hm, hl, by rw [if_neg hm, if_pos hl]⟩)
  rw [if_neg hm, if_neg hl]
  by_cases h1 : fits s.params.bufBytes s.srcAddr.toNat s.len.toNat = true
  · by_cases h2 : fits s.params.bufBytes s.dstAddr.toNat (s.rowResult p).out.length = true
    · exact .inr (.inr (.inr ⟨hm, by omega, (fits_iff _ _ _).mp h1, (fits_iff _ _ _).mp h2, by rw [if_pos h1, if_pos h2]⟩))
    · refine .inr (.inr (.inl ⟨hm, by omega, .inr ?_, by rw [if_pos h1, if_neg h2]⟩))
      rw [fits_iff] at h2
      push Not at h2
      exact h2
  · refine .inr (.inr (.inl ⟨hm, by omega, .inl ?_, by rw [if_neg h1]⟩))
    rw [fits_iff] at h1
    push Not at h1
    exact h1

/-- What `compressRow` can answer (41_compress.md R121, R124, R125, R134 to R138). -/
theorem compressRow_cases (K : Byte) (mode : Mode) (method : Bool) (S R : List Byte) :
    (S = R ∧ compressRow K mode method S R = { kind := .repeatRow }) ∨
    (S ≠ R ∧ S = List.replicate S.length 0 ∧
      compressRow K mode method S R = { kind := .allZero, seed := some (List.replicate S.length 0) }) ∨
    (S ≠ R ∧ S ≠ List.replicate S.length 0 ∧
      compressRow K mode method S R =
        { kind := (selectCandidate method S.length (deltaCandidate K mode S R) (packBitsCandidate mode S)).1
          out := (selectCandidate method S.length (deltaCandidate K mode S R) (packBitsCandidate mode S)).2
          deltaSize := (deltaCandidate K mode S R).map List.length
          packBitsSize := (packBitsCandidate mode S).map List.length
          seed := some S }) := by
  unfold compressRow
  by_cases h1 : S = R
  · exact .inl ⟨h1, by rw [if_pos h1]⟩
  by_cases h2 : S = List.replicate S.length 0
  · exact .inr (.inl ⟨h1, h2, by rw [if_neg h1, if_pos h2]⟩)
  · exact .inr (.inr ⟨h1, h2, by rw [if_neg h1, if_neg h2]⟩)

/-- What `Select` can answer: a candidate shorter than the row, or no gain and no bytes (41_compress.md R129, R133 to
R136). -/
theorem selectCandidate_cases (method : Bool) (L : Nat) (d k : Option (List Byte)) :
    (∃ e, d = some e ∧ e.length < L ∧ selectCandidate method L d k = (.delta, e)) ∨
    (∃ e, k = some e ∧ e.length < L ∧ selectCandidate method L d k = (.packBits, e)) ∨
    selectCandidate method L d k = (.noGain, []) := by
  cases d <;> cases k <;> simp only [selectCandidate] <;> (try split_ifs) <;> simp [*]

/-- The row result of COMPRESS writes at most a row shorter than the scanline (41_compress.md R139). -/
theorem length_out_compressRow (K : Byte) (mode : Mode) (method : Bool) (S R : List Byte) :
    (compressRow K mode method S R).out.length ≤ S.length := by
  rcases compressRow_cases K mode method S R with ⟨-, h⟩ | ⟨-, -, h⟩ | ⟨-, -, h⟩
  · simp [h]
  · simp [h]
  · rw [h]
    rcases selectCandidate_cases method S.length (deltaCandidate K mode S R) (packBitsCandidate mode S) with
      ⟨e, -, hl, he⟩ | ⟨e, -, hl, he⟩ | he
    · simp only [he]; omega
    · simp only [he]; omega
    · simp only [he]; exact Nat.zero_le _

/-! ### Seed rows -/

/-- The update of a seed row keeps its length when it is no longer than the row. -/
theorem length_seedUpdated (row new : List Byte) (h : new.length ≤ row.length) :
    (seedUpdated row new).length = row.length := by
  simp [seedUpdated]; omega

/-- Byte `j` of an updated seed row: the new bytes first, the old ones after them (41_compress.md R120, R138). -/
theorem getD_seedUpdated (row new : List Byte) (j : Nat) :
    (seedUpdated row new).getD j 0 = if j < new.length then new.getD j 0 else row.getD j 0 := by
  unfold seedUpdated
  simp only [List.getD_eq_getElem?_getD]
  split_ifs with h
  · rw [List.getElem?_append_left h]
  · rw [List.getElem?_append_right (by omega), List.getElem?_drop]
    congr 2
    omega

/-- A seed row after one is replaced. -/
theorem seed_setSeed (s : State) (p p' : BitVec 2) (row : List Byte) (hp : p ≠ 3) :
    (s.setSeed p row).seed p' = if p' = p then row else s.seed p' := by
  have hp : p = 0 ∨ p = 1 ∨ p = 2 := by revert p; decide
  have hp' : p' = 0 ∨ p' = 1 ∨ p' = 2 ∨ p' = 3 := by revert p'; decide
  rcases hp with rfl | rfl | rfl <;> rcases hp' with rfl | rfl | rfl | rfl <;> rfl

end Sys2Proof.Machine
end

