-- ==== Sys2Proof/Laws/Step.lean ====
section
/-! SUPPORT. What one step can do, said once: the inversion lemmas of step, of a host action and of a host register
write, and what every command keeps. -/

namespace Sys2Proof.Machine

/-! ### Every command -/

/-- What a command leaves before the end of its engine step: of the registers, only those that the engine writes by
10_state.md R24 can differ, and no field of the model's own but `draws`. -/
structure CommandKeeps (s u : State) : Prop where
  params : u.params = s.params
  cmd : u.cmd = s.cmd
  ctrl : u.ctrl = s.ctrl
  cfg : u.cfg = s.cfg
  srcAddr : u.srcAddr = s.srcAddr
  srcStride : u.srcStride = s.srcStride
  dstAddr : u.dstAddr = s.dstAddr
  dstStride : u.dstStride = s.dstStride
  width : u.width = s.width
  offs : u.offs = s.offs
  rotAddr : u.rotAddr = s.rotAddr
  lutAddr : u.lutAddr = s.lutAddr
  len : u.len = s.len
  host : u.host = s.host
  received : u.received = s.received
  schedule : u.schedule = s.schedule
  delay : u.delay = s.delay
  raced : u.raced = s.raced

/-- A state keeps itself. -/
theorem commandKeeps_refl (s : State) : CommandKeeps s s := by constructor <;> rfl

/-- The writes of a pack keep what a command keeps. -/
theorem commandKeeps_commitPack (s : State) (p : PackPlan) : CommandKeeps s (s.commitPack p) := by
  rw [commitPack_eq]
  constructor <;> rfl

/-- The writes of a COMPRESS keep what a command keeps. -/
theorem commandKeeps_commitRow (s : State) (p : BitVec 2) (c : CompressPlan) :
    CommandKeeps s (s.commitRow p c) := by
  constructor <;> simp [State.commitRow]

/-- The writes of a TPOSE keep what a command keeps. -/
theorem commandKeeps_commit (s : State) (f : Footprint) : CommandKeeps s (s.commit f) := by
  constructor <;> simp

/-- Every command ends its engine step once, in a state that keeps what a command keeps (30_encoding.md R86, R91). -/
theorem exec_ends (i : Instr) (s t : State) (h : exec i s = .next t) :
    ∃ u e, t = State.endStep u e ∧ CommandKeeps s u := by
  have hs := commandKeeps_refl s
  cases i with
  | nop => cases h; exact ⟨s, .normal, rfl, hs⟩
  | openSession =>
    simp only [exec, execOpen, State.unlessCancelled] at h
    cases h
    split_ifs
    · exact ⟨s, .cancelled, rfl, hs⟩
    · exact ⟨s, _, rfl, hs⟩
    · exact ⟨_, _, rfl, by constructor <;> rfl⟩
  | closeSession =>
    simp only [exec, execClose] at h
    cases h
    split_ifs
    · exact ⟨_, _, rfl, by constructor <;> rfl⟩
    · exact ⟨s, _, rfl, hs⟩
  | seedClr =>
    simp only [exec, execSeedClr] at h
    cases h
    split_ifs
    · exact ⟨_, _, rfl, by constructor <;> rfl⟩
    · exact ⟨s, _, rfl, hs⟩
  | tpose b =>
    simp only [exec, execTpose, State.unlessCancelled] at h
    cases h
    split_ifs
    · exact ⟨s, .cancelled, rfl, hs⟩
    · split
      · exact ⟨s, _, rfl, hs⟩
      · exact ⟨_, _, rfl, commandKeeps_commit _ _⟩
  | rotStart b =>
    simp only [exec, execRotStart, State.unlessCancelled] at h
    cases h
    split_ifs
    · exact ⟨s, .cancelled, rfl, hs⟩
    · exact ⟨s, _, rfl, hs⟩
    · exact ⟨_, _, rfl, by constructor <;> rfl⟩
  | pack1 a b c =>
    simp only [exec, execPack1, State.unlessCancelled] at h
    cases h
    split_ifs
    · exact ⟨s, .cancelled, rfl, hs⟩
    · split
      · exact ⟨s, _, rfl, hs⟩
      · exact ⟨_, _, rfl, commandKeeps_commitPack _ _⟩
  | pack4 a b =>
    simp only [exec, execPack4, State.unlessCancelled] at h
    cases h
    split_ifs
    · exact ⟨s, .cancelled, rfl, hs⟩
    · split
      · exact ⟨s, _, rfl, hs⟩
      · exact ⟨_, _, rfl, commandKeeps_commitPack _ _⟩
  | compress p =>
    simp only [exec, execCompress, State.unlessCancelled] at h
    cases h
    split_ifs
    · exact ⟨s, _, rfl, hs⟩
    · exact ⟨s, .cancelled, rfl, hs⟩
    · split
      · exact ⟨s, _, rfl, hs⟩
      · exact ⟨_, _, rfl, commandKeeps_commitRow _ _ _⟩
    · exact ⟨s, _, rfl, hs⟩

/-! ### One step -/

/-- What retiring a command changes: buffer memory where the host raced, and the model's own fields. -/
theorem retire_eq (s : State) : s.retire =
    { s with mem := (s.drawBytes s.raced).mem, draws := s.draws + s.raced.length, raced := [], delay := 0 } := by
  unfold State.retire
  rw [drawBytes_eq]

/-- What one step can be: the engine step of an illegal word or of a command, an idle machine, or a host action. -/
theorem step_cases (s : State) :
    (s.engineTurn = true ∧ ∃ e, decode s.cmd = .error e ∧ step s = .next (s.raiseError .illegal).retire) ∨
    (s.engineTurn = true ∧ ∃ i t, decode s.cmd = .ok i ∧ exec i s = .next t ∧ step s = .next t.retire) ∨
    (s.engineTurn = false ∧ s.host = [] ∧ step s = .next s) ∨
    (s.engineTurn = false ∧ ∃ a rest, s.host = a :: rest ∧ step s = hostStep a rest s) := by
  unfold step
  cases he : s.engineTurn
  · right; right
    cases hh : s.host with
    | nil => left; simp
    | cons a rest => right; exact ⟨rfl, a, rest, rfl, by simp⟩
  · cases hd : decode s.cmd with
    | error e => left; exact ⟨rfl, e, rfl, by simp [engineStep, hd]⟩
    | ok i =>
      obtain ⟨t, ht⟩ := exec_next i s
      right; left
      exact ⟨rfl, i, t, rfl, ht, by simp [engineStep, hd, ht, retireOutcome]⟩

/-- The state in which a host action takes effect: the action is off the list, and one fewer goes before the engine
step. -/
def State.hostTurn (s : State) (rest : List HostAction) : State := { s with host := rest, delay := s.delay - 1 }

/-- What a host action that is not refused can leave (10_state.md R23, 20_memory.md R66, R71, 30_encoding.md R90,
70_reset_and_hazards.md R250). -/
theorem hostStep_cases (a : HostAction) (rest : List HostAction) (s t : State) (h : hostStep a rest s = .next t) :
    t = s.hostTurn rest ∨
    (∃ r v, t = (s.hostTurn rest).hostWrite r v) ∨
    (∃ v, t = (s.hostTurn rest).receive v) ∨
    (∃ x v, x < s.params.bufBytes ∧ x ∉ (s.hostTurn rest).inFlight.touched ∧
      t = { s.hostTurn rest with mem := Memory.write s.mem x v }) ∨
    (∃ x, x < s.params.bufBytes ∧ x ∈ (s.hostTurn rest).inFlight.touched ∧
      t = { (s.hostTurn rest).drawBytes ((s.hostTurn rest).inFlight.written ++ [x]) with raced := x :: s.raced }) ∨
    (∃ v, t = { s.hostTurn rest with draws := s.draws + 1, received := v :: s.received }) ∨
    (s.busy = true ∧
      t = { s.hostTurn rest with received := s.readReg .status :: s.received, host := .wait :: rest }) ∨
    (a = .reset ∧ t = (s.hostTurn rest).afterReset) := by
  cases a with
  | regWrite addr bits v =>
    simp only [hostStep, hostRegWrite] at h
    split at h
    · cases h
    · cases h; exact .inl rfl
    · cases h; exact .inr (.inl ⟨_, _, rfl⟩)
  | regRead addr bits =>
    simp only [hostStep, hostRegRead] at h
    split at h
    · cases h
    · cases h; exact .inr (.inr (.inl ⟨_, rfl⟩))
    · cases h; exact .inr (.inr (.inl ⟨_, rfl⟩))
  | bufWrite x v =>
    simp only [hostStep, hostBufWrite] at h
    split_ifs at h with h1 h2
    · cases h
      refine .inr (.inr (.inr (.inr (.inl ⟨x, by omega, ?_, rfl⟩))))
      simpa [State.hostTurn] using h2
    · cases h
      refine .inr (.inr (.inr (.inl ⟨x, v, by omega, ?_, rfl⟩)))
      simpa [State.hostTurn] using h2
  | bufRead x =>
    simp only [hostStep, hostBufRead] at h
    split_ifs at h with h1 h2
    · cases h; exact .inr (.inr (.inr (.inr (.inr (.inl ⟨_, rfl⟩)))))
    · cases h; exact .inr (.inr (.inl ⟨_, rfl⟩))
  | wait =>
    simp only [hostStep, hostWait] at h
    split_ifs at h with h1
    · cases h; exact .inr (.inr (.inr (.inr (.inr (.inr (.inl ⟨h1, rfl⟩))))))
    · cases h; exact .inr (.inr (.inl ⟨_, rfl⟩))
  | reset =>
    simp only [hostStep] at h
    cases h
    exact .inr (.inr (.inr (.inr (.inr (.inr (.inr ⟨rfl, rfl⟩))))))

/-- What a host write to a register can leave (10_state.md R23, R25, R27, R28, 60_exceptions.md R222). -/
theorem hostWrite_cases (s : State) (r : Reg) (v : Word) :
    (r = .ctrl ∧ s.hostWrite r v = { s with ctrl := v &&& 0x00000001 }) ∨
    (r = .status ∧ v.getLsbD 3 = true ∧ s.hostWrite r v = s.clearError) ∨
    (r = .status ∧ v.getLsbD 3 = false ∧ s.hostWrite r v = s) ∨
    (r ≠ .ctrl ∧ r ≠ .status ∧ s.busy = true ∧ s.hostWrite r v = s.hostBusyError) ∨
    (r = .cmd ∧ s.busy = false ∧ s.hostWrite r v = s.acceptCommand v) ∨
    (r ≠ .ctrl ∧ r ≠ .status ∧ r ≠ .cmd ∧ s.busy = false ∧ s.hostWrite r v = s.storeReg r v) := by
  unfold State.hostWrite
  by_cases h1 : r = .ctrl
  · subst h1; exact .inl ⟨rfl, by simp [Reg.fields]⟩
  by_cases h2 : r = .status
  · subst h2
    cases hv : v.getLsbD 3
    · exact .inr (.inr (.inl ⟨rfl, rfl, by simp⟩))
    · exact .inr (.inl ⟨rfl, rfl, by simp⟩)
  cases hb : s.busy
  · by_cases h3 : r = .cmd
    · subst h3; exact .inr (.inr (.inr (.inr (.inl ⟨rfl, rfl, by simp⟩))))
    · exact .inr (.inr (.inr (.inr (.inr ⟨h1, h2, h3, rfl, by simp [h1, h2, h3]⟩))))
  · exact .inr (.inr (.inr (.inl ⟨h1, h2, rfl, by simp [h1, h2]⟩)))

/-! ### Where a command writes -/

/-- A command writes only inside the buffer memory (20_memory.md R63). -/
theorem written_commandFootprint_tpose (bpp4 : Bool) (s : State) (f : Footprint) (h : tposePlan bpp4 s = .ok f) :
    ∀ x ∈ f.written, x < s.params.bufBytes := by
  intro x hx
  obtain ⟨-, h2, -⟩ := (tposePlan_ok_iff _ _ _).mp h
  obtain ⟨k, hk, i, hi, rfl⟩ := (mem_written_tpose _ _ _ h x).mp hx
  exact h2 k hk i hi

end Sys2Proof.Machine
end

