-- ==== Sys2Proof/Tests/Slice0.lean ====
section
/-! SUPPORT. The model's own tests: the smoke test of WellFormed, the decoding of every command from a word written out
from 30_encoding.md R80 to R82, one or two single steps for each command with the values of 95_test_vectors.md, and for
each statement with hypotheses a concrete state and operands that meet them all. -/

namespace Sys2Proof.Tests

open Sys2Proof.Machine

/-! ### Helpers -/

/-- A small machine: 4096 bytes of buffer memory, seed rows of 12 bytes, registers at 0x1000. -/
def base : State :=
  { State.reset with
    params := { bufBytes := 4096, seedBytes := 12, regBase := 0x1000, deltaExtCont := 127 }
    seed0 := List.replicate 12 0
    seed1 := List.replicate 12 0
    seed2 := List.replicate 12 0 }

/-- `base` with a session open. -/
def opened : State := { base with status := 0x00000002 }

/-- `base` with the word in flight, its engine step next. -/
def flying (w : Word) : State := { base with cmd := w, status := 0x00000001 }

/-- `base` with a host action to do. -/
def hosted (a : HostAction) : State := { base with host := [a] }

/-- A memory that holds a row of bytes. -/
def memOf (a : Nat) (bs : List Byte) : Memory := Memory.writeAll [] (rowCells a bs)

/-- A memory with one more row of bytes. -/
def withRow (m : Memory) (a : Nat) (bs : List Byte) : Memory := Memory.writeAll m (rowCells a bs)

/-- A row of seed bytes filled up with zeros to 12 bytes. -/
def seedOf (bs : List Byte) : List Byte := bs ++ List.replicate (12 - bs.length) 0

/-- The next state of an outcome. -/
def after : Host.Outcome State Fault Refusal → State
  | .next t => t
  | .fault _ => base
  | .refused _ => base

/-- The outcome is a next state. -/
def isNext : Host.Outcome State Fault Refusal → Bool
  | .next _ => true
  | .fault _ => false
  | .refused _ => false

/-- The refusal of an outcome. -/
def refusal : Host.Outcome State Fault Refusal → Option Refusal
  | .next _ => none
  | .fault _ => none
  | .refused r => some r

/-- An outcome with a next state is that next state. -/
theorem next_after (o : Host.Outcome State Fault Refusal) (h : isNext o = true) : o = .next (after o) := by
  cases o with
  | next t => rfl
  | fault r => cases h
  | refused r => cases h

/-- What the decoder reads, as data that can be compared. -/
def decoded (w : Word) : Option Instr × Option DecodeError :=
  match decode w with
  | .ok i => (some i, none)
  | .error e => (none, some e)

/-- The bytes of a row of buffer memory. -/
def row (s : State) (a n : Nat) : List Byte := Memory.bytes s.mem (addresses a n)

/-! ### WellFormed -/

/-- 30_encoding.md R83: PLANE = 3 is illegal, and it is the only check. -/
theorem test_compress_plane_3_is_ill_formed : (Instr.compress 3).wellFormed = false := by decide

theorem test_compress_plane_2_is_well_formed : (Instr.compress 2).wellFormed = true := by decide

/-! ### Decoding: words written out bit by bit from 30_encoding.md R80 (flags [9:4], OP [3:0]) -/

theorem test_decode_nop : decoded 0b0000000000 = (some .nop, none) := by decide

theorem test_decode_open : decoded 0b0000000001 = (some .openSession, none) := by decide

theorem test_decode_close : decoded 0b0000000010 = (some .closeSession, none) := by decide

theorem test_decode_seedClr : decoded 0b0000000011 = (some .seedClr, none) := by decide

theorem test_decode_tpose :
    decoded 0b0000000100 = (some (.tpose false), none) ∧ decoded 0b0010000100 = (some (.tpose true), none) := by
  decide

theorem test_decode_rotStart :
    decoded 0b0000000101 = (some (.rotStart false), none) ∧
      decoded 0b0010000101 = (some (.rotStart true), none) := by decide

theorem test_decode_pack1 :
    decoded 0b0000010110 = (some (.pack1 true false false), none) ∧
      decoded 0b0000100110 = (some (.pack1 false true false), none) ∧
      decoded 0b0001000110 = (some (.pack1 false false true), none) := by decide

theorem test_decode_pack4 :
    decoded 0b0000010111 = (some (.pack4 true false), none) ∧
      decoded 0b0001000111 = (some (.pack4 false true), none) := by decide

theorem test_decode_compress :
    decoded 0b0000001000 = (some (.compress 0), none) ∧ decoded 0b0100001000 = (some (.compress 1), none) ∧
      decoded 0b1000001000 = (some (.compress 2), none) := by decide

/-- 95_test_vectors.md 2.1: the illegal words. -/
theorem test_decode_illegal :
    decoded 0x00000009 = (none, some .reservedOp) ∧ decoded 0x0000000F = (none, some .reservedOp) ∧
      decoded 0x00000027 = (none, some .unusedFlag) ∧ decoded 0x00000308 = (none, some .illegalPlane) ∧
      decoded 0x00000014 = (none, some .unusedFlag) ∧ decoded 0x00000010 = (none, some .unusedFlag) ∧
      decoded 0x00000086 = (none, some .unusedFlag) ∧ decoded 0x00000406 = (none, some .reservedBits) := by decide

/-- 30_encoding.md R88: the two examples of the spelling. -/
theorem test_spelling :
    (Instr.pack1 true false true).spelling = some "PACK1.R.O" ∧ encode (.pack1 true false true) = 0x00000056 ∧
      (Instr.compress 2).spelling = some "COMPRESS.P2" ∧ encode (.compress 2) = 0x00000208 := by decide

/-- The word of a table row decodes, and step runs it from the reset state (40_control.md R102: SESSION 1). -/
theorem test_fetch :
    decodeTableWord 32 1 = some .openSession ∧ (after (step (State.reset.withFetchWord 32 1))).status = 2 := by
  decide

/-! ### One step of each command, with the values of 95_test_vectors.md -/

/-- 95 2.2: STATUS 0x00000004 (CANCELLED), NOP gives STATUS 0. -/
theorem test_nop_clears_cancelled :
    (after (exec .nop { base with status := 0x00000005 })).status = 0x00000000 := by decide

/-- 95 2.2: OPEN gives SESSION 1, ACT 0, STATUS 0x00000002. -/
theorem test_open :
    (after (exec .openSession { flying 1 with act := 1 })).status = 0x00000002 ∧
      (after (exec .openSession { flying 1 with act := 1 })).act = 0 := by decide

/-- 95 2.2: OPEN in a session gives STATUS 0x0000003A. -/
theorem test_open_reentry :
    (after (exec .openSession { base with status := 0x00000003 })).status = 0x0000003A := by decide

/-- A session with something in each piece of state that CLOSE clears. -/
def closing : State :=
  { opened with act := 1, rotState := 0x00000603, rotCol := 5, seed0 := seedOf [0x12, 0x34] }

/-- 95 2.2: CLOSE gives SESSION 0, ACT 0, ROT_STATE 0, zero seed rows, and keeps ROT_COL. -/
theorem test_close :
    (after (exec .closeSession closing)).status = 0 ∧ (after (exec .closeSession closing)).rotState = 0 ∧
      (after (exec .closeSession closing)).rotCol = 5 ∧
      (after (exec .closeSession closing)).seed0 = List.replicate 12 0 := by decide

/-- 95 2.2: CLOSE without a session gives STATUS 0x00000048. -/
theorem test_close_nosession : (after (exec .closeSession (flying 2))).status = 0x00000048 := by decide

/-- 95 2.2: SEEDCLR zeroes `Seed[1]`, and runs while CTRL.CANCEL = 1. -/
theorem test_seedClr :
    (after (exec .seedClr { closing with ctrl := 1, seed1 := seedOf [0x12, 0x34] })).seed1 = List.replicate 12 0 ∧
      (after (exec .seedClr { closing with ctrl := 1 })).act = 1 := by decide

/-- 95 2.8, first row, with the rows at the very end of buffer memory. -/
def tposing : State :=
  { base with
    mem := memOf 0x100 [0x80, 0xC0, 0xE0, 0xF0, 0x01, 0x03, 0x07, 0x0F]
    srcAddr := 0x100, srcStride := 1, width := 8, dstAddr := 0xFF8, dstStride := 1 }

/-- 95 2.8: TPOSE.1 of N = 8. -/
theorem test_tpose_1 :
    row (after (exec (.tpose false) tposing)) 0xFF8 8 = [0x0F, 0x07, 0x03, 0x01, 0x10, 0x30, 0x70, 0xF0] := by decide

/-- 95 2.8, the 4bpp row. -/
def tposing4 : State :=
  { base with
    mem := memOf 0x100 [0x12, 0x34, 0x56], srcAddr := 0x100, srcStride := 1, width := 3, dstAddr := 0xFFC
    dstStride := 2 }

/-- 95 2.8: TPOSE.4 of N = 3. -/
theorem test_tpose_4 :
    row (after (exec (.tpose true) tposing4)) 0xFFC 4 = [0x24, 0x60, 0x13, 0x50] := by decide

/-- 95 2.8: ROTSTART.1 with SBIT = 3. -/
theorem test_rotStart : (after (exec (.rotStart false) { base with offs := 3 })).rotState = 0x00000240 := by decide

/-- 95 2.8: ROTSTART.4 with SBIT = 2 raises OPERAND. -/
theorem test_rotStart_operand :
    (after (exec (.rotStart true) { flying 0x85 with offs := 2 })).status = 0x00000058 := by decide

/-- 95 2.6, first row, with the source row at the very end of buffer memory. -/
def packing : State :=
  { base with
    mem := memOf 0xFFE [0xB5, 0x3C], srcAddr := 0xFFE, width := 16, offs := 0x300, dstAddr := 0x200 }

/-- 95 2.6: B5 3C, S = 0, O = 3, W = 16, AND mode. -/
theorem test_pack1 :
    row (after (exec (.pack1 false false false) packing)) 0x200 3 = [0x16, 0xA7, 0x80] ∧
      (after (exec (.pack1 false false false) packing)).masks = 0x1FE0E01F ∧
      (after (exec (.pack1 false false false) packing)).packLen = 3 := by decide

/-- 95 program P2: the sequence of a 12 by 3 region, before its first PACK1.R. -/
def rotating : State :=
  { base with
    mem := memOf 0x100 [0x81, 0x5F, 0x42, 0xAF, 0x24, 0x0F]
    srcAddr := 0x100, srcStride := 2, width := 3, rotAddr := 0x180, rotCol := 1, rotState := 0x240, offs := 3
    rotFirst := 1, dstAddr := 0x200 }

/-- 95 P2, i = 0: column 1 is transposed and the byte of pixel column 11 is 80. With its output on column 0, which it
does not read, all nine bytes it writes are drawn (43_transpose.md R202; log 7). -/
theorem test_pack1_rotated :
    row (after (exec (.pack1 true false false) rotating)) 0x200 1 = [0x80] ∧
      (after (exec (.pack1 true false false) rotating)).rotState = 0x203 ∧
      (after (exec (.pack1 true false false) rotating)).rotCol = 0 ∧
      (after (exec (.pack1 true false false) rotating)).masks = 0x1F1FE0E0 ∧
      (after (exec (.pack1 true false false) { rotating with dstAddr := 0x104 })).draws = 9 := by decide

/-- The entries of the table of 95 2.7 that the tests look up, with the table at the very end of buffer memory. -/
def table : Memory :=
  withRow (withRow (withRow (withRow (withRow (withRow [] (0xC00 + 4 * 0x00) [0x00, 0x00, 0x00])
    (0xC00 + 4 * 0x12) [0x80, 0x40, 0x00]) (0xC00 + 4 * 0x34) [0x80, 0x80, 0x40])
    (0xC00 + 4 * 0x56) [0x80, 0x40, 0xC0]) (0xC00 + 4 * 0x70) [0x80, 0x80, 0x80])
    (0xC00 + 4 * 0x13) [0xC0, 0x40, 0x00]

/-- 95 2.7, first row. -/
def packing4 : State :=
  { base with
    mem := withRow table 0x100 [0x12, 0x34, 0x56, 0x70], srcAddr := 0x100, width := 8, lutAddr := 0xC00
    dstAddr := 0x200, dstStride := 1 }

/-- 95 2.7, third row: the table is looked up at 12, 34 and 50. -/
def packing4Odd : State :=
  { packing4 with width := 5, mem := withRow packing4.mem (0xC00 + 4 * 0x50) [0x80, 0x00, 0x80] }

/-- `packing4` with its planes in the last three entries of the table, which no pixel looks up: plane 0 on a byte 3. -/
def packing4OnTable : State := { packing4 with dstAddr := 0xFF7, dstStride := 2 }

/-- 95 2.7: the three planes of W = 8, and of W = 5 in OR mode. With plane 0 on byte 3 of a table entry, which no pixel
reads, all three plane bytes are drawn (42_pack.md R176; log 7). -/
theorem test_pack4 :
    row (after (exec (.pack4 false false) packing4)) 0x200 3 = [0xAA, 0x66, 0x1E] ∧
      row (after (exec (.pack4 false true) packing4Odd)) 0x200 3 = [0xAF, 0x67, 0x1F] ∧
      (after (exec (.pack4 false false) packing4OnTable)).draws = 3 := by decide

/-- A 4bpp sequence whose column holds 12 and 34: its high nibbles are the pixels 1 and 3. -/
def rotating4 : State :=
  { base with
    mem := withRow table 0x100 [0x12, 0x34], srcAddr := 0x100, srcStride := 1, width := 2, rotAddr := 0x180
    rotState := 0x310, lutAddr := 0xC00, dstAddr := 0x200, dstStride := 1 }

/-- 42_pack.md R173 and 43_transpose.md R198, by hand: entry 0x13 gives the bits 11, 01 and 00, and column 0 was the
last one. -/
theorem test_pack4_rotated :
    row (after (exec (.pack4 true false) rotating4)) 0x200 3 = [0xC0, 0x40, 0x00] ∧
      (after (exec (.pack4 true false) rotating4)).rotState = 0x700 := by decide

/-- A session ready to compress `S` against the seed row `R`. -/
def compressing (S R : List Byte) (mode : Word) : State :=
  { opened with
    cfg := mode, mem := memOf 0x100 S, srcAddr := 0x100, len := BitVec.ofNat 32 S.length, dstAddr := 0x300
    seed0 := seedOf R }

/-- 95 2.3: a row that Delta wins. -/
def deltaRow : State := compressing [0x00, 0x00, 0x00, 0x00, 0x09, 0x00, 0x00, 0x00] [] 3

/-- 95 2.3: 00×4 09 00×3 against zeros, ADAPTIVE: DELTA, 04 09, sizes 2 and 4. -/
theorem test_compress_delta :
    row (after (exec (.compress 0) deltaRow)) 0x300 2 = [0x04, 0x09] ∧
      (after (exec (.compress 0) deltaRow)).resKind = 3 ∧ (after (exec (.compress 0) deltaRow)).dsize = 2 ∧
      (after (exec (.compress 0) deltaRow)).psize = 4 := by decide

/-- 95 2.3: a row that PackBits wins. -/
def packBitsRow : State := compressing (List.replicate 10 0xAA) [] 3

/-- 95 2.3: AA×10 against zeros, ADAPTIVE: PACKBITS, F7 AA, sizes 12 and 2, ACT 1, the seed row updated. -/
theorem test_compress_packBits :
    row (after (exec (.compress 0) packBitsRow)) 0x300 2 = [0xF7, 0xAA] ∧
      (after (exec (.compress 0) packBitsRow)).resKind = 4 ∧ (after (exec (.compress 0) packBitsRow)).dsize = 12 ∧
      (after (exec (.compress 0) packBitsRow)).act = 1 ∧
      (after (exec (.compress 0) packBitsRow)).seed0 = seedOf (List.replicate 10 0xAA) := by decide

/-- 95 2.4: PackBits run limits. -/
theorem test_packBits_limits :
    packBits (List.replicate 129 0xAB) = [0x81, 0xAB, 0x00, 0xAB] ∧
      packBits [0x00, 0x00, 0x00, 0x00, 0x00, 0x07] = [0xFC, 0x00, 0x00, 0x07] ∧
      packBits [0x07, 0x00, 0x00] = [0x00, 0x07] := by decide +kernel

/-- 95 2.5: Delta offset extension, with both values of DELTA_EXT_CONT. -/
theorem test_delta_extension :
    deltaExt 127 30 = [] ∧ deltaExt 127 31 = [0x00] ∧ deltaExt 127 158 = [0x7F, 0x00] ∧
      deltaExt 255 158 = [0x7F] ∧ deltaExt 255 286 = [0xFF, 0x00] := by decide

/-- 95 2.9: a write of SRC_ADDR while BUSY = 1 sets ERR 1, ERRCODE 2, BUSY stays 1, and SRC_ADDR is unchanged. -/
theorem test_host_busy :
    (after (step { flying 6 with delay := 1, host := [.wr base.params .srcAddr 0x500] })).status = 0x00000029 ∧
      (after (step { flying 6 with delay := 1, host := [.wr base.params .srcAddr 0x500] })).srcAddr = 0 := by decide

/-- 95 P4: a write of 0x8 to STATUS turns 0x0000003A into 0x00000002. -/
theorem test_host_clears_error :
    (after (step { hosted (.wr base.params .status 0x8) with status := 0x0000003A })).status = 0x00000002 := by decide

/-! ### A witness for the hypotheses of each statement -/

/-- EveryCommandDecodesFromItsEncoding, at the largest PLANE. -/
theorem witness_every_command_decodes : (Instr.compress 2).wellFormed = true := by decide

/-- DecodedWordIsTheEncodingOfItsCommand. -/
theorem witness_decoded_word : decode 0x00000076 = .ok (.pack1 true true true) := by rfl

/-- RefusedWordsAreTheIllegalOnes, each side of it: a refused word of each disjunct. -/
theorem witness_refused_words :
    decode 0x00000308 = .error .illegalPlane ∧ decode 0x00000009 = .error .reservedOp ∧
      (∀ op ∈ [Opcode.nop, .openSession, .closeSession, .seedClr, .tpose, .rotStart, .pack1, .pack4, .compress],
        (0x00000009 : Word) &&& op.mask ≠ op.pattern) := ⟨rfl, rfl, by decide⟩

/-- EngineStepRunsTheDecodedCommand, EveryEngineStepFinishesItsCommand. -/
theorem witness_engine_step :
    (flying 1).engineTurn = true ∧ decode (flying 1).cmd = .ok .openSession ∧
      exec .openSession (flying 1) = .next (after (exec .openSession (flying 1))) :=
  ⟨by decide, rfl, next_after _ (by decide)⟩

/-- IllegalWordRaisesIllegal, with CTRL.CANCEL = 1. -/
theorem witness_illegal_word :
    ({ flying 9 with ctrl := 1 } : State).engineTurn = true ∧ ({ flying 9 with ctrl := 1 } : State).raced = [] ∧
      decode ({ flying 9 with ctrl := 1 } : State).cmd = .error .reservedOp := ⟨by decide, by decide, rfl⟩

/-- EngineKeepsTheHostsRegisters. -/
theorem witness_engine_keeps_registers :
    (flying 1).engineTurn = true ∧ step (flying 1) = .next (after (step (flying 1))) :=
  ⟨by decide, next_after _ (by decide)⟩

/-- A command in flight with two host actions still to go, and a host that waits. -/
def waiting : State := { flying 6 with delay := 2, host := [.wait] }

/-- EveryWaitEnds, idle, and in flight with and without a delay. -/
theorem witness_wait :
    (hosted .wait).busy = false ∧ (hosted .wait).host = [.wait] ∧
      waiting.busy = true ∧ waiting.host = [.wait] ∧ ({ waiting with delay := 0 } : State).busy = true := by decide

/-- ResetGivesEveryRegisterItsValue, idle and with a command in flight. -/
theorem witness_reset :
    (hosted .reset).engineTurn = false ∧ (hosted .reset).host = [.reset] ∧
      ({ flying 6 with delay := 1, host := [.reset] } : State).engineTurn = false := by decide

/-- EveryStepKeepsTheStateLegal: `flying 1` is legal and steps. -/
theorem witness_legal_step : (flying 1).Inv ∧ step (flying 1) = .next (after (step (flying 1))) :=
  ⟨⟨by decide, by decide, by decide, by decide, by decide, by decide, by decide, by decide, by decide, by decide,
    by decide⟩, next_after _ (by decide)⟩

/-- SeedRowsAreZeroOutsideASession: a step that ends the session, and a command outside one. -/
theorem witness_seed_rows :
    (closing.session = false → closing.seedsZero = true) ∧
      step { closing with status := 0x00000003, cmd := 2 } =
        .next (after (step { closing with status := 0x00000003, cmd := 2 })) ∧
      (after (step { closing with status := 0x00000003, cmd := 2 })).session = false ∧
      (flying 1).session = false ∧ (flying 1).seedsZero = true ∧ (flying 1).seedsSized = true ∧
      exec .openSession (flying 1) = .next (after (exec .openSession (flying 1))) :=
  ⟨by decide, next_after _ (by decide), by decide, by decide, by decide, by decide, next_after _ (by decide)⟩

/-- OnlyOpenCloseAndResetChangeSession: OPEN sets SESSION, reset clears it. -/
theorem witness_session_changes :
    step (flying 1) = .next (after (step (flying 1))) ∧
      (after (step (flying 1))).session ≠ (flying 1).session ∧
      step { opened with host := [.reset] } = .next (after (step { opened with host := [.reset] })) ∧
      (after (step { opened with host := [.reset] })).session ≠ opened.session :=
  ⟨next_after _ (by decide), by decide, next_after _ (by decide), by decide⟩

/-- OnlySeedCommandsChangeSeedRows: SEEDCLR changes a seed row. -/
theorem witness_seed_changes :
    step { closing with status := 0x00000003, cmd := 3 } =
        .next (after (step { closing with status := 0x00000003, cmd := 3 })) ∧
      (after (step { closing with status := 0x00000003, cmd := 3 })).seed0 ≠ closing.seed0 :=
  ⟨next_after _ (by decide), by decide⟩

/-- ErrorsArePrecise: CLOSE without a session. -/
theorem witness_error :
    (flying 2).err = false ∧ exec .closeSession (flying 2) = .next (after (exec .closeSession (flying 2))) ∧
      (after (exec .closeSession (flying 2))).err = true := ⟨by decide, next_after _ (by decide), by decide⟩

/-- CancelDiscardsCancellableCommands, one command of each branch. -/
theorem witness_cancel :
    ({ base with ctrl := 1 } : State).cancelRequested = true ∧ (Instr.pack1 true true true).wellFormed = true ∧
      Instr.seedClr.wellFormed = true := by decide

/-- SessionRequirements: both values of SESSION. -/
theorem witness_session_requirements :
    opened.session = true ∧ opened.cancelRequested = false ∧ base.session = false ∧
      base.cancelRequested = false ∧ (2 : BitVec 2) ≠ 3 := by decide

/-- OpenClaimsTheSession, CloseReleasesTheSession, SeedClrZeroesTheSeedRows. -/
theorem witness_control :
    (flying 1).session = false ∧ (flying 1).cancelRequested = false ∧ closing.session = true ∧
      ({ closing with ctrl := 1 } : State).session = true := by decide

/-- TposeCompletesAndWritesOnlyItsRows and TposeOneBitRowsAreBitColumns: the last row byte is the last byte of the
buffer memory, and DST_STRIDE is just wide enough. -/
theorem witness_tpose_1 :
    tposing.cancelRequested = false ∧ tposing.raced = [] ∧
      (∀ j < tposing.width.toNat,
        tposing.srcAddr.toNat + j * tposing.srcStride.toNat + tposing.rotCol.toNat < tposing.params.bufBytes) ∧
      (∀ k < groupSize false, ∀ i < rotatedBytes false tposing.width.toNat,
        tposing.dstAddr.toNat + k * tposing.dstStride.toNat + i < tposing.params.bufBytes) ∧
      (∀ k < 8, ∀ i < (tposing.width.toNat + 7) / 8, ∀ j < tposing.width.toNat,
        tposing.dstAddr.toNat + k * tposing.dstStride.toNat + i ≠
          tposing.srcAddr.toNat + j * tposing.srcStride.toNat + tposing.rotCol.toNat) ∧
      (tposing.width.toNat + 7) / 8 ≤ tposing.dstStride.toNat ∧
      tposing.dstAddr.toNat + 7 * tposing.dstStride.toNat + 0 = 4095 := by decide

/-- TposeFourBitRowsAreNibbleColumns, with an odd row count. -/
theorem witness_tpose_4 :
    tposing4.cancelRequested = false ∧ tposing4.raced = [] ∧
      (∀ j < tposing4.width.toNat,
        tposing4.srcAddr.toNat + j * tposing4.srcStride.toNat + tposing4.rotCol.toNat < tposing4.params.bufBytes) ∧
      (∀ k < 2, ∀ i < (tposing4.width.toNat + 1) / 2,
        tposing4.dstAddr.toNat + k * tposing4.dstStride.toNat + i < tposing4.params.bufBytes) ∧
      (∀ k < 2, ∀ i < (tposing4.width.toNat + 1) / 2, ∀ j < tposing4.width.toNat,
        tposing4.dstAddr.toNat + k * tposing4.dstStride.toNat + i ≠
          tposing4.srcAddr.toNat + j * tposing4.srcStride.toNat + tposing4.rotCol.toNat) ∧
      (tposing4.width.toNat + 1) / 2 ≤ tposing4.dstStride.toNat := by decide

/-- `tposing` with its source row one byte too high. -/
def tposingPast : State := { tposing with srcAddr := 0xFF9 }

/-- `packing` with its output row one byte too high. -/
def packingPast : State := { packing with srcAddr := 0xFFF, dstAddr := 0xFFE }

/-- A sequence whose scratch still has all eight rows, at the largest DBIT. -/
def consuming : State :=
  { rotating with rotState := 0x208, offs := 0x700, mem := withRow rotating.mem 0x180 [1, 2, 3, 4, 5, 6, 7, 8] }

/-- AddressesPastTheBufferRaiseBounds: each of its cases without ROT, one byte past the buffer memory. -/
theorem witness_bounds :
    tposingPast.cancelRequested = false ∧
      (∃ j < tposingPast.width.toNat, tposingPast.params.bufBytes ≤
        tposingPast.srcAddr.toNat + j * tposingPast.srcStride.toNat + tposingPast.rotCol.toNat) ∧
      (∃ k < groupSize false, ∃ i < rotatedBytes false tposing.width.toNat,
        tposing.params.bufBytes ≤ (tposing.dstAddr + 1).toNat + k * tposing.dstStride.toNat + i) ∧
      packingPast.cancelRequested = false ∧ 0 < packingPast.width.toNat ∧
      (∃ j < (packingPast.sbit + packingPast.width.toNat + 7) / 8,
        packingPast.params.bufBytes ≤ packingPast.srcAddr.toNat + j) ∧
      (∃ k < (packingPast.dbit + packingPast.width.toNat + 7) / 8,
        packingPast.params.bufBytes ≤ packingPast.dstAddr.toNat + k) := by decide

/-- AddressesPastTheBufferRaiseBounds, PACK1.R: its column, its scratch, the last row of its scratch and its output, one
byte past the buffer memory. -/
theorem witness_bounds_rotated :
    rotating.cancelRequested = false ∧ rotating.rot.tpValid = true ∧ rotating.rot.tpBpp4 = false ∧
      rotating.rot.tpEnd = false ∧ 0 < consuming.rot.tpLeft ∧
      ({ rotating with srcAddr := 0xFFB } : State).RotatedRowPastBuffer false ∧
      ({ rotating with rotAddr := 0xFF9 } : State).RotatedRowPastBuffer false ∧
      ({ consuming with rotState := 0x201, rotAddr := 0xFF9 } : State).RotatedRowPastBuffer false ∧
      (∃ k < (consuming.dbit + consuming.width.toNat + 7) / 8,
        consuming.params.bufBytes ≤ ({ consuming with dstAddr := 0xFFF } : State).dstAddr.toNat + k) := by
  unfold State.RotatedRowPastBuffer
  decide

/-- `tposing` with its rows over its column, and all rows over one another. -/
def tposingOver : State := { tposing with dstAddr := 0x107, dstStride := 0 }

/-- OverlappingTposeWritesFreeBytes: a row byte that is a column byte, and two rows at one byte. A race is its third
case. -/
theorem witness_overlap :
    tposingOver.cancelRequested = false ∧
      (∀ j < tposingOver.width.toNat, tposingOver.srcAddr.toNat + j * tposingOver.srcStride.toNat +
        tposingOver.rotCol.toNat < tposingOver.params.bufBytes) ∧
      (∀ k < groupSize false, ∀ i < rotatedBytes false tposingOver.width.toNat,
        tposingOver.dstAddr.toNat + k * tposingOver.dstStride.toNat + i < tposingOver.params.bufBytes) ∧
      (∃ k < groupSize false, ∃ i < rotatedBytes false tposingOver.width.toNat, ∃ j < tposingOver.width.toNat,
        tposingOver.dstAddr.toNat + k * tposingOver.dstStride.toNat + i =
          tposingOver.srcAddr.toNat + j * tposingOver.srcStride.toNat + tposingOver.rotCol.toNat) ∧
      (∃ k < groupSize false, ∃ k' < groupSize false, ∃ i < rotatedBytes false tposingOver.width.toNat,
        ∃ i' < rotatedBytes false tposingOver.width.toNat, k ≠ k' ∧
          tposingOver.dstAddr.toNat + k * tposingOver.dstStride.toNat + i =
            tposingOver.dstAddr.toNat + k' * tposingOver.dstStride.toNat + i') ∧
      ({ tposing with raced := [5] } : State).raced ≠ [] := by decide

/-- RotStartSetsUpASequence: the last legal SBIT of each form and the first illegal one. -/
theorem witness_rotStart :
    ({ base with offs := 7 } : State).cancelRequested = false ∧ ({ base with offs := 7 } : State).sbit < 8 ∧
      ({ base with offs := 1 } : State).sbit < 2 ∧ 2 ≤ ({ base with offs := 2 } : State).sbit := by decide

/-- RotatedPackErrors: no sequence, a sequence of the other depth, and an exhausted one, for both packs. -/
theorem witness_rotated_errors :
    base.cancelRequested = false ∧ base.rot.tpValid = false ∧
      ({ base with rotState := 0x300 } : State).rot.tpBpp4 = true ∧
      ({ base with rotState := 0x200 } : State).rot.tpBpp4 = false ∧
      ({ base with rotState := 0x600 } : State).rot =
        { tpLeft := 0, tpSkip := 0, tpBpp4 := false, tpValid := true, tpEnd := true } ∧
      ({ base with rotState := 0x700 } : State).rot =
        { tpLeft := 0, tpSkip := 0, tpBpp4 := true, tpValid := true, tpEnd := true } ∧
      ({ base with rotState := 0x700 } : State).dbit = 0 := by decide

/-- RotatedPackOneConsumesAScratchRow, at TP_LEFT = 8. Its clear output, and each way to free bytes: a race, an output
byte on the last byte of the scratch, and one on the last column of the source region, which ROTSTART found and ROT_COL
has left. -/
theorem witness_consumes :
    consuming.cancelRequested = false ∧ consuming.raced = [] ∧ consuming.rot.tpValid = true ∧
      consuming.rot.tpBpp4 = false ∧ 0 < consuming.rot.tpLeft ∧ consuming.rot.tpLeft ≤ 8 ∧
      (∀ i < (consuming.width.toNat + 7) / 8, consuming.rotAddr.toNat +
        (8 - consuming.rot.tpLeft) * ((consuming.width.toNat + 7) / 8) + i < consuming.params.bufBytes) ∧
      (∀ k < (consuming.dbit + consuming.width.toNat + 7) / 8,
        consuming.dstAddr.toNat + k < consuming.params.bufBytes) ∧
      (∀ k < (consuming.dbit + consuming.width.toNat + 7) / 8,
        ¬consuming.InScratch false (consuming.dstAddr.toNat + k) ∧
        ¬consuming.InSourceRegion (consuming.dstAddr.toNat + k)) ∧
      ({ consuming with raced := [5] } : State).raced ≠ [] ∧ consuming.InScratch false 0x187 ∧
      ({ consuming with rotCol := 0 } : State).InSourceRegion 0x105 := by
  unfold State.InScratch State.InSourceRegion
  decide

/-- RotatedPackOneTransposesAtAGroupBoundary: program P2's first PACK1.R, whose ROT_COL is 1. Its clear output and
scratch, and each way to free bytes: an output byte in the scratch, one in a column that is not read, and a scratch byte
in the column. -/
theorem witness_transposes :
    rotating.cancelRequested = false ∧ rotating.raced = [] ∧ rotating.rot.tpValid = true ∧
      rotating.rot.tpBpp4 = false ∧ rotating.rot.tpLeft = 0 ∧ rotating.rot.tpEnd = false ∧
      (∀ j < rotating.width.toNat,
        rotating.srcAddr.toNat + j * rotating.srcStride.toNat + rotating.rotCol.toNat < rotating.params.bufBytes) ∧
      (∀ i < 8 * ((rotating.width.toNat + 7) / 8), rotating.rotAddr.toNat + i < rotating.params.bufBytes) ∧
      (∀ k < (rotating.dbit + rotating.width.toNat + 7) / 8,
        rotating.dstAddr.toNat + k < rotating.params.bufBytes) ∧
      (∀ k < (rotating.dbit + rotating.width.toNat + 7) / 8,
        ¬rotating.InScratch false (rotating.dstAddr.toNat + k) ∧
        ¬rotating.InSourceRegion (rotating.dstAddr.toNat + k)) ∧
      (∀ i < 8 * ((rotating.width.toNat + 7) / 8), ¬rotating.InColumn (rotating.rotAddr.toNat + i)) ∧
      rotating.InScratch false 0x187 ∧ rotating.InSourceRegion 0x104 ∧ ¬rotating.InColumn 0x104 ∧
      rotating.InColumn 0x105 := by
  unfold State.InScratch State.InSourceRegion State.InColumn
  decide

/-- RotatedPackFourTransposesAtAGroupBoundary, both forms: a transpose at the largest TP_SKIP, and the last scratch row
at TP_LEFT = 1 and the first at 2. -/
theorem witness_transposes_4 :
    rotating4.cancelRequested = false ∧ rotating4.raced = [] ∧ rotating4.dbit = 0 ∧
      rotating4.rot.tpValid = true ∧ rotating4.rot.tpBpp4 = true ∧ rotating4.rot.tpLeft = 0 ∧
      rotating4.rot.tpEnd = false ∧ rotating4.rot.tpSkip < 2 ∧
      ({ rotating4 with rotState := 0x301 } : State).rot.tpLeft = 1 ∧
      ({ rotating4 with rotState := 0x302 } : State).rot.tpLeft = 2 ∧
      (∀ j < rotating4.width.toNat, rotating4.srcAddr.toNat + j * rotating4.srcStride.toNat +
        rotating4.rotCol.toNat < rotating4.params.bufBytes) ∧
      (∀ i < 2 * ((rotating4.width.toNat + 1) / 2), rotating4.rotAddr.toNat + i < rotating4.params.bufBytes) ∧
      (0 < rotating4.width.toNat → rotating4.lutAddr.toNat + 1023 < rotating4.params.bufBytes) ∧
      (∀ p < 3, ∀ k < (rotating4.width.toNat + 7) / 8,
        rotating4.dstAddr.toNat + p * rotating4.dstStride.toNat + k < rotating4.params.bufBytes) ∧
      (rotating4.width.toNat + 7) / 8 ≤ rotating4.dstStride.toNat := by decide

/-- RotatedPackFourTransposesAtAGroupBoundary, its output and scratch clear of everything. -/
theorem witness_transposes_4_clear :
    (∀ p < 3, ∀ k < (rotating4.width.toNat + 7) / 8,
      ¬rotating4.InScratch true (rotating4.dstAddr.toNat + p * rotating4.dstStride.toNat + k) ∧
      ¬rotating4.InSourceRegion (rotating4.dstAddr.toNat + p * rotating4.dstStride.toNat + k) ∧
      ¬rotating4.InTable (rotating4.dstAddr.toNat + p * rotating4.dstStride.toNat + k)) ∧
    ∀ i < 2 * ((rotating4.width.toNat + 1) / 2),
      ¬rotating4.InColumn (rotating4.rotAddr.toNat + i) ∧ ¬rotating4.InTable (rotating4.rotAddr.toNat + i) := by
  unfold State.InScratch State.InSourceRegion State.InColumn State.InTable
  exact ⟨by decide +kernel, by decide +kernel⟩

/-- RotatedPackFourTransposesAtAGroupBoundary, each way to free bytes, in both forms: a race, planes that share a byte,
and a plane byte at the end of the scratch, of the source region or of the table; and a scratch byte in the column. -/
theorem witness_transposes_4_free :
    ({ rotating4 with raced := [5] } : State).raced ≠ [] ∧
      ({ rotating4 with dstStride := 0 } : State).dstStride.toNat < (rotating4.width.toNat + 7) / 8 ∧
      rotating4.InScratch true 0x181 ∧ ({ rotating4 with rotFirst := 1 } : State).InSourceRegion 0x102 ∧
      rotating4.InTable 0xFFF ∧ rotating4.InColumn 0x101 := by
  unfold State.InScratch State.InSourceRegion State.InColumn State.InTable
  exact ⟨by decide, by decide, by decide, by decide, ⟨1023, by decide, by decide⟩, by decide⟩

/-- ShiftStageIsTheCarryForm and BoundaryMasksInClosedForm: the largest offsets, two output bytes and one. -/
theorem witness_masks :
    (7 : Nat) ≤ 7 ∧ 2 ≤ (7 + 2 + 7) / 8 ∧ (7 + 1 + 7) / 8 = 1 := by decide

/-- PackOneCompletesAndWritesOnlyItsRow and PackOnePlacesTheSourcePixels: the source row ends at the last byte of the
buffer memory. -/
theorem witness_pack1 :
    packing.cancelRequested = false ∧ packing.raced = [] ∧ 0 < packing.width.toNat ∧
      (∀ j < (packing.sbit + packing.width.toNat + 7) / 8, packing.srcAddr.toNat + j < packing.params.bufBytes) ∧
      (∀ k < (packing.dbit + packing.width.toNat + 7) / 8, packing.dstAddr.toNat + k < packing.params.bufBytes) ∧
      (∀ k < (packing.dbit + packing.width.toNat + 7) / 8, ∀ j < (packing.sbit + packing.width.toNat + 7) / 8,
        packing.dstAddr.toNat + k ≠ packing.srcAddr.toNat + j) ∧
      packing.srcAddr.toNat + 1 = 4095 := by decide

/-- PackFourCompletesAndWritesOnlyItsPlanes and PackFourLooksUpEachPixelPair: the table ends at the last byte of the
buffer memory, and DST_STRIDE is just wide enough. -/
theorem witness_pack4 :
    packing4.cancelRequested = false ∧ packing4.raced = [] ∧ packing4.dbit = 0 ∧ packing4.sbit ≤ 1 ∧
      (0 < packing4.width.toNat → ∀ j < (packing4.sbit + packing4.width.toNat + 1) / 2,
        packing4.srcAddr.toNat + j < packing4.params.bufBytes) ∧
      (0 < packing4.width.toNat → packing4.lutAddr.toNat + 1023 < packing4.params.bufBytes) ∧
      (∀ p < 3, ∀ k < (packing4.width.toNat + 7) / 8,
        packing4.dstAddr.toNat + p * packing4.dstStride.toNat + k < packing4.params.bufBytes) ∧
      (packing4.width.toNat + 7) / 8 ≤ packing4.dstStride.toNat ∧
    ∀ p < 3, ∀ k < (packing4.width.toNat + 7) / 8,
      (∀ j < (packing4.sbit + packing4.width.toNat + 1) / 2,
        packing4.dstAddr.toNat + p * packing4.dstStride.toNat + k ≠ packing4.srcAddr.toNat + j) ∧
      ∀ i < 1024, packing4.dstAddr.toNat + p * packing4.dstStride.toNat + k ≠ packing4.lutAddr.toNat + i := by
  decide +kernel

/-- PackFourCompletesAndWritesOnlyItsPlanes, each way to free bytes: a race, planes that share a byte, a plane byte on
the table's first byte and on its last, and one on the last source byte. -/
theorem witness_pack4_free :
    ({ packing4 with raced := [5] } : State).raced ≠ [] ∧
      ({ packing4 with dstStride := 0 } : State).dstStride.toNat < (packing4.width.toNat + 7) / 8 ∧
      packing4.InTable 0xC00 ∧ packing4.InTable 0xFFF ∧
      (∃ j < (packing4.sbit + packing4.width.toNat + 1) / 2, 0x103 = packing4.srcAddr.toNat + j) :=
  ⟨by decide, by decide, ⟨0, by decide, by decide⟩, ⟨1023, by decide, by decide⟩, by decide⟩

/-- PackFourErrors: DBIT = 1, SBIT = 2, and each address one byte past the buffer memory. -/
theorem witness_pack4_errors :
    packing4.cancelRequested = false ∧ ({ packing4 with offs := 0x100 } : State).dbit ≠ 0 ∧
      1 < ({ packing4 with offs := 2 } : State).sbit ∧ packing4.dbit = 0 ∧ packing4.sbit ≤ 1 ∧
      0 < packing4.width.toNat ∧
      (∃ j < (packing4.sbit + packing4.width.toNat + 1) / 2,
        packing4.params.bufBytes ≤ ({ packing4 with srcAddr := 0xFFD } : State).srcAddr.toNat + j) ∧
      packing4.params.bufBytes ≤ ({ packing4 with lutAddr := 0xC01 } : State).lutAddr.toNat + 1023 ∧
      (∃ p < 3, ∃ k < (packing4.width.toNat + 7) / 8,
        packing4.params.bufBytes ≤
          ({ packing4 with dstAddr := 0xFFE } : State).dstAddr.toNat + p * packing4.dstStride.toNat + k) := by decide

/-- PackFourErrors, PACK4.R: its column, its scratch and the last row of it, its table and its planes, one byte past the
buffer memory. -/
theorem witness_pack4_rotated_errors :
    rotating4.cancelRequested = false ∧ rotating4.dbit = 0 ∧ rotating4.rot.tpValid = true ∧
      rotating4.rot.tpBpp4 = true ∧ rotating4.rot.tpEnd = false ∧
      ({ rotating4 with srcAddr := 0xFFF } : State).RotatedRowPastBuffer true ∧
      ({ rotating4 with rotAddr := 0xFFF } : State).RotatedRowPastBuffer true ∧
      ({ rotating4 with rotState := 0x301, rotAddr := 0xFFF } : State).RotatedRowPastBuffer true ∧
      0 < rotating4.width.toNat ∧
      rotating4.params.bufBytes ≤ ({ rotating4 with lutAddr := 0xC01 } : State).lutAddr.toNat + 1023 ∧
      (∃ p < 3, ∃ k < (rotating4.width.toNat + 7) / 8, rotating4.params.bufBytes ≤
        ({ rotating4 with dstAddr := 0xFFE } : State).dstAddr.toNat + p * rotating4.dstStride.toNat + k) := by
  unfold State.RotatedRowPastBuffer
  decide

/-- CompressInBlockModeGivesNoGain. -/
theorem witness_block :
    (2 : BitVec 2) ≠ 3 ∧ opened.cancelRequested = false ∧ opened.session = true ∧ opened.mode = .block := by decide

/-- CompressOfALongRowDegrades: one byte more than a seed row. -/
theorem witness_long_row :
    ({ opened with cfg := 1, len := 13 } : State).session = true ∧
      ({ opened with cfg := 1, len := 13 } : State).mode ≠ .block ∧
      ({ opened with cfg := 1, len := 13 } : State).params.seedBytes <
        ({ opened with cfg := 1, len := 13 } : State).len.toNat := by decide

/-- A row of a whole seed row's length that equals its seed row. -/
def sameRow : State := compressing (List.replicate 12 0x5A) (List.replicate 12 0x5A) 2

/-- CompressOfTheSeedRowRepeats: a row as long as a seed row, and the empty row. -/
theorem witness_repeat :
    sameRow.cancelRequested = false ∧ sameRow.session = true ∧ sameRow.mode ≠ .block ∧
      sameRow.len.toNat ≤ sameRow.params.seedBytes ∧
      (∀ j < sameRow.len.toNat, sameRow.srcAddr.toNat + j < sameRow.params.bufBytes) ∧
      (∀ j < sameRow.len.toNat,
        Memory.byte sameRow.mem (sameRow.srcAddr.toNat + j) = (sameRow.seed 0).getD j 0) ∧
      (compressing [] [1] 3).len.toNat = 0 := by decide

/-- A zero row whose seed row differs from it in its last byte only. -/
def zeroRow : State := compressing [0, 0, 0] [0, 0, 3] 3

/-- CompressOfAZeroRowSignalsAllZero. -/
theorem witness_all_zero :
    zeroRow.cancelRequested = false ∧ zeroRow.session = true ∧ zeroRow.mode ≠ .block ∧
      zeroRow.len.toNat ≤ zeroRow.params.seedBytes ∧
      (∀ j < zeroRow.len.toNat, zeroRow.srcAddr.toNat + j < zeroRow.params.bufBytes) ∧
      (∀ j < zeroRow.len.toNat, Memory.byte zeroRow.mem (zeroRow.srcAddr.toNat + j) = 0) ∧
      (∃ j < zeroRow.len.toNat, (zeroRow.seed 0).getD j 0 ≠ 0) := by decide

/-- CompressWritesTheWinningCandidate, where Delta wins: useD is true and useK false. -/
theorem witness_winner_delta :
    deltaRow.cancelRequested = false ∧ deltaRow.session = true ∧ deltaRow.mode ≠ .block ∧
      deltaRow.len.toNat ≤ deltaRow.params.seedBytes ∧
      (∀ j < deltaRow.len.toNat, deltaRow.srcAddr.toNat + j < deltaRow.params.bufBytes) ∧
      [0x00, 0x00, 0x00, 0x00, 0x09, 0x00, 0x00, 0x00] =
        (List.range deltaRow.len.toNat).map (fun j => Memory.byte deltaRow.mem (deltaRow.srcAddr.toNat + j)) ∧
      List.replicate 8 0 = (List.range deltaRow.len.toNat).map (fun j => (deltaRow.seed 0).getD j 0) ∧
      [0x04, 0x09] = delta 127 [0x00, 0x00, 0x00, 0x00, 0x09, 0x00, 0x00, 0x00] (List.replicate 8 0) ∧
      [0xFD, 0x00, 0x00, 0x09] = packBits [0x00, 0x00, 0x00, 0x00, 0x09, 0x00, 0x00, 0x00] ∧
      ([0x00, 0x00, 0x00, 0x00, 0x09, 0x00, 0x00, 0x00] : List Byte) ≠ List.replicate 8 0 ∧
      true = (deltaRow.mode != .packBits && decide (2 < deltaRow.len.toNat) &&
        (deltaRow.mode == .delta || decide (deltaRow.len.toNat ≤ 4) || decide (2 < 4) ||
          (2 == 4 && !deltaRow.method))) ∧
      false = (deltaRow.mode != .delta && decide (4 < deltaRow.len.toNat) && !true) ∧
      (∀ j < 2, deltaRow.dstAddr.toNat + j < deltaRow.params.bufBytes) := by decide

/-- CompressWritesTheWinningCandidate, where PackBits wins: useD is false and useK true. -/
theorem witness_winner_packBits :
    packBitsRow.cancelRequested = false ∧ packBitsRow.session = true ∧ packBitsRow.mode ≠ .block ∧
      packBitsRow.len.toNat ≤ packBitsRow.params.seedBytes ∧
      List.replicate 10 0xAA =
        (List.range packBitsRow.len.toNat).map
          (fun j => Memory.byte packBitsRow.mem (packBitsRow.srcAddr.toNat + j)) ∧
      [0xF7, 0xAA] = packBits (List.replicate 10 0xAA) ∧
      List.replicate 10 0 = (List.range packBitsRow.len.toNat).map (fun j => (packBitsRow.seed 0).getD j 0) ∧
      (delta 127 (List.replicate 10 0xAA) (List.replicate 10 0)).length = 12 ∧
      false = (packBitsRow.mode != .packBits && decide (12 < packBitsRow.len.toNat)) ∧
      true = (packBitsRow.mode != .delta && decide (2 < packBitsRow.len.toNat) && !false) ∧
      (∀ j < packBitsRow.len.toNat, packBitsRow.srcAddr.toNat + j < packBitsRow.params.bufBytes) ∧
      (∀ j < 2, packBitsRow.dstAddr.toNat + j < packBitsRow.params.bufBytes) := by decide

/-- `packBitsRow` with its winner's second byte one past the buffer memory. -/
def packBitsHigh : State := { packBitsRow with dstAddr := 0xFFF }

/-- CompressOutOfBoundsRaisesBounds: a scanline, and a winner, one byte past the buffer memory. -/
theorem witness_compress_bounds :
    packBitsRow.cancelRequested = false ∧
      (∃ j < packBitsRow.len.toNat,
        packBitsRow.params.bufBytes ≤ ({ packBitsRow with srcAddr := 0xFF7 } : State).srcAddr.toNat + j) ∧
      packBitsHigh.session = true ∧ packBitsHigh.mode ≠ .block ∧
      packBitsHigh.len.toNat ≤ packBitsHigh.params.seedBytes ∧
      (∀ j < packBitsHigh.len.toNat, packBitsHigh.srcAddr.toNat + j < packBitsHigh.params.bufBytes) ∧
      (∃ j < (compressRow packBitsHigh.params.deltaExtCont packBitsHigh.mode packBitsHigh.method
          ((List.range packBitsHigh.len.toNat).map
            (fun j => Memory.byte packBitsHigh.mem (packBitsHigh.srcAddr.toNat + j)))
          ((List.range packBitsHigh.len.toNat).map (fun j => (packBitsHigh.seed 0).getD j 0))).out.length,
        packBitsHigh.params.bufBytes ≤ packBitsHigh.dstAddr.toNat + j) := by decide

/-- DeltaDecodesToItsRow, EmptyEncodingsAndTrailingZeros, DeltaOffsetExtension: both continuation values, and the
offsets on both sides of 31. -/
theorem witness_codec :
    (127 : Byte) ≠ 0 ∧ (255 : Byte) ≠ 0 ∧ ([5, 6] : List Byte).length = ([5, 7] : List Byte).length ∧
      (1 : Nat) ≤ 8 ∧ (30 : Nat) < 31 ∧ (31 : Nat) ≤ 31 := by decide

/-- CompressedScanlineDecodes, where Delta wins. -/
theorem witness_scanline :
    deltaRow.params.wf = true ∧ deltaRow.err = false ∧ deltaRow.raced = [] ∧
      exec (.compress 0) deltaRow = .next (after (exec (.compress 0) deltaRow)) ∧
      (after (exec (.compress 0) deltaRow)).err = false ∧ (after (exec (.compress 0) deltaRow)).degraded = false ∧
      (∀ j < (after (exec (.compress 0) deltaRow)).resLen.toNat, ∀ i < deltaRow.len.toNat,
        deltaRow.dstAddr.toNat + j ≠ deltaRow.srcAddr.toNat + i) ∧
      [0x04, 0x09] = (List.range (after (exec (.compress 0) deltaRow)).resLen.toNat).map
        (fun j => Memory.byte (after (exec (.compress 0) deltaRow)).mem (deltaRow.dstAddr.toNat + j)) :=
  ⟨by decide, by decide, by decide, next_after _ (by decide), by decide, by decide, by decide, by decide⟩

/-- A command in flight, with a host write to a register before its engine step. -/
def busyWrite (r : Reg) : State := { flying 6 with delay := 1, host := [.wr base.params r 1] }

/-- RegisterWriteWhileBusyIsIgnored: a write of CMD itself, of an operand register, and of the last read-only register
(log 11). -/
theorem witness_busy_write :
    ∀ r ∈ [Reg.cmd, .len, .rotState], (busyWrite r).busy = true ∧ (busyWrite r).engineTurn = false ∧
      r ≠ .ctrl ∧ r ≠ .status ∧ (busyWrite r).host = [.wr (busyWrite r).params r 1] := by decide

/-- CmdWriteIssuesTheWord. -/
theorem witness_cmd_write :
    (hosted (.wr base.params .cmd 0xFFFFFFFF)).busy = false ∧
      (hosted (.wr base.params .cmd 0xFFFFFFFF)).host = [.wr base.params .cmd 0xFFFFFFFF] := by decide

/-- StatusWriteClearsTheError and OperandRegisterHoldsWhatTheHostWrote: idle, and a write of CTRL while BUSY = 1. -/
theorem witness_register_write :
    (hosted (.wr base.params .status 0x8)).engineTurn = false ∧
      (hosted (.wr base.params .rotState 7)).engineTurn = false ∧
      (hosted (.wr base.params .rotState 7)).busy = false ∧ Reg.rotState ≠ .cmd ∧ Reg.rotState ≠ .status ∧
      ({ flying 6 with delay := 1, host := [.wr base.params .ctrl 1] } : State).engineTurn = false := by decide

/-- RegisterReadHasNoSideEffect: the last register, the first unmapped offset and the last offset. -/
theorem witness_register_read :
    (hosted (.regRead (0x1000 + 0x54) 32)).engineTurn = false ∧ 0x54 < 256 ∧ 0x54 % 4 = 0 ∧
      Reg.rotState.offset = 0x54 ∧ 0x58 < 256 ∧ 0xFC < 256 ∧ 0xFC % 4 = 0 := by decide

/-- MeaninglessHostAccessesAreRefused: each of its cases is refused. -/
theorem witness_refused_accesses :
    base.engineTurn = false ∧ 253 < 256 ∧ 253 % 4 ≠ 0 ∧ base.params.bufBytes ≤ 4096 ∧
      refusal (step (hosted (.regRead (0x1000 + 253) 32))) = some .registerAccess ∧
      refusal (step (hosted (.regWrite (0x1000 + 252) 16 0))) = some .registerAccess ∧
      refusal (step (hosted (.bufWrite 4096 0))) = some .bufferAddress ∧
      refusal (step (hosted (.bufRead 4096))) = some .bufferAddress := by decide

/-- HostBufferAccessesWithNothingInFlight, at the last byte. -/
theorem witness_buffer_access :
    (hosted (.bufWrite 4095 7)).busy = false ∧ 4095 < (hosted (.bufWrite 4095 7)).params.bufBytes ∧
      (hosted (.bufRead 4095)).busy = false := by decide

/-- `packing` as the command in flight, with a host action before its engine step. -/
def racing (a : HostAction) : State :=
  { packing with cmd := 0x00000006, status := 0x00000001, delay := 1, host := [a] }

/-- RacingHostAccessesGetFreeValues: a write to the last source byte, and a read of the last output byte. -/
theorem witness_race :
    (racing (.bufWrite 0xFFF 1)).engineTurn = false ∧ 0xFFF < (racing (.bufWrite 0xFFF 1)).params.bufBytes ∧
      0xFFF ∈ (racing (.bufWrite 0xFFF 1)).inFlight.touched ∧
      (racing (.bufRead 0x202)).engineTurn = false ∧ 0x202 ∈ (racing (.bufRead 0x202)).inFlight.written := by decide

end Sys2Proof.Tests
end

section
/-! ## The legal states (00_scope.md): reset is one, and every step keeps them

Each clause of `State.Inv` is first stated as an `↔` that says what it asks of the fields it reads. Then every operation
that commands and host accesses share keeps `State.Inv`; a command is such an operation followed by the end of its engine
step, and a step is a command, or a host access, or nothing. -/

namespace Sys2Proof.Machine

/-! ### STATUS -/

/-- The fields of STATUS, one by one. -/
theorem statusFields_eq_iff (s : State) (busy session cancelled err : Bool) (code : BitVec 4) (degraded : Bool) :
    s.statusFields = (busy, session, cancelled, err, code, degraded) ↔
      s.busy = busy ∧ s.session = session ∧ s.cancelled = cancelled ∧ s.err = err ∧ s.errCode = code ∧
        s.degraded = degraded := by
  simp only [State.statusFields, Prod.mk.injEq]

/-- STATUS at the end of an engine step: the ways 30_encoding.md R91 lists. -/
theorem endStep_cases (s : State) (e : Ending) :
    EndsNormally s (s.endStep e) ∨ EndsDegraded s (s.endStep e) ∨ EndsCancelled s (s.endStep e) ∨
      ∃ c, EndsWithError s (ErrorCode.code c) (s.endStep e) := by
  cases e with
  | normal => exact .inl (endsNormally_finish _ _ rfl)
  | degraded => exact .inr (.inl (endsDegraded_endStep _ _ rfl))
  | cancelled => exact .inr (.inr (.inl (endsCancelled_cancelCommand s)))
  | error c => exact .inr (.inr (.inr ⟨c, endsWithError_raiseError s c⟩))

/-- The end of an engine step clears BUSY. -/
theorem busy_endStep (s : State) (e : Ending) : (s.endStep e).busy = false := by
  rw [State.busy, endStep_status, getLsbD_statusAfter, if_pos rfl]

/-- The end of an engine step keeps SESSION. -/
theorem session_endStep (s : State) (e : Ending) : (s.endStep e).session = s.session := by
  rw [State.session, endStep_status, getLsbD_statusAfter]
  cases e <;> rfl

/-- The end of an engine step keeps the reserved bits of STATUS. -/
theorem statusReserved_endStep (s : State) (e : Ending) : (s.endStep e).statusReserved = s.statusReserved := by
  rcases endStep_cases s e with h | h | h | ⟨c, h⟩
  · exact h.2
  · exact h.2
  · exact h.2.1
  · exact h.2.1

/-- What a legal STATUS is (10_state.md R26, 60_exceptions.md R221). -/
theorem statusLegal_iff (s : State) : s.statusLegal = true ↔
    (s.err = true ↔ s.errCode ≠ 0) ∧ s.errCode.toNat ≤ 7 ∧ (s.cancelled = false ∨ s.degraded = false) := by
  simp only [State.statusLegal, Bool.and_eq_true, beq_iff_eq, decide_eq_true_eq, Bool.not_eq_true',
    Bool.and_eq_false_iff, and_assoc, Bool.eq_iff_iff (b := s.errCode != 0), bne_iff_ne]

/-- An error code is a legal ERRCODE, and not that of no error (60_exceptions.md R221). -/
theorem errorCode_legal (c : ErrorCode) : c.code ≠ 0 ∧ c.code.toNat ≤ 7 := by
  cases c <;> decide

/-- The end of an engine step keeps STATUS legal. -/
theorem statusLegal_endStep (s : State) (e : Ending) (h : s.statusLegal = true) :
    (s.endStep e).statusLegal = true := by
  rw [statusLegal_iff] at h ⊢
  obtain ⟨herr, hcode, -⟩ := h
  rcases endStep_cases s e with ⟨hf, -⟩ | ⟨hf, -⟩ | ⟨hf, -⟩ | ⟨c, hf, -⟩ <;>
    obtain ⟨-, -, hcan, herr', hcode', hdeg⟩ := (statusFields_eq_iff ..).mp hf <;>
    rw [herr', hcode', hcan, hdeg]
  · exact ⟨herr, hcode, .inl rfl⟩
  · exact ⟨herr, hcode, .inl rfl⟩
  · exact ⟨herr, hcode, .inr rfl⟩
  · exact ⟨iff_of_true rfl (errorCode_legal c).1, (errorCode_legal c).2, .inl rfl⟩

/-- STATUS stays legal while bits 2 to 8 are kept. -/
theorem statusLegal_of_bits (s t : State) (h : s.statusLegal = true)
    (hb : ∀ i, 2 ≤ i → i ≤ 8 → t.status.getLsbD i = s.status.getLsbD i) : t.statusLegal = true := by
  have hcode : t.errCode = s.errCode := by
    refine errCode_eq_of_bits _ _ (fun i hi => ?_)
    rw [hb (4 + i) (by omega) (by omega), State.errCode, BitVec.getLsbD_extractLsb']
    simp [hi]
  rw [statusLegal_iff] at h ⊢
  simp only [hcode, State.err, State.cancelled, State.degraded, hb 3 (by omega) (by omega),
    hb 2 (by omega) (by omega), hb 8 (by omega) (by omega)] at h ⊢
  exact h

/-- Bits 0 and 1 of STATUS, BUSY and SESSION, do not matter to its legality. -/
theorem statusLegal_setBit (s t : State) (n : Nat) (b : Bool) (hn : n < 2) (h : s.statusLegal = true)
    (ht : t.status = setBit s.status n b) : t.statusLegal = true := by
  refine statusLegal_of_bits s t h (fun i h2 _ => ?_)
  rw [ht, getLsbD_setBit _ _ _ _ (by omega), if_neg (by omega)]

/-- Setting a bit of STATUS that is not reserved keeps the reserved bits. -/
theorem statusReserved_setBit (v : Word) (n : Nat) (b : Bool) (hn : n < 9) :
    setBit v n b &&& 0xFFFFFE00 = v &&& 0xFFFFFE00 := by
  refine reserved_eq_of_bits _ _ (fun i hi => ?_)
  rw [getLsbD_setBit _ _ _ _ (by omega), if_neg (by omega)]

/-- The fields of STATUS after the host-side BUSY error (60_exceptions.md R222). -/
theorem statusFields_hostBusyError (s : State) :
    s.hostBusyError.statusFields = (s.busy, s.session, s.cancelled, true, ErrorCode.busy.code, s.degraded) := by
  have hcode : s.hostBusyError.errCode = ErrorCode.busy.code := by
    refine errCode_eq_of_bits _ _ (fun i hi => ?_)
    rw [hostBusyError_status, getLsbD_statusWithError, if_neg (by omega), if_pos (by omega), Nat.add_sub_cancel_left]
  simp only [State.statusFields, hcode, State.busy, State.session, State.cancelled, State.err, State.degraded,
    hostBusyError_status, getLsbD_statusWithError]
  rfl

/-- The fields of STATUS after the host's clearing of the error (10_state.md R27). -/
theorem statusFields_clearError (s : State) :
    s.clearError.statusFields = (s.busy, s.session, s.cancelled, false, 0, s.degraded) := by
  have hcode : s.clearError.errCode = 0 := by
    refine errCode_eq_of_bits _ _ (fun i hi => ?_)
    rw [clearError_status, getLsbD_statusWithoutError, if_pos (by omega)]
    exact (BitVec.getLsbD_zero).symm
  simp only [State.statusFields, hcode, State.busy, State.session, State.cancelled, State.err, State.degraded,
    clearError_status, getLsbD_statusWithoutError]
  rfl

/-- The host-side BUSY error leaves STATUS legal. -/
theorem statusLegal_hostBusyError (s : State) (h : s.statusLegal = true) : s.hostBusyError.statusLegal = true := by
  obtain ⟨-, -, hcan, herr, hcode, hdeg⟩ := (statusFields_eq_iff ..).mp (statusFields_hostBusyError s)
  rw [statusLegal_iff] at h ⊢
  obtain ⟨-, -, hflags⟩ := h
  rw [hcan, herr, hcode, hdeg]
  exact ⟨iff_of_true rfl (errorCode_legal .busy).1, (errorCode_legal .busy).2, hflags⟩

/-- The host's clearing of the error leaves STATUS legal. -/
theorem statusLegal_clearError (s : State) (h : s.statusLegal = true) : s.clearError.statusLegal = true := by
  obtain ⟨-, -, hcan, herr, hcode, hdeg⟩ := (statusFields_eq_iff ..).mp (statusFields_clearError s)
  rw [statusLegal_iff] at h ⊢
  obtain ⟨-, -, hflags⟩ := h
  rw [hcan, herr, hcode, hdeg]
  exact ⟨by simp, by decide, hflags⟩

/-! ### Reserved register fields -/

/-- The registers with a reserved field, each with those bits 0 (10_state.md R23 to R47). -/
theorem reservedZero_iff (s : State) : s.reservedZero = true ↔
    s.statusReserved = 0 ∧ s.ctrl &&& ~~~(Reg.fields .ctrl) = 0 ∧ s.cfg &&& ~~~(Reg.fields .cfg) = 0 ∧
      s.offs &&& ~~~(Reg.fields .offs) = 0 ∧ s.resKind &&& ~~~(Reg.fields .resKind) = 0 ∧
      s.act &&& ~~~(Reg.fields .act) = 0 ∧ s.rotState &&& ~~~(Reg.fields .rotState) = 0 := by
  simp [State.reservedZero, Reg.all, Reg.word, Reg.fields, State.statusReserved]

/-- A value stored without its reserved bits has them 0. -/
theorem and_and_not_self (v m : Word) : v &&& m &&& ~~~m = 0 := by
  rw [BitVec.and_assoc, BitVec.and_not_self]
  exact BitVec.and_zero

/-- The ACT word of a method has its reserved bits 0 (10_state.md R44). -/
theorem methodWord_reserved (packBits : Bool) : methodWord packBits &&& ~~~(Reg.fields .act) = 0 := by
  cases packBits <;> decide

/-- ACT after a row has its reserved bits 0 when it had them 0 before (10_state.md R44, 41_compress.md R137). -/
theorem actAfter_reserved (act : Word) (k : ResultKind) (h : act &&& ~~~(Reg.fields .act) = 0) :
    actAfter act k &&& ~~~(Reg.fields .act) = 0 := by
  cases k with
  | delta => exact methodWord_reserved false
  | packBits => exact methodWord_reserved true
  | none => exact h
  | repeatRow => exact h
  | allZero => exact h
  | noGain => exact h

/-! ### ROT_STATE -/

/-- The fields of a rotated sequence that commands can make (43_transpose.md R197 to R199). -/
structure RotState.Legal (r : RotState) : Prop where
  valid : r.tpValid = true
  left : r.tpLeft < groupSize r.tpBpp4
  skip : r.tpSkip < groupSize r.tpBpp4
  once : r.tpLeft = 0 ∨ r.tpSkip = 0

theorem groupSize_pos (bpp4 : Bool) : 0 < groupSize bpp4 := by cases bpp4 <;> decide

theorem groupSize_le (bpp4 : Bool) : groupSize bpp4 ≤ 8 := by cases bpp4 <;> decide

/-- A legal ROT_STATE register is clear or holds a legal sequence. -/
theorem rotLegal_iff (s : State) : s.rotLegal = true ↔ s.rotState = 0 ∨ s.rot.Legal := by
  simp only [State.rotLegal, Bool.or_eq_true, Bool.and_eq_true, beq_iff_eq, decide_eq_true_eq]
  refine or_congr_right ⟨?_, ?_⟩
  · rintro ⟨⟨⟨hv, hl⟩, hk⟩, ho⟩
    exact ⟨hv, hl, hk, ho⟩
  · rintro ⟨hv, hl, hk, ho⟩
    exact ⟨⟨⟨hv, hl⟩, hk⟩, ho⟩

/-- A register that holds the word of a legal sequence is legal. -/
theorem rotLegal_of_word (s : State) (r : RotState) (hr : r.Legal) (hs : s.rotState = r.word) :
    s.rotLegal = true := by
  have := groupSize_le r.tpBpp4
  have hw : s.rot = r := by
    rw [State.rot, hs, ofWord_word r (by have := hr.left; omega) (by have := hr.skip; omega)]
  exact (rotLegal_iff s).mpr (.inr (hw ▸ hr))

/-- ROTSTART sets up a legal sequence (43_transpose.md R197). -/
theorem rotStarted_legal (bpp4 : Bool) (e : Nat) : (rotStarted bpp4 e).Legal := by
  have := groupSize_pos bpp4
  refine ⟨rfl, this, ?_, .inl rfl⟩
  show groupSize bpp4 - 1 - e < groupSize bpp4
  omega

/-- A rotated pack steps a legal sequence to a legal one (43_transpose.md R198, R199). -/
theorem rotPlan_next_legal (bpp4 : Bool) (s : State) (p : RotPlan) (hs : s.rotLegal = true)
    (h : rotPlan bpp4 s = .ok p) : p.next.Legal := by
  have hG := groupSize_pos bpp4
  rcases rotPlan_cases bpp4 s with ⟨-, he⟩ | ⟨-, -, -, -, he⟩ | ⟨-, -, -, -, he⟩ | ⟨hv, -, hl, he⟩ <;> rw [he] at h
  · cases h
  · cases h
  · cases h
    refine ⟨rfl, ?_, hG, .inr rfl⟩
    show groupSize bpp4 - s.rot.tpSkip - 1 < groupSize bpp4
    omega
  · cases h
    rcases (rotLegal_iff s).mp hs with h0 | hr
    · simp [State.rot, h0, RotState.ofWord] at hv
    · refine ⟨hv, ?_, hr.skip, .inr (hr.once.resolve_left (by omega))⟩
      have := hr.left
      show s.rot.tpLeft - 1 < groupSize s.rot.tpBpp4
      omega

/-! ### MASKS and the result registers -/

/-- The AND-masks of a MASKS word are the ones it was made of (10_state.md R45). -/
theorem extract_masksWord (first last : Byte) :
    (masksWord first last).extractLsb' 0 8 = first ∧ (masksWord first last).extractLsb' 8 8 = last := by
  constructor <;>
  · apply BitVec.eq_of_getLsbD_eq
    intro i hi
    simp only [masksWord, BitVec.getLsbD_extractLsb', BitVec.getLsbD_append]
    interval_cases i <;> simp

/-- A pack leaves a legal MASKS word (42_pack.md R168). -/
theorem masksLegal_of_packMasks (s : State) (O W n : Nat) (hs : s.masks = packMasks O W n) :
    s.masksLegal = true := by
  rw [State.masksLegal, beq_iff_eq, hs, packMasks]
  split_ifs
  · decide
  · obtain ⟨hf, hl⟩ := extract_masksWord (andMask O W 0) (andMask O W (n - 1))
    rw [hf, hl]

/-- RES_KIND of an outcome is a legal value, with its reserved bits 0 (10_state.md R40). -/
theorem resultKind_word_legal (k : ResultKind) :
    k.word.toNat ≤ 5 ∧ k.word &&& ~~~(Reg.fields .resKind) = 0 := by
  cases k <;> decide

/-- Only DELTA and PACKBITS write bytes (41_compress.md R139). -/
theorem compressRow_out (K : Byte) (mode : Mode) (method : Bool) (S R : List Byte) :
    (compressRow K mode method S R).kind = .delta ∨ (compressRow K mode method S R).kind = .packBits ∨
      (compressRow K mode method S R).out = [] := by
  rcases compressRow_cases K mode method S R with ⟨-, h⟩ | ⟨-, -, h⟩ | ⟨-, -, h⟩ <;> rw [h]
  · exact .inr (.inr rfl)
  · exact .inr (.inr rfl)
  · rcases selectCandidate_cases method S.length (deltaCandidate K mode S R) (packBitsCandidate mode S) with
      ⟨e, -, -, he⟩ | ⟨e, -, -, he⟩ | he <;> simp [he]

/-- The bytes that replace the seed row are as many as the scanline has (41_compress.md R125, R138). -/
theorem length_seed_compressRow (K : Byte) (mode : Mode) (method : Bool) (S R row : List Byte)
    (h : (compressRow K mode method S R).seed = some row) : row.length = S.length := by
  rcases compressRow_cases K mode method S R with ⟨-, he⟩ | ⟨-, -, he⟩ | ⟨-, -, he⟩ <;> rw [he] at h
  · cases h
  · cases h; simp
  · cases h; rfl

/-! ### Seed rows -/

/-- The rows have `SEED_BYTES` bytes each. -/
theorem seedsSized_iff (s : State) : s.seedsSized = true ↔
    s.seed0.length = s.params.seedBytes ∧ s.seed1.length = s.params.seedBytes ∧
      s.seed2.length = s.params.seedBytes := by
  simp only [State.seedsSized, Bool.and_eq_true, beq_iff_eq, and_assoc]

/-- Zeroed seed rows have their size. -/
theorem seedsSized_zeroSeeds (s : State) : s.zeroSeeds.seedsSized = true := by
  simp [seedsSized_iff]

/-- Zeroed seed rows are zero (40_control.md R102 to R104). -/
theorem seedsZero_zeroSeeds (s : State) : s.zeroSeeds.seedsZero = true := by
  simp [State.seedsZero]

/-- A seed row replaced by one of its size. -/
theorem seedsSized_setSeed (s : State) (p : BitVec 2) (row : List Byte) (h : s.seedsSized = true)
    (hr : row.length = s.params.seedBytes) : (s.setSeed p row).seedsSized = true := by
  rw [seedsSized_iff] at h ⊢
  obtain ⟨h0, h1, h2⟩ := h
  unfold State.setSeed
  split
  · exact ⟨hr, h1, h2⟩
  · exact ⟨h0, hr, h2⟩
  · exact ⟨h0, h1, hr⟩
  · exact ⟨h0, h1, h2⟩

/-- A plane's seed row has `SEED_BYTES` bytes. -/
theorem length_seed (s : State) (p : BitVec 2) (hp : p ≠ 3) (h : s.seedsSized = true) :
    (s.seed p).length = s.params.seedBytes := by
  obtain ⟨h0, h1, h2⟩ := (seedsSized_iff s).mp h
  have hp : p = 0 ∨ p = 1 ∨ p = 2 := by revert p; decide
  rcases hp with rfl | rfl | rfl
  · exact h0
  · exact h1
  · exact h2

/-- The seed-row update of a COMPRESS keeps the size of the rows. -/
theorem seedsSized_updateSeed (s : State) (p : BitVec 2) (new : Option (List Byte)) (hp : p ≠ 3)
    (h : s.seedsSized = true) (hn : ∀ row, new = some row → row.length ≤ s.params.seedBytes) :
    (s.updateSeed p new).seedsSized = true := by
  cases new with
  | none => exact h
  | some row =>
    have hl := length_seed s p hp h
    exact seedsSized_setSeed s p _ h (by rw [length_seedUpdated _ _ (hl ▸ hn row rfl), hl])

/-! ### Raced addresses -/

/-- A raced address is in the buffer memory, and there is one only while BUSY = 1. -/
theorem racedLegal_iff (s : State) : s.racedLegal = true ↔
    (∀ a ∈ s.raced, a < s.params.bufBytes) ∧ (s.busy = true ∨ s.raced = []) := by
  simp [State.racedLegal]

/-! ### A command writes only inside the buffer memory -/

/-- The addresses of a row of writes are in a range that fits. -/
theorem rowCells_below (buf a : Nat) (row : List Byte) (hf : fits buf a row.length = true) :
    ∀ x ∈ (rowCells a row).map (fun c => c.1), x < buf := by
  intro x hx
  rw [map_fst_rowCells, mem_addresses] at hx
  obtain ⟨i, hi, rfl⟩ := hx
  exact (fits_iff _ _ _).mp hf i hi

/-- The addresses of several rows of writes are in rows that fit. -/
theorem rowsCells_below (buf a stride n : Nat) (rows : List (List Byte)) (hl : ∀ r ∈ rows, r.length = n)
    (hf : fitsRows buf a stride rows.length n = true) :
    ∀ x ∈ (rowsCells a stride rows).map (fun c => c.1), x < buf := by
  intro x hx
  obtain ⟨k, hk, i, hi, rfl⟩ := (mem_map_fst_rowsCells a stride n rows hl x).mp hx
  exact (fitsRows_iff _ _ _ _ _).mp hf k hk i hi

/-- Rows with no gap between them are one range. -/
theorem fitsRows_of_fits (buf a rows n : Nat) (h : fits buf a (rows * n) = true) : fitsRows buf a n rows n = true := by
  rw [fits_iff] at h
  refine (fitsRows_iff _ _ _ _ _).mpr (fun k hk i hi => ?_)
  have hkn : (k + 1) * n ≤ rows * n := Nat.mul_le_mul_right n hk
  rw [Nat.add_mul, Nat.one_mul] at hkn
  have := h (k * n + i) (by omega)
  omega

/-- The scratch writes of a plan whose check passes (43_transpose.md R198). -/
theorem scratch_below (p : RotPlan) (bpp4 : Bool) (s : State) (hf : p.fitsMemory bpp4 s = true) :
    ∀ x ∈ (p.scratch bpp4 s).map (fun c => c.1), x < s.params.bufBytes := by
  simp only [RotPlan.fitsMemory, Bool.and_eq_true, Bool.or_eq_true, Bool.not_eq_true'] at hf
  unfold RotPlan.scratch
  split_ifs with ht
  · obtain ⟨-, hfit⟩ := hf.1.resolve_left (by simp [ht])
    refine rowsCells_below _ _ _ _ _ (fun r hr => length_of_mem_transpose bpp4 s.column r hr) ?_
    rw [length_transpose, length_column]
    exact fitsRows_of_fits _ _ _ _ hfit
  · simp

/-- A pack writes its output, and before it the scratch of its rotation plan. -/
theorem written_footprint_below (src : PackSource) (bpp4 : Bool) (s : State) (n : Nat) (tableReads : List Nat)
    (table : List Span) (out : List Host.Cell) (hf : src.fitsMemory bpp4 s = true)
    (ho : ∀ x ∈ out.map (fun c => c.1), x < s.params.bufBytes) :
    ∀ x ∈ (src.footprint bpp4 s n tableReads table out).written, x < s.params.bufBytes := by
  obtain ⟨addr, plan⟩ := src
  cases plan with
  | none => simpa [PackSource.footprint, Footprint.written, Footprint.writes] using ho
  | some p =>
    intro x hx
    rw [PackSource.footprint, Footprint.written, Footprint.writes, List.map_append, List.mem_append] at hx
    exact hx.elim (scratch_below p bpp4 s hf x) (ho x)

/-- What the plan of a pack may do in a legal state: write inside the buffer memory, leave a legal MASKS word, and step
a legal rotated sequence. -/
structure PackPlan.Sound (p : PackPlan) (s : State) : Prop where
  below : ∀ x ∈ p.foot.written, x < s.params.bufBytes
  masks : ∃ O W n, p.masks = packMasks O W n
  rot : s.rotLegal = true → ∀ r, p.rot = some r → r.next.Legal

/-- The plan of a pack's source steps a legal sequence to a legal one. -/
theorem packSource_next_legal (rot bpp4 : Bool) (s : State) (src : PackSource) (h : packSource rot bpp4 s = .ok src)
    (hs : s.rotLegal = true) : ∀ r, src.plan = some r → r.next.Legal := by
  intro r hr
  rcases packSource_cases rot bpp4 s with ⟨-, he⟩ | ⟨-, p, hp, he⟩ | ⟨-, e, -, he⟩ <;> rw [he] at h
  · cases h; cases hr
  · cases h; cases hr
    exact rotPlan_next_legal bpp4 s _ hs hp
  · cases h

theorem pack1Plan_sound (rot inv maskOr : Bool) (s : State) (p : PackPlan)
    (h : pack1Plan rot inv maskOr s = .ok p) : p.Sound s := by
  cases hsrc : packSource rot false s with
  | error e => simp [pack1Plan, hsrc] at h
  | ok src =>
    rw [pack1Plan_of_source _ _ _ _ _ hsrc] at h
    split_ifs at h with hf
    simp only [Bool.and_eq_true] at hf
    obtain ⟨⟨hplan, -⟩, hout⟩ := hf
    cases h
    refine ⟨written_footprint_below _ _ _ _ _ _ _ hplan (rowCells_below _ _ _ ?_), ⟨_, _, _, rfl⟩,
      packSource_next_legal _ _ _ _ hsrc⟩
    rwa [length_row1]

theorem pack4Plan_sound (rot maskOr : Bool) (s : State) (p : PackPlan)
    (h : pack4Plan rot maskOr s = .ok p) : p.Sound s := by
  by_cases hops : pack4Operands rot s = true
  · cases hsrc : packSource rot true s with
    | error e => simp [pack4Plan, hops, hsrc] at h
    | ok src =>
      rw [pack4Plan_of_source _ _ _ _ hops hsrc] at h
      split_ifs at h with hf
      simp only [Bool.and_eq_true] at hf
      obtain ⟨⟨⟨hplan, -⟩, -⟩, hout⟩ := hf
      cases h
      refine ⟨written_footprint_below _ _ _ _ _ _ _ hplan
        (rowsCells_below _ _ _ _ _ (length_of_mem_planes src rot maskOr s) ?_), ⟨_, _, _, rfl⟩,
        packSource_next_legal _ _ _ _ hsrc⟩
      rwa [length_planes]
  · simp [pack4Plan, hops] at h

/-- What the plan of a COMPRESS may do: write inside the buffer memory, replace at most a whole seed row, and write bytes
only for DELTA and PACKBITS. -/
structure CompressPlan.Sound (c : CompressPlan) (s : State) : Prop where
  below : ∀ x ∈ c.foot.written, x < s.params.bufBytes
  seed : ∀ row, c.result.seed = some row → row.length ≤ s.params.seedBytes
  out : c.result.kind = .delta ∨ c.result.kind = .packBits ∨ c.result.out = []

theorem compressPlan_sound (p : BitVec 2) (s : State) (c : CompressPlan) (h : compressPlan p s = .ok c) :
    c.Sound s := by
  rcases compressPlan_cases p s with ⟨-, he⟩ | ⟨-, -, he⟩ | ⟨-, -, -, he⟩ | ⟨-, hlen, -, hout, he⟩ <;>
    rw [he] at h <;> cases h
  · exact ⟨by simp [Footprint.written, Footprint.writes], by simp, .inr (.inr rfl)⟩
  · exact ⟨by simp [Footprint.written, Footprint.writes], by simp, .inr (.inr rfl)⟩
  · refine ⟨rowCells_below _ _ _ ((fits_iff _ _ _).mpr hout), fun row hrow => ?_, compressRow_out _ _ _ _ _⟩
    have hl := length_seed_compressRow _ _ _ _ _ row hrow
    simpa [hl, State.scanline, Memory.bytes] using hlen

/-- Every command writes only inside the buffer memory (20_memory.md R63). -/
theorem written_commandFootprint_below (i : Instr) (s : State) :
    ∀ x ∈ (commandFootprint i s).written, x < s.params.bufBytes := by
  have hnone : ∀ x ∈ Footprint.written {}, x < s.params.bufBytes := by simp [Footprint.written, Footprint.writes]
  cases i with
  | nop => exact hnone
  | openSession => exact hnone
  | closeSession => exact hnone
  | seedClr => exact hnone
  | rotStart b => exact hnone
  | tpose b =>
    simp only [commandFootprint]
    split
    next f hf => exact written_commandFootprint_tpose b s f hf
    next => exact hnone
  | pack1 rot inv maskOr =>
    simp only [commandFootprint]
    cases hp : pack1Plan rot inv maskOr s with
    | ok p => exact (pack1Plan_sound _ _ _ _ _ hp).below
    | error e => exact hnone
  | pack4 rot maskOr =>
    simp only [commandFootprint]
    cases hp : pack4Plan rot maskOr s with
    | ok p => exact (pack4Plan_sound _ _ _ _ hp).below
    | error e => exact hnone
  | compress plane =>
    simp only [commandFootprint, compressFootprint]
    split
    · exact hnone
    · cases hc : compressPlan plane s with
      | ok c => exact (compressPlan_sound _ _ _ hc).below
      | error e =>
        simp only
        split <;> exact hnone

/-- The command in flight writes only inside the buffer memory. -/
theorem written_inFlight_below (s : State) : ∀ x ∈ s.inFlight.written, x < s.params.bufBytes := by
  unfold State.inFlight
  split_ifs
  · split
    · exact written_commandFootprint_below _ s
    · simp [Footprint.written, Footprint.writes]
  · simp [Footprint.written, Footprint.writes]

/-- With nothing in flight no address is touched. -/
theorem busy_of_mem_touched (s : State) (x : Nat) (h : x ∈ s.inFlight.touched) : s.busy = true := by
  by_contra hb
  simp [State.inFlight, hb, Footprint.touched, Footprint.written, Footprint.writes] at h

/-! ### What keeps a state legal -/

/-- Buffer memory rewritten inside its bound, and free bytes drawn. -/
theorem inv_withMem (s : State) (m : Memory) (n : Nat) (h : s.Inv) (hm : Memory.wf m = true)
    (hb : Memory.within s.params.bufBytes m = true) : { s with mem := m, draws := n }.Inv :=
  { h with canonical := hm, within := hb }

/-- Free bytes inside the buffer memory. -/
theorem inv_drawBytes (s : State) (as : List Nat) (h : s.Inv) (ha : ∀ a ∈ as, a < s.params.bufBytes) :
    (s.drawBytes as).Inv := by
  rw [drawBytes_eq]
  exact inv_withMem s _ _ h (wf_drawBytes as s h.canonical) (within_drawBytes _ as s h.within ha)

/-- The writes of a command inside the buffer memory. -/
theorem inv_commit (s : State) (f : Footprint) (h : s.Inv) (hf : ∀ x ∈ f.written, x < s.params.bufBytes) :
    (s.commit f).Inv := by
  rw [commit_eq]
  exact inv_withMem s _ _ h (wf_commit s f h.canonical) (within_commit _ s f h.within hf)

/-- The end of an engine step, with what retiring its command does (30_encoding.md R91): no address is raced after it,
since BUSY is 0. -/
theorem inv_endStep_retire (u : State) (e : Ending) (h : u.Inv) : (u.endStep e).retire.Inv := by
  obtain ⟨hraced, -⟩ := (racedLegal_iff u).mp h.races
  obtain ⟨hstatus, hrest⟩ := (reservedZero_iff u).mp h.reserved
  rw [retire_eq]
  refine { h with
    canonical := wf_drawBytes u.raced (u.endStep e) h.canonical
    within := within_drawBytes _ u.raced (u.endStep e) h.within hraced
    zeroed := fun hs => h.zeroed ((session_endStep u e).symm.trans hs)
    reserved := (reservedZero_iff _).mpr ⟨(statusReserved_endStep u e).trans hstatus, hrest⟩
    status := statusLegal_endStep u e h.status
    races := (racedLegal_iff _).mpr ⟨by simp, .inr rfl⟩ }

/-- SEEDCLR zeroes the seed rows (40_control.md R104). -/
theorem inv_zeroSeeds (s : State) (h : s.Inv) : s.zeroSeeds.Inv :=
  { h with sized := seedsSized_zeroSeeds s, zeroed := fun _ => seedsZero_zeroSeeds s }

/-- SESSION set or cleared, with zero seed rows and METHOD 0: what OPEN writes, and what CLOSE writes with
`rotState` (40_control.md R102, R103). -/
theorem inv_withSession (s : State) (b : Bool) (rotState : Word) (h : s.Inv)
    (hres : rotState &&& ~~~(Reg.fields .rotState) = 0)
    (hrot : ({ s with rotState := rotState } : State).rotLegal = true) :
    { s.zeroSeeds with act := methodWord false, rotState := rotState, status := setBit s.status 1 b }.Inv := by
  obtain ⟨hstatus, hctrl, hcfg, hoffs, hkind, -, -⟩ := (reservedZero_iff s).mp h.reserved
  obtain ⟨hraced, hbusy⟩ := (racedLegal_iff s).mp h.races
  refine { inv_zeroSeeds s h with
    zeroed := fun _ => seedsZero_zeroSeeds s
    reserved := (reservedZero_iff _).mpr
      ⟨(statusReserved_setBit _ 1 b (by omega)).trans hstatus, hctrl, hcfg, hoffs, hkind, methodWord_reserved false,
        hres⟩
    status := statusLegal_setBit s _ 1 b (by omega) h.status rfl
    rotation := hrot
    races := (racedLegal_iff _).mpr ⟨hraced, ?_⟩ }
  rwa [State.busy, getLsbD_setBit _ _ _ _ (by omega), if_neg (by omega)]

theorem inv_opened (s : State) (h : s.Inv) : s.opened.Inv := by
  obtain ⟨-, -, -, -, -, -, hrot⟩ := (reservedZero_iff s).mp h.reserved
  exact inv_withSession s true s.rotState h hrot h.rotation

theorem inv_closed (s : State) (h : s.Inv) : s.closed.Inv :=
  inv_withSession s false 0 h (by decide) ((rotLegal_iff _).mpr (.inl rfl))

/-- ROT_STATE written with a legal sequence, and ROT_COL and `c0`, which nothing constrains: what ROTSTART and a rotated
pack write (43_transpose.md R197, R198). -/
theorem inv_withRot (s : State) (r : RotState) (col first : Word) (h : s.Inv) (hr : r.Legal) :
    { s with rotState := r.word, rotCol := col, rotFirst := first }.Inv := by
  obtain ⟨hstatus, hctrl, hcfg, hoffs, hkind, hact, -⟩ := (reservedZero_iff s).mp h.reserved
  exact { h with
    reserved := (reservedZero_iff _).mpr ⟨hstatus, hctrl, hcfg, hoffs, hkind, hact, word_reserved r⟩
    rotation := rotLegal_of_word _ r hr rfl }

/-- MASKS and PACK_LEN after a pack (42_pack.md R168). -/
theorem inv_withMasks (s : State) (O W n : Nat) (packLen : Word) (h : s.Inv) :
    { s with masks := packMasks O W n, packLen := packLen }.Inv := by
  have hreserved := (reservedZero_iff s).mp h.reserved
  exact { h with
    reserved := (reservedZero_iff _).mpr hreserved
    masks := masksLegal_of_packMasks _ O W n rfl }

/-- The writes of a pack (42_pack.md R167, R175). -/
theorem inv_commitPack (s : State) (p : PackPlan) (h : s.Inv) (hp : p.Sound s) : (s.commitPack p).Inv := by
  obtain ⟨O, W, n, hmasks⟩ := hp.masks
  have hpacked := inv_withMasks _ O W n p.packLen (inv_commit s p.foot h hp.below)
  rw [← hmasks] at hpacked
  unfold State.commitPack
  cases hr : p.rot with
  | none => exact hpacked
  | some r => exact inv_withRot _ r.next r.nextCol _ hpacked (hp.rot h.rotation r hr)

/-- The seed-row update of a COMPRESS in a session (41_compress.md R138). -/
theorem inv_updateSeed (s : State) (p : BitVec 2) (new : Option (List Byte)) (h : s.Inv) (hp : p ≠ 3)
    (hs : s.session = true) (hn : ∀ row, new = some row → row.length ≤ s.params.seedBytes) :
    (s.updateSeed p new).Inv := by
  have hsized := seedsSized_updateSeed s p new hp h.sized hn
  rw [updateSeed_eq] at hsized ⊢
  exact { h with sized := hsized, zeroed := fun h0 => absurd (hs.symm.trans h0) (by decide) }

/-- The result registers and ACT after a row (41_compress.md R121, R137). -/
theorem inv_setResult (s : State) (r : RowResult) (h : s.Inv)
    (ho : r.kind = .delta ∨ r.kind = .packBits ∨ r.out = []) : (s.setResult r).Inv := by
  obtain ⟨hstatus, hctrl, hcfg, hoffs, -, hact, hrot⟩ := (reservedZero_iff s).mp h.reserved
  obtain ⟨hle, hkind⟩ := resultKind_word_legal r.kind
  refine { h with
    reserved := (reservedZero_iff _).mpr
      ⟨hstatus, hctrl, hcfg, hoffs, hkind, actAfter_reserved _ _ hact, hrot⟩
    result := ?_ }
  simp only [State.resultLegal, Bool.and_eq_true, Bool.or_eq_true, decide_eq_true_eq, beq_iff_eq]
  refine ⟨hle, ?_⟩
  rcases ho with hk | hk | hnil
  · exact .inl (.inl (congrArg ResultKind.word hk))
  · exact .inl (.inr (congrArg ResultKind.word hk))
  · exact .inr (congrArg (fun out => BitVec.ofNat 32 (List.length out)) hnil)

/-- The writes of a COMPRESS in a session (41_compress.md R121). -/
theorem inv_commitRow (s : State) (p : BitVec 2) (c : CompressPlan) (h : s.Inv) (hp : p ≠ 3)
    (hs : s.session = true) (hc : c.Sound s) : (s.commitRow p c).Inv := by
  have hcommit := inv_commit s c.foot h hc.below
  have hsession : (s.commit c.foot).session = true := by rwa [State.session, commit_status]
  have hseed := inv_updateSeed _ p c.result.seed hcommit hp hsession (by rw [commit_params]; exact hc.seed)
  exact inv_setResult _ _ hseed hc.out

/-! ### Every command -/

/-- A command makes its writes, which keep the state legal, and then ends its engine step. -/
def EndsFromLegal (t : State) : Prop := ∃ u e, t = State.endStep u e ∧ u.Inv

/-- An error or a cancel ends the step of a legal state that nothing has written. -/
theorem endsFromLegal_endStep (s : State) (e : Ending) (h : s.Inv) : EndsFromLegal (s.endStep e) := ⟨s, e, rfl, h⟩

/-- A cancellable command ends from a legal state when its run does. -/
theorem endsFromLegal_unlessCancelled (s run : State) (h : s.Inv) (hr : EndsFromLegal run) :
    EndsFromLegal (s.unlessCancelled run) := by
  unfold State.unlessCancelled
  split_ifs
  · exact endsFromLegal_endStep s _ h
  · exact hr

/-- Every command in a legal state ends its engine step from a legal state. -/
theorem exec_endsFromLegal (i : Instr) (s t : State) (hs : s.Inv) (h : exec i s = .next t) : EndsFromLegal t := by
  have herr (c : ErrorCode) : EndsFromLegal (s.raiseError c) := endsFromLegal_endStep s _ hs
  cases i with
  | nop => cases h; exact endsFromLegal_endStep s _ hs
  | openSession =>
    cases h
    refine endsFromLegal_unlessCancelled s _ hs ?_
    split_ifs
    · exact herr _
    · exact endsFromLegal_endStep _ _ (inv_opened s hs)
  | closeSession =>
    cases h
    split_ifs
    · exact endsFromLegal_endStep _ _ (inv_closed s hs)
    · exact herr _
  | seedClr =>
    cases h
    split_ifs
    · exact endsFromLegal_endStep _ _ (inv_zeroSeeds s hs)
    · exact herr _
  | tpose b =>
    cases h
    refine endsFromLegal_unlessCancelled s _ hs ?_
    cases hp : tposePlan b s with
    | error e => exact herr e
    | ok f => exact endsFromLegal_endStep _ _ (inv_commit s f hs (written_commandFootprint_tpose b s f hp))
  | rotStart b =>
    cases h
    refine endsFromLegal_unlessCancelled s _ hs ?_
    split_ifs
    · exact herr _
    · exact endsFromLegal_endStep _ _ (inv_withRot s _ s.rotCol s.rotCol hs (rotStarted_legal b s.sbit))
  | pack1 rot inv maskOr =>
    cases h
    refine endsFromLegal_unlessCancelled s _ hs ?_
    cases hp : pack1Plan rot inv maskOr s with
    | error e => exact herr e
    | ok p => exact endsFromLegal_endStep _ _ (inv_commitPack s p hs (pack1Plan_sound _ _ _ s p hp))
  | pack4 rot maskOr =>
    cases h
    refine endsFromLegal_unlessCancelled s _ hs ?_
    cases hp : pack4Plan rot maskOr s with
    | error e => exact herr e
    | ok p => exact endsFromLegal_endStep _ _ (inv_commitPack s p hs (pack4Plan_sound _ _ s p hp))
  | compress plane =>
    cases h
    split_ifs with hplane hsession
    · exact herr _
    · refine endsFromLegal_unlessCancelled s _ hs ?_
      cases hp : compressPlan plane s with
      | error e => exact herr e
      | ok c =>
        exact endsFromLegal_endStep _ _ (inv_commitRow s plane c hs hplane hsession (compressPlan_sound _ s c hp))
    · exact endsFromLegal_unlessCancelled s _ hs (herr _)

/-- The engine step of a command keeps a legal state legal. -/
theorem inv_exec_retire (i : Instr) (s t : State) (hs : s.Inv) (h : exec i s = .next t) : t.retire.Inv := by
  obtain ⟨u, e, rfl, hu⟩ := exec_endsFromLegal i s t hs h
  exact inv_endStep_retire u e hu

/-! ### Every host access -/

/-- Taking an action off the host's list. -/
theorem inv_hostTurn (s : State) (rest : List HostAction) (h : s.Inv) : (s.hostTurn rest).Inv := { h with }

/-- A value the host receives. -/
theorem inv_receive (s : State) (v : Word) (h : s.Inv) : (s.receive v).Inv := { h with }

/-- A STATUS word that is legal, with the BUSY and SESSION of before. -/
theorem inv_withStatus (s : State) (v : Word) (h : s.Inv) (hv : ({ s with status := v } : State).statusLegal = true)
    (hb : v.getLsbD 0 = s.busy) (hs : v.getLsbD 1 = s.session) (hr : v &&& 0xFFFFFE00 = s.statusReserved) :
    { s with status := v }.Inv := by
  obtain ⟨hstatus, hrest⟩ := (reservedZero_iff s).mp h.reserved
  obtain ⟨hraced, hbusy⟩ := (racedLegal_iff s).mp h.races
  exact { h with
    zeroed := fun h0 => h.zeroed (hs.symm.trans h0)
    reserved := (reservedZero_iff _).mpr ⟨hr.trans hstatus, hrest⟩
    status := hv
    races := (racedLegal_iff _).mpr ⟨hraced, hbusy.imp_left hb.trans⟩ }

theorem inv_hostBusyError (s : State) (h : s.Inv) : s.hostBusyError.Inv := by
  obtain ⟨hbusy, hsession, -⟩ := (statusFields_eq_iff ..).mp (statusFields_hostBusyError s)
  refine inv_withStatus s _ h (statusLegal_hostBusyError s h.status) hbusy hsession
    (reserved_eq_of_bits _ _ (fun i hi => ?_))
  rw [getLsbD_statusWithError, if_neg (by omega), if_neg (by omega)]

theorem inv_clearError (s : State) (h : s.Inv) : s.clearError.Inv := by
  obtain ⟨hbusy, hsession, -⟩ := (statusFields_eq_iff ..).mp (statusFields_clearError s)
  refine inv_withStatus s _ h (statusLegal_clearError s h.status) hbusy hsession
    (reserved_eq_of_bits _ _ (fun i hi => ?_))
  rw [getLsbD_statusWithoutError, if_neg (by omega)]

/-- An accepted command sets BUSY (10_state.md R25). -/
theorem inv_acceptCommand (s : State) (w : Word) (h : s.Inv) : (s.acceptCommand w).Inv := by
  obtain ⟨hstatus, hrest⟩ := (reservedZero_iff s).mp h.reserved
  obtain ⟨hraced, -⟩ := (racedLegal_iff s).mp h.races
  refine { h with
    zeroed := fun h0 => h.zeroed ?_
    reserved := (reservedZero_iff _).mpr ⟨(statusReserved_setBit _ 0 true (by omega)).trans hstatus, hrest⟩
    status := statusLegal_setBit s _ 0 true (by omega) h.status rfl
    races := (racedLegal_iff _).mpr ⟨hraced, .inl ?_⟩ }
  · rwa [State.session, acceptCommand_status, getLsbD_setBit _ _ _ _ (by omega), if_neg (by omega)] at h0
  · rw [State.busy, acceptCommand_status, getLsbD_setBit _ _ _ _ (by omega), if_pos rfl]

/-- CTRL written without its reserved bits (10_state.md R28). -/
theorem inv_withCtrl (s : State) (v : Word) (h : s.Inv) : { s with ctrl := v &&& Reg.fields .ctrl }.Inv := by
  obtain ⟨hstatus, -, hrest⟩ := (reservedZero_iff s).mp h.reserved
  exact { h with reserved := (reservedZero_iff _).mpr ⟨hstatus, and_and_not_self v _, hrest⟩ }

/-- A stored operand register, CFG and OFFS without their reserved bits (20_memory.md R67, 10_state.md R23). -/
theorem inv_storeReg (s : State) (r : Reg) (v : Word) (h : s.Inv) : (s.storeReg r v).Inv := by
  obtain ⟨hstatus, hctrl, hcfg, hoffs, hrest⟩ := (reservedZero_iff s).mp h.reserved
  cases r with
  | cfg =>
    exact { h with reserved := (reservedZero_iff _).mpr ⟨hstatus, hctrl, and_and_not_self v _, hoffs, hrest⟩ }
  | offs =>
    exact { h with reserved := (reservedZero_iff _).mpr ⟨hstatus, hctrl, hcfg, and_and_not_self v _, hrest⟩ }
  | srcAddr | srcStride | dstAddr | dstStride | width | rotAddr | rotCol | lutAddr | len =>
    exact { h with reserved := (reservedZero_iff _).mpr ⟨hstatus, hctrl, hcfg, hoffs, hrest⟩ }
  | resKind | resLen | dsize | psize | act | masks | packLen | rotState | cmd | status | ctrl => exact h

/-- A host write to a register. -/
theorem inv_hostWrite (s : State) (r : Reg) (v : Word) (h : s.Inv) : (s.hostWrite r v).Inv := by
  rcases hostWrite_cases s r v with ⟨-, he⟩ | ⟨-, -, he⟩ | ⟨-, -, he⟩ | ⟨-, -, -, he⟩ | ⟨-, -, he⟩ | ⟨-, -, -, -, he⟩ <;>
    rw [he]
  · exact inv_withCtrl s v h
  · exact inv_clearError s h
  · exact h
  · exact inv_hostBusyError s h
  · exact inv_acceptCommand s v h
  · exact inv_storeReg s r v h

/-- A host byte write that races with the command in flight (20_memory.md R71): the bytes drawn and the address noted are
in the buffer memory, and BUSY is 1. -/
theorem inv_race (s : State) (x : Nat) (h : s.Inv) (hx : x < s.params.bufBytes) (ht : x ∈ s.inFlight.touched) :
    { s.drawBytes (s.inFlight.written ++ [x]) with raced := x :: s.raced }.Inv := by
  obtain ⟨hraced, -⟩ := (racedLegal_iff s).mp h.races
  have hdrawn : ∀ a ∈ s.inFlight.written ++ [x], a < s.params.bufBytes := by
    simpa [or_imp, forall_and] using And.intro (written_inFlight_below s) hx
  have hbusy : (s.drawBytes (s.inFlight.written ++ [x])).busy = true := by
    rw [State.busy, drawBytes_status]
    exact busy_of_mem_touched s x ht
  refine { inv_drawBytes s _ h hdrawn with races := (racedLegal_iff _).mpr ⟨?_, .inl hbusy⟩ }
  simpa using ⟨hx, hraced⟩

/-- The state after a reset is legal whatever the registers, the seed rows and the races were
(70_reset_and_hazards.md R250). -/
theorem inv_afterReset (s : State) (hp : s.params.wf = true) (hm : Memory.wf s.mem = true)
    (hb : Memory.within s.params.bufBytes s.mem = true) : s.afterReset.Inv where
  params := hp
  canonical := hm
  within := hb
  sized := seedsSized_zeroSeeds s
  zeroed := fun _ => seedsZero_zeroSeeds s
  reserved := (reservedZero_iff _).mpr ((reservedZero_iff State.reset).mp (by decide))
  status := (by decide : State.reset.statusLegal = true)
  result := (by decide : State.reset.resultLegal = true)
  masks := (by decide : State.reset.masksLegal = true)
  rotation := (by decide : State.reset.rotLegal = true)
  races := (racedLegal_iff _).mpr ⟨List.forall_mem_nil _, .inr rfl⟩

/-- A host action keeps a legal state legal. -/
theorem inv_hostStep (a : HostAction) (rest : List HostAction) (s t : State) (hs : s.Inv)
    (h : hostStep a rest s = .next t) : t.Inv := by
  have hturn := inv_hostTurn s rest hs
  rcases hostStep_cases a rest s t h with rfl | ⟨r, v, rfl⟩ | ⟨v, rfl⟩ | ⟨x, v, hx, -, rfl⟩ | ⟨x, hx, ht, rfl⟩ |
    ⟨v, rfl⟩ | ⟨-, rfl⟩ | ⟨-, rfl⟩
  · exact hturn
  · exact inv_hostWrite _ r v hturn
  · exact inv_receive _ v hturn
  · exact inv_withMem _ _ _ hturn (wf_write _ x v hs.canonical) (within_write _ _ x v hs.within hx)
  · exact inv_race _ x hturn hx ht
  · exact { hs with }
  · exact { hs with }
  · exact inv_afterReset _ hturn.params hturn.canonical hturn.within

/-! ### The statements -/

/-- Settles O13: a step is the engine step of an illegal word, that of a command, nothing, or a host action. -/
theorem everyStepKeepsTheStateLegal : Obligations.EveryStepKeepsTheStateLegal := by
  unfold Obligations.EveryStepKeepsTheStateLegal
  intro s t hs hstep
  rcases step_cases s with ⟨-, e, -, he⟩ | ⟨-, i, u, -, hu, he⟩ | ⟨-, -, he⟩ | ⟨-, a, rest, -, he⟩ <;>
    rw [he] at hstep
  · cases hstep
    exact inv_endStep_retire s _ hs
  · cases hstep
    exact inv_exec_retire i s u hs hu
  · cases hstep
    exact hs
  · exact inv_hostStep a rest s t hs hstep

/-- Settles O12: the reset state is what a reset leaves of itself. -/
theorem resetStateIsLegal : Obligations.ResetStateIsLegal :=
  inv_afterReset State.reset (by decide) rfl rfl

end Sys2Proof.Machine
end

section
/-! ## SESSION and the seed rows (10_state.md R26, R48, R49), and the registers that only the host writes (R24)

What a command does to SESSION and the seed rows is said once, in `SeedEffect`: five commands keep both, and each of OPEN,
CLOSE, SEEDCLR and COMPRESS has its own case. A step then keeps both, or is the engine step of such a command, or is a
reset; the rules of R26, R48 and R49 are read off that. -/

namespace Sys2Proof.Machine

/-! ### What keeps SESSION and the seed rows -/

/-- The three seed rows (10_state.md R48). -/
def State.seeds (s : State) : List Byte × List Byte × List Byte := (s.seed0, s.seed1, s.seed2)

/-- SESSION and the seed rows are as before. -/
structure KeepsSession (s t : State) : Prop where
  session : t.session = s.session
  seeds : t.seeds = s.seeds

theorem keepsSession_refl (s : State) : KeepsSession s s := ⟨rfl, rfl⟩

theorem KeepsSession.trans {s t u : State} (h : KeepsSession s t) (h' : KeepsSession t u) : KeepsSession s u :=
  ⟨h'.session.trans h.session, h'.seeds.trans h.seeds⟩

/-- Whether every seed byte is 0 is read from the seed rows alone. -/
theorem seedsZero_of_seeds_eq {s t : State} (h : t.seeds = s.seeds) : t.seedsZero = s.seedsZero := by
  simp only [State.seeds, Prod.mk.injEq] at h
  obtain ⟨h0, h1, h2⟩ := h
  simp only [State.seedsZero, h0, h1, h2]

/-- A seed row of zeros is the row that zeroing writes (40_control.md R102). -/
theorem eq_replicate_of_all_zero (row : List Byte) (n : Nat) (hz : row.all (fun b => b == 0) = true)
    (hn : row.length = n) : List.replicate n 0 = row :=
  (List.eq_replicate_iff.mpr ⟨hn, by simpa using hz⟩).symm

/-- Zeroing seed rows that are zero, and of their size, changes none of them. -/
theorem seeds_zeroSeeds_of_zero (s : State) (hz : s.seedsZero = true) (hs : s.seedsSized = true) :
    s.zeroSeeds.seeds = s.seeds := by
  obtain ⟨hs0, hs1, hs2⟩ := (seedsSized_iff s).mp hs
  simp only [State.seedsZero, Bool.and_eq_true] at hz
  obtain ⟨⟨hz0, hz1⟩, hz2⟩ := hz
  exact Prod.ext (eq_replicate_of_all_zero _ _ hz0 hs0)
    (Prod.ext (eq_replicate_of_all_zero _ _ hz1 hs1) (eq_replicate_of_all_zero _ _ hz2 hs2))

/-- The end of an engine step keeps what the command kept before it. -/
theorem KeepsSession.endStep {s u : State} (h : KeepsSession s u) (e : Ending) : KeepsSession s (u.endStep e) :=
  h.trans ⟨session_endStep u e, rfl⟩

theorem keepsSession_retire (s : State) : KeepsSession s s.retire := by
  rw [retire_eq]
  exact ⟨rfl, rfl⟩

theorem keepsSession_drawBytes (s : State) (as : List Nat) : KeepsSession s (s.drawBytes as) := by
  rw [drawBytes_eq]
  exact ⟨rfl, rfl⟩

theorem keepsSession_commit (s : State) (f : Footprint) : KeepsSession s (s.commit f) := by
  rw [commit_eq]
  exact ⟨rfl, rfl⟩

theorem keepsSession_commitPack (s : State) (p : PackPlan) : KeepsSession s (s.commitPack p) := by
  rw [commitPack_eq]
  exact ⟨rfl, rfl⟩

theorem keepsSession_storeReg (s : State) (r : Reg) (v : Word) : KeepsSession s (s.storeReg r v) := by
  cases r <;> exact ⟨rfl, rfl⟩

/-- An accepted command keeps SESSION: it sets BUSY only (10_state.md R25). -/
theorem keepsSession_acceptCommand (s : State) (w : Word) : KeepsSession s (s.acceptCommand w) := by
  refine ⟨?_, rfl⟩
  rw [State.session, acceptCommand_status, getLsbD_setBit _ _ _ _ (by omega), if_neg (by omega)]
  rfl

/-- No host write to a register reaches SESSION or a seed row (10_state.md R26, R48). -/
theorem keepsSession_hostWrite (s : State) (r : Reg) (v : Word) : KeepsSession s (s.hostWrite r v) := by
  rcases hostWrite_cases s r v with ⟨-, he⟩ | ⟨-, -, he⟩ | ⟨-, -, he⟩ | ⟨-, -, -, he⟩ | ⟨-, -, he⟩ | ⟨-, -, -, -, he⟩ <;>
    rw [he]
  · exact ⟨rfl, rfl⟩
  · obtain ⟨-, hsession, -⟩ := (statusFields_eq_iff ..).mp (statusFields_clearError s)
    exact ⟨hsession, rfl⟩
  · exact keepsSession_refl s
  · obtain ⟨-, hsession, -⟩ := (statusFields_eq_iff ..).mp (statusFields_hostBusyError s)
    exact ⟨hsession, rfl⟩
  · exact keepsSession_acceptCommand s v
  · exact keepsSession_storeReg s r v

/-- A host action that is not refused keeps SESSION and the seed rows, unless it is a reset. -/
theorem hostStep_keepsSession (a : HostAction) (rest : List HostAction) (s t : State)
    (h : hostStep a rest s = .next t) :
    KeepsSession s t ∨ (a = .reset ∧ t = (s.hostTurn rest).afterReset) := by
  have hturn : KeepsSession s (s.hostTurn rest) := ⟨rfl, rfl⟩
  rcases hostStep_cases a rest s t h with rfl | ⟨r, v, rfl⟩ | ⟨v, rfl⟩ | ⟨x, v, -, -, rfl⟩ | ⟨x, -, -, rfl⟩ |
    ⟨v, rfl⟩ | ⟨-, rfl⟩ | hreset
  · exact .inl hturn
  · exact .inl (hturn.trans (keepsSession_hostWrite _ r v))
  · exact .inl ⟨rfl, rfl⟩
  · exact .inl ⟨rfl, rfl⟩
  · have hdraw := keepsSession_drawBytes (s.hostTurn rest) ((s.hostTurn rest).inFlight.written ++ [x])
    exact .inl ⟨hdraw.session, hdraw.seeds⟩
  · exact .inl ⟨rfl, rfl⟩
  · exact .inl ⟨rfl, rfl⟩
  · exact .inr hreset

/-! ### What a command does to SESSION and the seed rows -/

/-- What a command that leads from `s` to `t` can have done to SESSION and the seed rows (40_control.md R102 to R104,
41_compress.md R138). -/
inductive SeedEffect (s t : State) : Instr → Prop where
  /-- Every command that is none of the next four, and each of those when it is cancelled or ends in an error. -/
  | keeps {i : Instr} (h : KeepsSession s t) : SeedEffect s t i
  | opens (before : s.session = false) (after : t.session = true) (rows : t.seeds = s.zeroSeeds.seeds) :
      SeedEffect s t .openSession
  | closes (before : s.session = true) (rows : t.seeds = s.zeroSeeds.seeds) : SeedEffect s t .closeSession
  | clears (before : s.session = true) (after : t.session = true) (rows : t.seeds = s.zeroSeeds.seeds) :
      SeedEffect s t .seedClr
  | compresses {p : BitVec 2} (before : s.session = true) (after : t.session = true) : SeedEffect s t (.compress p)

/-- What follows a command and keeps SESSION and the seed rows does not add to its effect. -/
theorem SeedEffect.trans_keeps {s t u : State} {i : Instr} (h : SeedEffect s t i) (hu : KeepsSession t u) :
    SeedEffect s u i := by
  cases h with
  | keeps h => exact .keeps (h.trans hu)
  | opens before after rows => exact .opens before (hu.session.trans after) (hu.seeds.trans rows)
  | closes before rows => exact .closes before (hu.seeds.trans rows)
  | clears before after rows => exact .clears before (hu.session.trans after) (hu.seeds.trans rows)
  | compresses before after => exact .compresses before (hu.session.trans after)

theorem seedEffect_unlessCancelled (i : Instr) (s run : State) (h : SeedEffect s run i) :
    SeedEffect s (s.unlessCancelled run) i := by
  unfold State.unlessCancelled
  split_ifs
  · exact .keeps ((keepsSession_refl s).endStep _)
  · exact h

/-- OPEN sets SESSION (40_control.md R102). -/
theorem session_opened (s : State) : s.opened.session = true := by
  rw [State.session, State.opened, getLsbD_setBit _ _ _ _ (by omega), if_pos rfl]

/-- A COMPRESS does not touch STATUS before the end of its step (41_compress.md R121). -/
theorem session_commitRow (s : State) (p : BitVec 2) (c : CompressPlan) :
    (s.commitRow p c).session = s.session := by
  simp [State.session, State.commitRow]

/-- What every command does to SESSION and the seed rows. -/
theorem exec_seedEffect (i : Instr) (s t : State) (h : exec i s = .next t) : SeedEffect s t i := by
  have hends (e : Ending) : SeedEffect s (s.endStep e) i := .keeps ((keepsSession_refl s).endStep e)
  cases i with
  | nop => cases h; exact hends _
  | openSession =>
    cases h
    refine seedEffect_unlessCancelled _ s _ ?_
    split_ifs with hsession
    · exact hends _
    · exact .opens (by simpa using hsession) ((session_endStep _ _).trans (session_opened s)) rfl
  | closeSession =>
    cases h
    split_ifs with hsession
    · exact .closes hsession rfl
    · exact hends _
  | seedClr =>
    cases h
    split_ifs with hsession
    · exact .clears hsession ((session_endStep _ _).trans hsession) rfl
    · exact hends _
  | tpose b =>
    cases h
    refine seedEffect_unlessCancelled _ s _ ?_
    cases tposePlan b s with
    | error e => exact hends _
    | ok f => exact .keeps ((keepsSession_commit s f).endStep _)
  | rotStart b =>
    cases h
    refine seedEffect_unlessCancelled _ s _ ?_
    split_ifs
    · exact hends _
    · have hrot : KeepsSession s { s with rotState := (rotStarted b s.sbit).word, rotFirst := s.rotCol } := ⟨rfl, rfl⟩
      exact .keeps (hrot.endStep _)
  | pack1 rot inv maskOr =>
    cases h
    refine seedEffect_unlessCancelled _ s _ ?_
    cases pack1Plan rot inv maskOr s with
    | error e => exact hends _
    | ok p => exact .keeps ((keepsSession_commitPack s p).endStep _)
  | pack4 rot maskOr =>
    cases h
    refine seedEffect_unlessCancelled _ s _ ?_
    cases pack4Plan rot maskOr s with
    | error e => exact hends _
    | ok p => exact .keeps ((keepsSession_commitPack s p).endStep _)
  | compress plane =>
    cases h
    split_ifs with hplane hsession
    · exact hends _
    · refine seedEffect_unlessCancelled _ s _ ?_
      cases compressPlan plane s with
      | error e => exact hends _
      | ok c => exact .compresses hsession ((session_endStep _ _).trans ((session_commitRow s plane c).trans hsession))
    · exact seedEffect_unlessCancelled _ s _ (hends _)

/-- A command that leaves the machine outside a session leaves zero seed rows, when the rule of 10_state.md R49 held
before it. -/
theorem SeedEffect.zeroed {s t : State} {i : Instr} (h : SeedEffect s t i) (hs : s.session = false → s.seedsZero = true)
    (ht : t.session = false) : t.seedsZero = true := by
  cases h with
  | keeps h => rw [seedsZero_of_seeds_eq h.seeds, hs (h.session.symm.trans ht)]
  | closes before rows => rw [seedsZero_of_seeds_eq rows, seedsZero_zeroSeeds]
  | opens before after rows => simp [after] at ht
  | clears before after rows => simp [after] at ht
  | compresses before after => simp [after] at ht

/-- Outside a session, and with zero seed rows of their size, no command changes a seed row (10_state.md R49). -/
theorem SeedEffect.seeds_of_noSession {s t : State} {i : Instr} (h : SeedEffect s t i) (hs : s.session = false)
    (hz : s.seedsZero = true) (hsized : s.seedsSized = true) : t.seeds = s.seeds := by
  cases h with
  | keeps h => exact h.seeds
  | opens before after rows => exact rows.trans (seeds_zeroSeeds_of_zero s hz hsized)
  | closes before rows => simp [hs] at before
  | clears before after rows => simp [hs] at before
  | compresses before after => simp [hs] at before

/-- Only OPEN and CLOSE change SESSION (10_state.md R26). -/
theorem SeedEffect.eq_of_session_ne {s t : State} {i : Instr} (h : SeedEffect s t i) (hne : t.session ≠ s.session) :
    i = .openSession ∨ i = .closeSession := by
  cases h with
  | keeps h => exact absurd h.session hne
  | opens => exact .inl rfl
  | closes => exact .inr rfl
  | clears before after => exact absurd (after.trans before.symm) hne
  | compresses before after => exact absurd (after.trans before.symm) hne

/-- Only OPEN, CLOSE, SEEDCLR and COMPRESS change a seed row (10_state.md R48). -/
theorem SeedEffect.eq_of_seeds_ne {s t : State} {i : Instr} (h : SeedEffect s t i) (hne : t.seeds ≠ s.seeds) :
    i = .openSession ∨ i = .closeSession ∨ i = .seedClr ∨ ∃ p, i = .compress p := by
  cases h with
  | keeps h => exact absurd h.seeds hne
  | opens => exact .inl rfl
  | closes => exact .inr (.inl rfl)
  | clears => exact .inr (.inr (.inl rfl))
  | compresses => exact .inr (.inr (.inr ⟨_, rfl⟩))

/-! ### One step -/

/-- What one step does to SESSION and the seed rows: it keeps them, or is the engine step of a command, or a reset. -/
theorem step_seedEffect (s t : State) (h : step s = .next t) :
    KeepsSession s t ∨
    (s.engineTurn = true ∧ ∃ i, decode s.cmd = .ok i ∧ SeedEffect s t i) ∨
    (s.engineTurn = false ∧ ∃ rest, s.host = .reset :: rest ∧ t = (s.hostTurn rest).afterReset) := by
  rcases step_cases s with ⟨-, e, -, he⟩ | ⟨hturn, i, u, hi, hu, he⟩ | ⟨-, -, he⟩ | ⟨hturn, a, rest, ha, he⟩ <;>
    rw [he] at h
  · cases h
    exact .inl (((keepsSession_refl s).endStep _).trans (keepsSession_retire _))
  · cases h
    exact .inr (.inl ⟨hturn, i, hi, (exec_seedEffect i s u hu).trans_keeps (keepsSession_retire u)⟩)
  · cases h
    exact .inl (keepsSession_refl s)
  · rcases hostStep_keepsSession a rest s t h with hk | ⟨rfl, ht⟩
    · exact .inl hk
    · exact .inr (.inr ⟨hturn, rest, ha, ht⟩)

/-- Every engine step, of an illegal word too, ends once in a state that keeps what a command keeps, and is retired
(30_encoding.md R91). -/
theorem engineStep_ends (s t : State) (hturn : s.engineTurn = true) (h : step s = .next t) :
    ∃ u e, t = (State.endStep u e).retire ∧ CommandKeeps s u := by
  rcases step_cases s with ⟨-, e, -, he⟩ | ⟨-, i, u, -, hu, he⟩ | ⟨hf, -⟩ | ⟨hf, -⟩
  · cases he.symm.trans h
    exact ⟨s, _, rfl, commandKeeps_refl s⟩
  · cases he.symm.trans h
    obtain ⟨w, e, rfl, hk⟩ := exec_ends i s u hu
    exact ⟨w, e, rfl, hk⟩
  · simp [hf] at hturn
  · simp [hf] at hturn

/-! ### The statements -/

/-- Settles O14: reset is legal, and the rest is read off what a step and a command do to SESSION and the seed rows. -/
theorem seedRowsAreZeroOutsideASession : Obligations.SeedRowsAreZeroOutsideASession := by
  refine ⟨⟨rfl, resetStateIsLegal.zeroed rfl⟩, ?_, ?_⟩
  · intro s t hs hstep ht
    rcases step_seedEffect s t hstep with hk | ⟨-, i, -, he⟩ | ⟨-, rest, -, rfl⟩
    · rw [seedsZero_of_seeds_eq hk.seeds, hs (hk.session.symm.trans ht)]
    · exact he.zeroed hs ht
    · exact seedsZero_zeroSeeds s
  · intro i s t hs hz hsized hexec
    simpa [State.seeds] using (exec_seedEffect i s t hexec).seeds_of_noSession hs hz hsized

/-- Settles O8: an engine step keeps what a command keeps. -/
theorem engineKeepsTheHostsRegisters : Obligations.EngineKeepsTheHostsRegisters := by
  intro s t hturn hstep
  obtain ⟨u, e, rfl, hk⟩ := engineStep_ends s t hturn hstep
  rw [retire_eq]
  exact ⟨hk.cmd, hk.ctrl, hk.cfg, hk.srcAddr, hk.srcStride, hk.dstAddr, hk.dstStride, hk.width, hk.offs, hk.rotAddr,
    hk.lutAddr, hk.len, hk.params⟩

/-- Settles O15. -/
theorem onlyOpenCloseAndResetChangeSession : Obligations.OnlyOpenCloseAndResetChangeSession := by
  intro s t hstep hne
  rcases step_seedEffect s t hstep with hk | ⟨hturn, i, hi, he⟩ | ⟨hturn, rest, hrest, -⟩
  · exact absurd hk.session hne
  · refine .inl ⟨hturn, ?_⟩
    rw [hi]
    simpa using he.eq_of_session_ne hne
  · exact .inr ⟨hturn, rest, hrest⟩

/-- Settles O16. -/
theorem onlySeedCommandsChangeSeedRows : Obligations.OnlySeedCommandsChangeSeedRows := by
  intro s t hstep hne
  rcases step_seedEffect s t hstep with hk | ⟨hturn, i, hi, he⟩ | ⟨hturn, rest, hrest, -⟩
  · exact absurd hk.seeds hne
  · refine .inl ⟨hturn, ?_⟩
    rw [hi]
    simpa using he.eq_of_seeds_ne hne
  · exact .inr ⟨hturn, rest, hrest⟩

end Sys2Proof.Machine
end

section
/-! ## Register accesses and reset (10_state.md R23 to R28, 60_exceptions.md R222, 70_reset_and_hazards.md R250)

A register access reaches the register at its offset, so a step that takes one is `State.hostWrite`, or a word received.
What `State.hostWrite` leaves in each register and in STATUS is then said once, and the rules are read off that. -/

namespace Sys2Proof.Machine

/-! ### The register map -/

/-- The offset of a register leads back to it (10_state.md R24). -/
theorem ofOffset_offset (r : Reg) : Reg.ofOffset r.offset = some r := by cases r <;> rfl

/-- The registers lie below 0x58, at multiples of 4 (10_state.md R23, R24). -/
theorem offset_lt_and_aligned (r : Reg) : r.offset < 0x58 ∧ r.offset % 4 = 0 := by cases r <;> decide

/-- From 0x58 up no register is mapped (10_state.md R23). -/
theorem ofOffset_unmapped (offset : Nat) (h : 0x58 ≤ offset) : Reg.ofOffset offset = none := by
  rw [Reg.ofOffset, List.find?_eq_none]
  intro r _
  have := (offset_lt_and_aligned r).1
  simp only [beq_iff_eq]
  omega

/-- An aligned 32-bit access in the register space reaches the register at its offset (10_state.md R23). -/
theorem regAccess_aligned (p : Params) (offset : Nat) (h : offset < 256) (ha : offset % 4 = 0) :
    regAccess p (p.regBase + offset) 32 = .ok (Reg.ofOffset offset) := by
  unfold regAccess
  rw [if_neg (by omega), Nat.add_sub_cancel_left, if_neg (by omega)]

/-- Any other access in the register space has no meaning (10_state.md R23). -/
theorem regAccess_meaningless (p : Params) (offset bits : Nat) (h : offset < 256)
    (ha : bits ≠ 32 ∨ offset % 4 ≠ 0) : regAccess p (p.regBase + offset) bits = .error .registerAccess := by
  unfold regAccess
  rw [if_neg (by omega), Nat.add_sub_cancel_left, if_pos ha]

/-! ### One host action -/

/-- With nothing in flight it is not the engine's turn. -/
theorem engineTurn_of_not_busy (s : State) (h : s.busy = false) : s.engineTurn = false := by
  simp [State.engineTurn, h]

/-- When the host moves, it moves with any other action on its list too. -/
theorem engineTurn_withHost (s : State) (a : HostAction) (rest : List HostAction) (h : s.engineTurn = false) :
    State.engineTurn { s with host := a :: rest } = false := by
  simp only [State.engineTurn, Bool.and_eq_false_iff, Bool.or_eq_false_iff] at h ⊢
  exact h.imp_right (fun ⟨hdelay, _⟩ => ⟨hdelay, rfl⟩)

/-- In the host's turn, a step is the host's next action. -/
theorem step_host (s : State) (a : HostAction) (rest : List HostAction) (hturn : s.engineTurn = false)
    (h : s.host = a :: rest) : step s = hostStep a rest s := by
  simp [step, hturn, h]

/-- `WR` writes the register it names (30_encoding.md R89). -/
theorem step_wr (s : State) (r : Reg) (v : Word) (rest : List HostAction) (hturn : s.engineTurn = false)
    (h : s.host = .wr s.params r v :: rest) : step s = .next ((s.hostTurn rest).hostWrite r v) := by
  obtain ⟨hlt, halign⟩ := offset_lt_and_aligned r
  have hreach := regAccess_aligned s.params r.offset (by omega) halign
  rw [ofOffset_offset] at hreach
  rw [step_host s _ rest hturn h]
  simp only [HostAction.wr, hostStep, hostRegWrite, hreach]
  rfl

/-- An aligned 32-bit read returns the word of the register at its offset, and 0 where there is none
(10_state.md R23). -/
theorem hostRegRead_aligned (s : State) (offset : Nat) (hlt : offset < 256) (halign : offset % 4 = 0) :
    hostRegRead s (s.params.regBase + offset) 32 = .next (s.receive ((Reg.ofOffset offset).elim 0 s.readReg)) := by
  rw [hostRegRead, regAccess_aligned s.params offset hlt halign]
  cases Reg.ofOffset offset <;> rfl

/-- Taking an action off the host's list changes no register. -/
theorem readReg_hostTurn (s : State) (rest : List HostAction) : (s.hostTurn rest).readReg = s.readReg := by
  funext r
  cases r <;> rfl

/-- A read has every reserved bit 0 (10_state.md R23). -/
theorem readReg_reserved (s : State) (r : Reg) : s.readReg r &&& ~~~r.fields = 0 := and_and_not_self _ _

/-! ### What a register write leaves -/

/-- STATUS once a command is accepted: BUSY is set (10_state.md R25). -/
theorem statusFields_acceptCommand (s : State) (w : Word) :
    (s.acceptCommand w).statusFields = (true, s.session, s.cancelled, s.err, s.errCode, s.degraded) := by
  have hbit (i : Nat) (hi : i ≠ 0) : (s.acceptCommand w).status.getLsbD i = s.status.getLsbD i := by
    rw [acceptCommand_status, getLsbD_setBit _ _ _ _ (by omega), if_neg hi]
  have hbusy : (s.acceptCommand w).busy = true := by
    rw [State.busy, acceptCommand_status, getLsbD_setBit _ _ _ _ (by omega), if_pos rfl]
  have hcode : (s.acceptCommand w).errCode = s.errCode := by
    refine errCode_eq_of_bits _ _ (fun i hi => ?_)
    rw [hbit _ (by omega), State.errCode, BitVec.getLsbD_extractLsb']
    simp [hi]
  exact (statusFields_eq_iff ..).mpr
    ⟨hbusy, hbit 1 (by omega), hbit 2 (by omega), hbit 3 (by omega), hcode, hbit 8 (by omega)⟩

theorem statusReserved_acceptCommand (s : State) (w : Word) :
    (s.acceptCommand w).statusReserved = s.statusReserved := statusReserved_setBit _ 0 true (by omega)

theorem statusReserved_hostBusyError (s : State) : s.hostBusyError.statusReserved = s.statusReserved :=
  reserved_eq_of_bits _ _ (fun i hi => by
    rw [hostBusyError_status, getLsbD_statusWithError, if_neg (by omega), if_neg (by omega)])

theorem statusReserved_clearError (s : State) : s.clearError.statusReserved = s.statusReserved :=
  reserved_eq_of_bits _ _ (fun i hi => by rw [clearError_status, getLsbD_statusWithoutError, if_neg (by omega)])

/-- The read-only registers: a host write to one is ignored (10_state.md R23, R24). -/
def Reg.readOnly : Reg → Bool
  | .resKind | .resLen | .dsize | .psize | .act | .masks | .packLen | .rotState => true
  | .cmd | .status | .ctrl | .cfg | .srcAddr | .srcStride | .dstAddr | .dstStride | .width | .offs | .rotAddr | .rotCol
  | .lutAddr | .len => false

theorem readOnly_iff (r : Reg) : r.readOnly = true ↔
    r = .resKind ∨ r = .resLen ∨ r = .dsize ∨ r = .psize ∨ r = .act ∨ r = .masks ∨ r = .packLen ∨ r = .rotState := by
  cases r <;> decide

/-- A stored word reads back without its reserved bits. -/
theorem and_and_self (v m : Word) : v &&& m &&& m = v &&& m := by
  rw [BitVec.and_assoc, BitVec.and_self]

/-- Storing into a register changes no other. -/
theorem readReg_storeReg_of_ne (s : State) (r r' : Reg) (v : Word) (h : r' ≠ r) :
    (s.storeReg r v).readReg r' = s.readReg r' := by
  cases r <;> cases r' <;> simp [State.storeReg, State.readReg, Reg.word] at h ⊢

/-- A read-only register ignores a write (10_state.md R23). -/
theorem storeReg_of_readOnly (s : State) (r : Reg) (v : Word) (h : r.readOnly = true) : s.storeReg r v = s := by
  cases r with
  | resKind | resLen | dsize | psize | act | masks | packLen | rotState => rfl
  | _ => cases h

/-- An operand register reads back what is stored in it, without the reserved bits (20_memory.md R67). -/
theorem readReg_storeReg_self (s : State) (r : Reg) (v : Word) (hro : r.readOnly = false) (hcmd : r ≠ .cmd)
    (hstatus : r ≠ .status) (hctrl : r ≠ .ctrl) : (s.storeReg r v).readReg r = v &&& r.fields := by
  cases r with
  | cmd | status | ctrl => contradiction
  | resKind | resLen | dsize | psize | act | masks | packLen | rotState => cases hro
  | cfg | offs => exact and_and_self v _
  | srcAddr | srcStride | dstAddr | dstStride | width | rotAddr | rotCol | lutAddr | len => rfl

/-- CTRL reads back its one field, and no other register changes (10_state.md R28). -/
theorem readReg_withCtrl (s : State) (v : Word) (r : Reg) :
    State.readReg { s with ctrl := v &&& Reg.fields .ctrl } r =
      if r = .ctrl then v &&& Reg.fields .ctrl else s.readReg r := by
  cases r with
  | ctrl => exact and_and_self v _
  | _ => rfl

/-- With BUSY = 1 a write to a register other than CTRL and STATUS is the host-side error (60_exceptions.md R222). -/
theorem hostWrite_of_busy (s : State) (r : Reg) (v : Word) (hb : s.busy = true) (hctrl : r ≠ .ctrl)
    (hstatus : r ≠ .status) : s.hostWrite r v = s.hostBusyError := by
  rw [State.hostWrite, if_neg hctrl, if_neg hstatus, if_pos hb]

/-- With BUSY = 0 a write to CMD is accepted (10_state.md R25). -/
theorem hostWrite_cmd (s : State) (w : Word) (hb : s.busy = false) : s.hostWrite .cmd w = s.acceptCommand w := by
  rw [State.hostWrite, if_neg (by decide), if_neg (by decide), if_neg (ne_true_of_eq_false hb), if_pos rfl]

/-- A write to STATUS clears the error when bit 3 of the value is set (10_state.md R27). -/
theorem hostWrite_status (s : State) (v : Word) :
    s.hostWrite .status v = if v.getLsbD 3 then s.clearError else s := by
  rw [State.hostWrite, if_neg (by decide), if_pos rfl]

/-- What every register reads after a host write to CTRL, or with BUSY = 0 to a register other than CMD and STATUS
(10_state.md R23, R28). -/
theorem readReg_hostWrite (s : State) (r r' : Reg) (v : Word) (hb : s.busy = false ∨ r = .ctrl) (hcmd : r ≠ .cmd)
    (hstatus : r ≠ .status) :
    (s.hostWrite r v).readReg r' = if r' = r ∧ r.readOnly = false then v &&& r.fields else s.readReg r' := by
  rcases hostWrite_cases s r v with ⟨rfl, he⟩ | ⟨h, -⟩ | ⟨h, -⟩ | ⟨hctrl, -, hbusy, -⟩ | ⟨h, -⟩ | ⟨hctrl, -, -, -, he⟩
  · rw [he]
    exact (readReg_withCtrl s v r').trans (by simp [Reg.readOnly])
  · exact absurd h hstatus
  · exact absurd h hstatus
  · exact absurd hbusy (by simp [hb.resolve_right hctrl])
  · exact absurd h hcmd
  · rw [he]
    split_ifs with h
    · obtain ⟨rfl, hro⟩ := h
      exact readReg_storeReg_self s r' v hro hcmd hstatus hctrl
    · by_cases hr : r' = r
      · rw [storeReg_of_readOnly s r v (by simpa [hr] using h)]
      · exact readReg_storeReg_of_ne s r r' v hr

theorem mem_storeReg (s : State) (r : Reg) (v : Word) : (s.storeReg r v).mem = s.mem := by cases r <;> rfl

/-- A host write to a register writes no buffer byte. -/
theorem mem_hostWrite (s : State) (r : Reg) (v : Word) : (s.hostWrite r v).mem = s.mem := by
  rcases hostWrite_cases s r v with ⟨-, he⟩ | ⟨-, -, he⟩ | ⟨-, -, he⟩ | ⟨-, -, -, he⟩ | ⟨-, -, he⟩ | ⟨-, -, -, -, he⟩ <;>
    simp [he, mem_storeReg]

/-- The bits of each register the host writes, CMD and STATUS aside (10_state.md R28, R29, R35). -/
theorem and_fields (r : Reg) (v : Word) (hro : r.readOnly = false) (hstatus : r ≠ .status) :
    v &&& r.fields =
      if r = .ctrl then v &&& 0x00000001 else if r = .cfg then v &&& 0x00000003
      else if r = .offs then v &&& 0x00000707 else v := by
  cases r with
  | status => contradiction
  | resKind | resLen | dsize | psize | act | masks | packLen | rotState => cases hro
  | ctrl | cfg | offs => rfl
  | cmd | srcAddr | srcStride | dstAddr | dstStride | width | rotAddr | rotCol | lutAddr | len => exact BitVec.and_allOnes

/-! ### Reset -/

/-- The reset value of each register (10_state.md R24). -/
theorem readReg_reset (r : Reg) : State.reset.readReg r =
    if r = .dsize ∨ r = .psize then 0xFFFFFFFF else if r = .masks then 0xFFFF0000 else 0 := by
  cases r <;> rfl

/-- A reset gives every register the value it has at power-up (70_reset_and_hazards.md R250). -/
theorem readReg_afterReset (s : State) : s.afterReset.readReg = State.reset.readReg := by
  funext r
  cases r <;> rfl

/-! ### The statements -/

/-- Settles O56: a step is the register write, and what each register then reads is `readReg_hostWrite`. -/
theorem operandRegisterHoldsWhatTheHostWrote : Obligations.OperandRegisterHoldsWhatTheHostWrote := by
  intro s r v rest hturn hb hcmd hstatus h
  have hread (r' : Reg) := readReg_hostWrite (s.hostTurn rest) r r' v hb hcmd hstatus
  simp only [readReg_hostTurn] at hread
  have hseeds := (keepsSession_hostWrite (s.hostTurn rest) r v).seeds
  refine ⟨_, step_wr s r v rest hturn h, fun r' hr => ?_, ?_, mem_hostWrite _ r v, ?_⟩
  · rw [hread, if_neg (fun hc => hr hc.1)]
  · rw [hread]
    simp only [← readOnly_iff]
    cases hro : r.readOnly
    · simpa using and_fields r v hro hstatus
    · simp
  · simp only [State.seeds, Prod.mk.injEq] at hseeds
    exact hseeds

/-- Settles O10: a reset leaves the registers of power-up, and zero seed rows. -/
theorem resetGivesEveryRegisterItsValue : Obligations.ResetGivesEveryRegisterItsValue := by
  intro s rest hturn h
  refine ⟨(s.hostTurn rest).afterReset, step_host s _ rest hturn h, fun r => ?_, seedsZero_zeroSeeds s,
    seedsSized_zeroSeeds s, rfl, rfl⟩
  rw [readReg_afterReset, readReg_reset]

/-- Settles O11: the power-up state is legal and outside a session, so its seed rows are zero. -/
theorem resetStateHoldsTheResetValues : Obligations.ResetStateHoldsTheResetValues :=
  ⟨readReg_reset, resetStateIsLegal.zeroed rfl, resetStateIsLegal.sized, rfl⟩

/-- Settles O53: the write is the host-side BUSY error. -/
theorem registerWriteWhileBusyIsIgnored : Obligations.RegisterWriteWhileBusyIsIgnored := by
  intro s r v rest hbusy hturn hctrl hstatus h
  have hstep := step_wr s r v rest hturn h
  rw [hostWrite_of_busy (s.hostTurn rest) r v hbusy hctrl hstatus] at hstep
  have hfields := statusFields_hostBusyError (s.hostTurn rest)
  rw [show (s.hostTurn rest).busy = true from hbusy] at hfields
  exact ⟨_, hstep, hfields, statusReserved_hostBusyError _, rfl⟩

/-- Settles O54: the write is the accepted command. -/
theorem cmdWriteIssuesTheWord : Obligations.CmdWriteIssuesTheWord := by
  intro s w rest hbusy h
  have hstep := step_wr s .cmd w rest (engineTurn_of_not_busy s hbusy) h
  rw [hostWrite_cmd (s.hostTurn rest) w hbusy] at hstep
  exact ⟨_, hstep, rfl, statusFields_acceptCommand _ w, statusReserved_acceptCommand _ w, rfl⟩

/-- Settles O55: bit 3 of the value decides between clearing the error and nothing at all. -/
theorem statusWriteClearsTheError : Obligations.StatusWriteClearsTheError := by
  intro s v rest hturn h
  have hstep := step_wr s .status v rest hturn h
  rw [hostWrite_status] at hstep
  refine ⟨_, hstep, ?_⟩
  split_ifs
  · exact ⟨statusReserved_clearError _, statusFields_clearError _, rfl⟩
  · exact ⟨rfl, rfl, rfl⟩

/-- Settles O57: the value read is the word of the register at the offset, if there is one. -/
theorem registerReadHasNoSideEffect : Obligations.RegisterReadHasNoSideEffect := by
  intro s offset rest hturn hlt halign h
  refine ⟨(Reg.ofOffset offset).elim 0 s.readReg, ?_, fun r hr => ?_, fun hge => ?_⟩
  · rw [step_host s _ rest hturn h, ← readReg_hostTurn s rest]
    exact hostRegRead_aligned (s.hostTurn rest) offset hlt halign
  · rw [← hr, ofOffset_offset]
    exact ⟨rfl, readReg_reserved s r⟩
  · rw [ofOffset_unmapped offset hge]
    rfl

/-- Settles O58: the register accesses are refused on their form, the buffer accesses on their address. -/
theorem meaninglessHostAccessesAreRefused : Obligations.MeaninglessHostAccessesAreRefused := by
  intro s offset bits a v b rest hturn hlt hform ha
  have hstep (x : HostAction) : step { s with host := x :: rest } = hostStep x rest { s with host := x :: rest } :=
    step_host _ x rest (engineTurn_withHost s x rest hturn) rfl
  have hreg := regAccess_meaningless s.params offset bits hlt hform
  refine ⟨?_, ?_, ?_, ?_⟩ <;> rw [hstep]
  · simp only [hostStep, hostRegWrite, hreg]
  · simp only [hostStep, hostRegRead, hreg]
  · exact if_pos ha
  · exact if_pos ha

end Sys2Proof.Machine
end

section
/-! ## Host accesses to buffer memory (20_memory.md R62, R67, R70, R71)

Which bytes a command in flight touches does not depend on the host's list, so a buffer access is judged in the state
the step begins in: it either races with the command, or is a plain access to one byte. -/

namespace Sys2Proof.Machine

/-! ### The command in flight -/

/-- Taking an action off the host's list changes nothing of the command in flight. -/
theorem inFlight_hostTurn (s : State) (rest : List HostAction) : (s.hostTurn rest).inFlight = s.inFlight := rfl

/-- With BUSY = 0 no byte is touched. -/
theorem touched_inFlight_of_not_busy (s : State) (h : s.busy = false) : s.inFlight.touched = [] := by
  simp [State.inFlight, h, Footprint.touched, Footprint.written, Footprint.writes]

/-- With BUSY = 0 no byte is written. -/
theorem written_inFlight_of_not_busy (s : State) (h : s.busy = false) : s.inFlight.written = [] := by
  simp [State.inFlight, h, Footprint.written, Footprint.writes]

/-! ### One buffer access -/

/-- A host write to a byte that no command in flight touches stores the byte (20_memory.md R67). -/
theorem hostBufWrite_of_clear (s : State) (a : Nat) (b : Byte) (ha : a < s.params.bufBytes)
    (h : a ∉ s.inFlight.touched) : hostBufWrite s a b = .next { s with mem := Memory.write s.mem a b } := by
  rw [hostBufWrite, if_neg (by omega), if_neg (by simpa using h)]

/-- A host write to a byte that the command in flight touches draws that byte and every byte the command writes
(20_memory.md R71; log 6). -/
theorem hostBufWrite_of_race (s : State) (a : Nat) (b : Byte) (ha : a < s.params.bufBytes)
    (h : a ∈ s.inFlight.touched) : hostBufWrite s a b =
      .next { s.drawBytes (s.inFlight.written ++ [a]) with raced := a :: s.raced } := by
  rw [hostBufWrite, if_neg (by omega), if_pos (by simpa using h)]

/-- A host read of a byte that no command in flight writes returns the byte (20_memory.md R67). -/
theorem hostBufRead_of_clear (s : State) (a : Nat) (ha : a < s.params.bufBytes) (h : a ∉ s.inFlight.written) :
    hostBufRead s a = .next (s.receive ((Memory.byte s.mem a).setWidth 32)) := by
  rw [hostBufRead, if_neg (by omega), if_neg (by simpa using h)]

/-- A host read of a byte that the command in flight writes returns a free value (20_memory.md R71). -/
theorem hostBufRead_of_race (s : State) (a : Nat) (ha : a < s.params.bufBytes) (h : a ∈ s.inFlight.written) :
    hostBufRead s a =
      .next ({ s with draws := s.draws + 1 }.receive ((Config.freeByte s.draws).setWidth 32)) := by
  rw [hostBufRead, if_neg (by omega), if_pos (by simpa using h)]

/-! ### The statements -/

/-- Settles O59: with BUSY = 0 no access can be a race. -/
theorem hostBufferAccessesWithNothingInFlight : Obligations.HostBufferAccessesWithNothingInFlight := by
  intro s a b rest hbusy ha
  have hturn := engineTurn_of_not_busy s hbusy
  refine ⟨fun h => ⟨{ s.hostTurn rest with mem := Memory.write s.mem a b }, ?_,
    fun a' => byte_write s.mem a a' b, rfl⟩, fun h => ?_⟩
  · rw [step_host s _ rest hturn h]
    exact hostBufWrite_of_clear (s.hostTurn rest) a b ha
      (by simp [touched_inFlight_of_not_busy (s.hostTurn rest) hbusy])
  · rw [step_host s _ rest hturn h]
    exact hostBufRead_of_clear (s.hostTurn rest) a ha (by simp [written_inFlight_of_not_busy (s.hostTurn rest) hbusy])

/-- Settles O60: a racing write draws the bytes the command writes and then the byte written; a racing read draws the
value it returns. -/
theorem racingHostAccessesGetFreeValues : Obligations.RacingHostAccessesGetFreeValues := by
  intro s a b rest hturn ha
  refine ⟨fun h htouched => ?_, fun h hwritten => ?_⟩
  · have hdrawn (a' : Nat) : a' ∈ s.inFlight.written ++ [a] ↔ a' = a ∨ a' ∈ s.inFlight.written := by
      simp [or_comm]
    refine ⟨{ (s.hostTurn rest).drawBytes (s.inFlight.written ++ [a]) with raced := a :: s.raced }, ?_,
      fun a' h' => byte_drawBytes_of_mem _ (s.hostTurn rest) a' ((hdrawn a').mpr h'),
      fun a' hne hnot => byte_drawBytes_of_not_mem _ (s.hostTurn rest) a'
        (fun hmem => ((hdrawn a').mp hmem).elim hne hnot), ?_⟩
    · rw [step_host s _ rest hturn h]
      exact hostBufWrite_of_race (s.hostTurn rest) a b ha htouched
    · rw [drawBytes_eq]
      rfl
  · rw [step_host s _ rest hturn h]
    exact hostBufRead_of_race (s.hostTurn rest) a ha hwritten

end Sys2Proof.Machine
end

section
/-! ## TPOSE, PACK1 and PACK4 that end in an error (20_memory.md R63, 42_pack.md R167, R175, 43_transpose.md R196, R198)

Each of the three computes a plan and then writes it, so a command whose plan is an error ends with that error on the
state it began with. What is left is to say when a range check fails: at one address at or past BUF_BYTES. -/

namespace Sys2Proof.Machine

/-! ### A command is its plan -/

/-- A TPOSE whose plan is an error ends with it. -/
theorem exec_tpose_error (bpp4 : Bool) (s : State) (e : ErrorCode) (hc : s.cancelRequested = false)
    (h : tposePlan bpp4 s = .error e) : ∃ t, exec (.tpose bpp4) s = .next t ∧ EndsWithError s e.code t :=
  ⟨s.raiseError e, by simp only [exec, execTpose, unlessCancelled_of_not _ _ hc, h], endsWithError_raiseError s e⟩

/-- A PACK1 whose plan is an error ends with it. -/
theorem exec_pack1_error (rot inv maskOr : Bool) (s : State) (e : ErrorCode) (hc : s.cancelRequested = false)
    (h : pack1Plan rot inv maskOr s = .error e) :
    ∃ t, exec (.pack1 rot inv maskOr) s = .next t ∧ EndsWithError s e.code t :=
  ⟨s.raiseError e, by simp only [exec, execPack1, unlessCancelled_of_not _ _ hc, h], endsWithError_raiseError s e⟩

/-- A PACK4 whose plan is an error ends with it. -/
theorem exec_pack4_error (rot maskOr : Bool) (s : State) (e : ErrorCode) (hc : s.cancelRequested = false)
    (h : pack4Plan rot maskOr s = .error e) :
    ∃ t, exec (.pack4 rot maskOr) s = .next t ∧ EndsWithError s e.code t :=
  ⟨s.raiseError e, by simp only [exec, execPack4, unlessCancelled_of_not _ _ hc, h], endsWithError_raiseError s e⟩

/-- A TPOSE whose plan stands writes it. -/
theorem exec_tpose_ok (bpp4 : Bool) (s : State) (f : Footprint) (hc : s.cancelRequested = false)
    (h : tposePlan bpp4 s = .ok f) : exec (.tpose bpp4) s = .next (s.commit f).finish := by
  simp only [exec, execTpose, unlessCancelled_of_not _ _ hc, h]

/-- A PACK1 whose plan stands writes it. -/
theorem exec_pack1_ok (rot inv maskOr : Bool) (s : State) (p : PackPlan) (hc : s.cancelRequested = false)
    (h : pack1Plan rot inv maskOr s = .ok p) : exec (.pack1 rot inv maskOr) s = .next (s.commitPack p).finish := by
  simp only [exec, execPack1, unlessCancelled_of_not _ _ hc, h]

/-- A PACK4 whose plan stands writes it. -/
theorem exec_pack4_ok (rot maskOr : Bool) (s : State) (p : PackPlan) (hc : s.cancelRequested = false)
    (h : pack4Plan rot maskOr s = .ok p) : exec (.pack4 rot maskOr) s = .next (s.commitPack p).finish := by
  simp only [exec, execPack4, unlessCancelled_of_not _ _ hc, h]

/-! ### Range checks that fail -/

/-- The range check fails at one address past the bound. -/
theorem fits_eq_false_iff (buf a n : Nat) : fits buf a n = false ↔ ∃ i < n, buf ≤ a + i := by
  rw [← Bool.not_eq_true, fits_iff]
  push Not
  rfl

/-- The check of several rows fails at one address past the bound. -/
theorem fitsRows_eq_false_iff (buf a stride rows n : Nat) :
    fitsRows buf a stride rows n = false ↔ ∃ k < rows, ∃ i < n, buf ≤ a + k * stride + i := by
  rw [← Bool.not_eq_true, fitsRows_iff]
  push Not
  rfl

/-- The column check fails at one source address past the buffer memory. -/
theorem columnFits_eq_false_iff (s : State) : s.columnFits = false ↔
    ∃ j < s.width.toNat, s.params.bufBytes ≤ s.srcAddr.toNat + j * s.srcStride.toNat + s.rotCol.toNat := by
  rw [← Bool.not_eq_true, columnFits_iff]
  push Not
  rfl

/-- TPOSE's check fails when its column or a row of its output leaves the buffer memory (43_transpose.md R196). -/
theorem tposePlan_bounds (bpp4 : Bool) (s : State)
    (h : s.columnFits = false ∨ fitsRows s.params.bufBytes s.dstAddr.toNat s.dstStride.toNat (groupSize bpp4)
      (rotatedBytes bpp4 s.width.toNat) = false) : tposePlan bpp4 s = .error .bounds := by
  rw [tposePlan, if_neg]
  rcases h with h | h <;> simp [h]

/-- PACK1's check fails when its source's areas, its row or its output leave the buffer memory (42_pack.md R167). -/
theorem pack1Plan_bounds (rot inv maskOr : Bool) (s : State) (src : PackSource)
    (hsrc : packSource rot false s = .ok src)
    (h : src.fitsMemory false s = false ∨
      fits s.params.bufBytes src.addr (sourceBytes1 (s.packBit rot) s.width.toNat) = false ∨
      fits s.params.bufBytes s.dstAddr.toNat (ceilDiv (s.dbit + s.width.toNat) 8) = false) :
    pack1Plan rot inv maskOr s = .error .bounds := by
  rw [pack1Plan_of_source _ _ _ _ _ hsrc, if_neg]
  rcases h with h | h | h <;> simp [h]

/-- PACK4's own operand checks (42_pack.md R175). -/
theorem pack4Operands_iff (rot : Bool) (s : State) :
    pack4Operands rot s = true ↔ s.dbit = 0 ∧ (rot = true ∨ s.sbit ≤ 1) := by
  simp [pack4Operands]

/-- PACK4 with an operand out of range (42_pack.md R175). -/
theorem pack4Plan_operand (rot maskOr : Bool) (s : State) (h : s.dbit ≠ 0 ∨ (rot = false ∧ 1 < s.sbit)) :
    pack4Plan rot maskOr s = .error .operand := by
  rw [pack4Plan, if_neg]
  rw [pack4Operands_iff]
  rintro ⟨hd, hs⟩
  rcases h with h | ⟨rfl, h⟩
  · exact h hd
  · exact absurd (hs.resolve_left Bool.false_ne_true) (by omega)

/-- PACK4's check fails when its source's areas, its row, its table or its planes leave the buffer memory (42_pack.md
R175). -/
theorem pack4Plan_bounds (rot maskOr : Bool) (s : State) (src : PackSource) (hops : pack4Operands rot s = true)
    (hsrc : packSource rot true s = .ok src)
    (h : src.fitsMemory true s = false ∨
      fits s.params.bufBytes src.addr (sourceBytes4 (s.packBit rot) s.width.toNat) = false ∨
      (0 < s.width.toNat ∧ s.params.bufBytes ≤ s.lutAddr.toNat + 1023) ∨
      fitsRows s.params.bufBytes s.dstAddr.toNat s.dstStride.toNat 3 (ceilDiv s.width.toNat 8) = false) :
    pack4Plan rot maskOr s = .error .bounds := by
  rw [pack4Plan_of_source _ _ _ _ hops hsrc, if_neg]
  rcases h with h | h | ⟨hw, h⟩ | h
  · simp [h]
  · simp [h]
  · have hnout : ceilDiv s.width.toNat 8 ≠ 0 := by rw [ceilDiv_eight]; omega
    have htable : fits s.params.bufBytes s.lutAddr.toNat 1024 = false :=
      (fits_eq_false_iff _ _ _).mpr ⟨1023, by omega, h⟩
    simp [hnout, htable]
  · simp [h]

/-! ### The row of a pack -/

/-- A pack without ROT takes its row from SRC_ADDR (42_pack.md R160, R170). -/
theorem packSource_plain (bpp4 : Bool) (s : State) :
    packSource false bpp4 s = .ok { addr := s.srcAddr.toNat, plan := none } := rfl

/-- The source of a pack that follows a rotation plan (42_pack.md R177, 43_transpose.md R198). -/
def RotPlan.source (p : RotPlan) (bpp4 : Bool) (s : State) : PackSource :=
  { addr := p.rowAddr bpp4 s, plan := some p }

/-- A rotated pack takes its row from the scratch (42_pack.md R177). -/
theorem packSource_rotated (bpp4 : Bool) (s : State) (p : RotPlan) (h : rotPlan bpp4 s = .ok p) :
    packSource true bpp4 s = .ok (p.source bpp4 s) := by
  simp [packSource, h, RotPlan.source]

/-- A sequence of the right depth with a row left has a plan (43_transpose.md R198, R200). -/
theorem rotPlan_ok_of_rowLeft (bpp4 : Bool) (s : State) (hv : s.rot.tpValid = true) (hb : s.rot.tpBpp4 = bpp4)
    (hrow : 0 < s.rot.tpLeft ∨ s.rot.tpEnd = false) : ∃ p, rotPlan bpp4 s = .ok p := by
  rcases rotPlan_cases bpp4 s with ⟨hno, -⟩ | ⟨-, -, hleft, hend, -⟩ | ⟨-, -, -, -, h⟩ | ⟨-, -, -, h⟩
  · simp [hv, hb] at hno
  · simp [hleft, hend] at hrow
  · exact ⟨_, h⟩
  · exact ⟨_, h⟩

/-- The check of a plan fails when the row to take, or an area it comes from, leaves the buffer memory
(43_transpose.md R198). -/
theorem fitsMemory_of_rowPastBuffer (bpp4 : Bool) (s : State) (p : RotPlan) (hp : rotPlan bpp4 s = .ok p)
    (h : s.RotatedRowPastBuffer bpp4) : p.fitsMemory bpp4 s = false := by
  unfold State.RotatedRowPastBuffer at h
  simp only [← columnFits_eq_false_iff, ← fits_eq_false_iff] at h
  rcases rotPlan_cases bpp4 s with ⟨-, he⟩ | ⟨-, -, -, -, he⟩ | ⟨-, -, hleft, -, he⟩ | ⟨-, -, hleft, he⟩ <;>
    rw [he] at hp <;> cases hp
  · have hpast := (h.resolve_right (by omega)).2.2
    rcases hpast with hpast | hpast <;> simp [RotPlan.fitsMemory, hpast]
  · have hpast := (h.resolve_left (by omega)).2.2
    simp [RotPlan.fitsMemory, RotPlan.rowAddr, hpast]

/-! ### The statements -/

/-- Settles O27: the address past the buffer memory fails the check of the area it belongs to. -/
theorem addressesPastTheBufferRaiseBounds : Obligations.AddressesPastTheBufferRaiseBounds := by
  intro bpp4 inv maskOr s hc
  simp only [← ceilDiv_eight, ← columnFits_eq_false_iff, ← fitsRows_eq_false_iff]
  simp only [← fits_eq_false_iff]
  refine ⟨fun h => exec_tpose_error bpp4 s .bounds hc (tposePlan_bounds bpp4 s h), fun h => ?_, fun hv hb hrow h => ?_⟩
  · refine exec_pack1_error false inv maskOr s .bounds hc (pack1Plan_bounds _ _ _ s _ (packSource_plain false s) ?_)
    refine .inr (h.imp_left (fun ⟨hw, hsrc⟩ => ?_))
    rwa [sourceBytes1, if_neg (by omega)]
  · obtain ⟨p, hp⟩ := rotPlan_ok_of_rowLeft false s hv hb hrow
    exact exec_pack1_error true inv maskOr s .bounds hc (pack1Plan_bounds _ _ _ s _ (packSource_rotated false s p hp)
      (h.imp (fitsMemory_of_rowPastBuffer false s p hp) .inr))

/-- Settles O41: the operands are checked before the row is planned, and the addresses after it. -/
theorem packFourErrors : Obligations.PackFourErrors := by
  intro rot maskOr s hc
  simp only [← ceilDiv_two, ← ceilDiv_eight, ← fitsRows_eq_false_iff]
  simp only [← fits_eq_false_iff]
  refine ⟨fun hd => exec_pack4_error rot maskOr s .operand hc (pack4Plan_operand rot maskOr s (.inl hd)),
    fun hs => exec_pack4_error false maskOr s .operand hc (pack4Plan_operand false maskOr s (.inr ⟨rfl, hs⟩)),
    fun hd hs hw h => ?_, fun hd hv hb hrow h => ?_⟩
  · refine exec_pack4_error false maskOr s .bounds hc (pack4Plan_bounds false maskOr s _
      ((pack4Operands_iff false s).mpr ⟨hd, .inr hs⟩) (packSource_plain true s) (.inr ?_))
    refine h.imp (fun hsrc => ?_) (.imp_left fun htable => ⟨hw, htable⟩)
    rwa [sourceBytes4, if_neg (by omega)]
  · obtain ⟨p, hp⟩ := rotPlan_ok_of_rowLeft true s hv hb hrow
    exact exec_pack4_error true maskOr s .bounds hc (pack4Plan_bounds true maskOr s _
      ((pack4Operands_iff true s).mpr ⟨hd, .inl rfl⟩) (packSource_rotated true s p hp)
      (h.imp (fitsMemory_of_rowPastBuffer true s p hp) .inr))

end Sys2Proof.Machine
end

section
/-! ## Rows of pixels in buffer memory (00_scope.md R7, 42_pack.md R162 to R174, 43_transpose.md R193 to R195)

The pixels of the rows that the packer and the transpose engine make, and of such a row once it is written to memory. -/

namespace Sys2Proof.Machine

/-! ### The rows that the packer makes -/

/-- A pixel of PACK1's output row (42_pack.md R166). -/
theorem pixel1_pack1Row (src : List Byte) (inv maskOr : Bool) (S O W q : Nat) (hq : q < 8 * ceilDiv (O + W) 8) :
    pixel1 (pack1Row src inv maskOr S O W) q =
      if O ≤ q ∧ q < O + W then xor (pixel1 src (q - O + S)) inv else maskOr := by
  have hb : q % 8 < 8 := Nat.mod_lt _ (by decide)
  rw [pack1Row, pixel1_map_range _ _ _ hq, getLsbD_maskByte _ _ _ _ _ _ hb, getLsbD_invertByte _ _ _ hb,
    getLsbD_shiftedByte _ _ _ _ _ hb, Nat.div_add_mod, shiftedBit]
  split_ifs with h
  · rw [decide_eq_true (by omega), Bool.true_and, show q + S - O = q - O + S by omega]
  · rfl

/-- A bit of a plane byte before masking: bit 7 of the table byte for the first pixel of a pair, bit 6 for the second
(42_pack.md R171, R173). -/
theorem getLsbD_planeByte (table : Byte → Nat → Byte) (src : List Byte) (S4 W p k b : Nat) (hb : b < 8) :
    (planeByte table src S4 W p k).getLsbD (7 - b) =
      (table (alignedByte src S4 W (4 * k + b / 2)) p).getLsbD (if b % 2 = 0 then 7 else 6) := by
  simp only [planeByte, List.foldl_cons, List.foldl_nil, BitVec.getLsbD_or, BitVec.getLsbD_ushiftRight,
    BitVec.getLsbD_and]
  interval_cases b <;> simp

/-- A pixel of a plane row (42_pack.md R173, R174). -/
theorem pixel1_planeRow (table : Byte → Nat → Byte) (src : List Byte) (maskOr : Bool) (S4 W p q : Nat)
    (hq : q < 8 * ceilDiv W 8) :
    pixel1 (planeRow table src maskOr S4 W p) q =
      if q < W then (table (alignedByte src S4 W (q / 2)) p).getLsbD (if q % 2 = 0 then 7 else 6) else maskOr := by
  have hb : q % 8 < 8 := Nat.mod_lt _ (by decide)
  rw [planeRow, pixel1_map_range _ _ _ hq, getLsbD_maskByte _ _ _ _ _ _ hb, getLsbD_planeByte _ _ _ _ _ _ _ hb,
    Nat.div_add_mod, show 4 * (q / 8) + q % 8 / 2 = q / 2 by omega, show q % 8 % 2 = q % 2 by omega]
  simp

/-- The number of a packed byte of two pixels (42_pack.md R172). -/
theorem toNat_alignedByte (src : List Byte) (S4 W j : Nat) : (alignedByte src S4 W j).toNat =
    (alignedPixel src S4 W (2 * j)).toNat * 16 + (alignedPixel src S4 W (2 * j + 1)).toNat := by
  have hlow : (alignedPixel src S4 W (2 * j + 1)).toNat < 2 ^ 4 := BitVec.isLt _
  rw [alignedByte, BitVec.toNat_append, ← Nat.shiftLeft_add_eq_or_of_lt hlow, Nat.shiftLeft_eq]

/-- A pixel of PACK4's source row in memory (42_pack.md R172). -/
theorem alignedPixel_bytes (m : Memory) (a S4 W i : Nat) :
    alignedPixel (Memory.bytes m (addresses a (sourceBytes4 S4 W))) S4 W i = packPixel m a S4 W i := by
  unfold alignedPixel packPixel
  split_ifs with hi
  · refine pixel4_bytes m a _ _ ?_
    rw [sourceBytes4, if_neg (by omega), ceilDiv_two]
    omega
  · rfl

/-! ### The rows that the transpose engine makes -/

/-- A pixel of a rotated row at 1bpp (43_transpose.md R193, R195). -/
theorem pixel1_rotatedRow (col : List Byte) (k q : Nat) (hq : q < 8 * rotatedBytes false col.length) :
    pixel1 (rotatedRow false col k) q = (col.getD q 0).getLsbD k := by
  have hb : q % 8 < 8 := Nat.mod_lt _ (by decide)
  rw [rotatedRow, pixel1_map_range _ _ _ hq, if_neg Bool.false_ne_true, getLsbD_rotatedByte1 _ _ _ _ hb,
    Nat.div_add_mod]

/-- A pixel of a rotated row at 4bpp (43_transpose.md R194, R195). -/
theorem pixel4_rotatedRow (col : List Byte) (k q : Nat) (hq : q < 2 * rotatedBytes true col.length) :
    pixel4 (rotatedRow true col k) q = columnNibble col k q := by
  have hbyte : (rotatedRow true col k).getD (q / 2) 0 = rotatedByte4 col k (q / 2) := by
    simp [rotatedRow, List.getD_eq_getElem?_getD, show q / 2 < rotatedBytes true col.length by omega]
  obtain ⟨hhigh, hlow⟩ := nibbles_append (columnNibble col k (2 * (q / 2))) (columnNibble col k (2 * (q / 2) + 1))
  rw [pixel4, hbyte, rotatedByte4]
  split_ifs with hpar
  · rw [hhigh, show 2 * (q / 2) = q by omega]
  · rw [hlow, show 2 * (q / 2) + 1 = q by omega]

/-- Row `k` of a transpose (43_transpose.md R193, R194). -/
theorem getD_transpose (bpp4 : Bool) (col : List Byte) (k : Nat) (hk : k < groupSize bpp4) :
    (transpose bpp4 col).getD k [] = rotatedRow bpp4 col k := by
  simp [transpose, List.getD_eq_getElem?_getD, hk]

/-! ### Rows in memory -/

theorem rowBit_congr (m m' : Memory) (a q : Nat) (h : Memory.byte m (a + q / 8) = Memory.byte m' (a + q / 8)) :
    rowBit m a q = rowBit m' a q := by rw [rowBit, rowBit, h]

theorem rowNibble_congr (m m' : Memory) (a q : Nat) (h : Memory.byte m (a + q / 2) = Memory.byte m' (a + q / 2)) :
    rowNibble m a q = rowNibble m' a q := by rw [rowNibble, rowNibble, h]

/-- A table bit is read from the 1024 bytes of the table (42_pack.md R171). -/
theorem tableBit_congr (m m' : Memory) (T p : Nat) (first second : BitVec 4) (q : Nat) (hp : p < 3)
    (h : ∀ i < 1024, Memory.byte m (T + i) = Memory.byte m' (T + i)) :
    tableBit m T p first second q = tableBit m' T p first second q := by
  have hfirst := first.isLt
  have hsecond := second.isLt
  rw [tableBit, tableBit, Nat.add_assoc, h _ (by omega)]

/-- A pixel of a row that has been written at 1bpp. -/
theorem rowBit_writeAll_rowCells (m : Memory) (a q : Nat) (row : List Byte) (hq : q < 8 * row.length) :
    rowBit (Memory.writeAll m (rowCells a row)) a q = pixel1 row q := by
  rw [rowBit, byte_writeAll_rowCells, if_pos (by omega), Nat.add_sub_cancel_left, pixel1]

/-- A 1bpp pixel of one of several rows that have been written and share no byte. -/
theorem rowBit_writeAll_rowsCells (m : Memory) (a stride n : Nat) (rows : List (List Byte))
    (hl : ∀ r ∈ rows, r.length = n) (hs : n ≤ stride) (k q : Nat) (hk : k < rows.length) (hq : q < 8 * n) :
    rowBit (Memory.writeAll m (rowsCells a stride rows)) (a + k * stride) q = pixel1 (rows.getD k []) q := by
  rw [rowBit, byte_writeAll_rowsCells m a stride n rows hl hs k _ hk (by omega), pixel1]

/-- A 4bpp pixel of one of several rows that have been written and share no byte. -/
theorem rowNibble_writeAll_rowsCells (m : Memory) (a stride n : Nat) (rows : List (List Byte))
    (hl : ∀ r ∈ rows, r.length = n) (hs : n ≤ stride) (k q : Nat) (hk : k < rows.length) (hq : q < 2 * n) :
    rowNibble (Memory.writeAll m (rowsCells a stride rows)) (a + k * stride) q = pixel4 (rows.getD k []) q := by
  rw [rowNibble, byte_writeAll_rowsCells m a stride n rows hl hs k _ hk (by omega), pixel4]

/-- Rows of writes repeat no address exactly when the stride is at least the length of a row. -/
theorem nodup_map_fst_rowsCells_iff (a stride n : Nat) (rows : List (List Byte)) (hl : ∀ r ∈ rows, r.length = n)
    (h2 : 2 ≤ rows.length) : ((rowsCells a stride rows).map (fun c => c.1)).Nodup ↔ n ≤ stride := by
  refine ⟨fun h => ?_, nodup_map_fst_rowsCells a stride n rows hl⟩
  match rows, h2 with
  | row :: rest, h2 =>
    by_contra hlt
    rw [rowsCells, List.map_append, List.nodup_append] at h
    refine h.2.2 (a + stride) ?_ (a + stride) ?_ rfl
    · rw [map_fst_rowCells, mem_addresses, hl row (by simp)]
      exact ⟨stride, by omega, rfl⟩
    · rw [mem_map_fst_rowsCells _ _ n _ (fun r hr => hl r (by simp [hr]))]
      exact ⟨0, Nat.lt_of_succ_lt_succ h2, 0, by omega, by simp⟩

/-- Two different rows that share a byte lie less than a row apart. -/
theorem stride_lt_of_rows_meet (stride n k k' i i' : Nat) (hne : k ≠ k') (hi : i < n) (hi' : i' < n)
    (h : k * stride + i = k' * stride + i') : stride < n := by
  rcases Nat.lt_or_gt_of_ne hne with hlt | hlt <;>
  · have hstep := Nat.mul_le_mul_right stride hlt
    rw [Nat.succ_mul] at hstep
    omega

/-- Rows with no gap between them have the addresses of one range. -/
theorem exists_row_byte_iff (a G n x : Nat) :
    (∃ k < G, ∃ i < n, x = a + k * n + i) ↔ ∃ i < G * n, x = a + i := by
  constructor
  · rintro ⟨k, hk, i, hi, rfl⟩
    have hstep := Nat.mul_le_mul_right n hk
    rw [Nat.succ_mul] at hstep
    exact ⟨k * n + i, by omega, by omega⟩
  · rintro ⟨i, hi, rfl⟩
    have hn : 0 < n := Nat.pos_of_ne_zero (fun h0 => by simp [h0] at hi)
    refine ⟨i / n, Nat.div_lt_of_lt_mul (by rwa [Nat.mul_comm]), i % n, Nat.mod_lt _ hn, ?_⟩
    rw [Nat.add_assoc, Nat.div_add_mod']

end Sys2Proof.Machine
end

section
/-! ## What a pack and a TPOSE leave (42_pack.md R167, R168, R175, 43_transpose.md R196, R198; log 7)

The plan of a pack whose checks pass, the addresses it writes, when it overlaps, and what is in the registers and in
memory once it is written. The rotated fetch has two plans, one that transposes and one that takes a row of the scratch;
both are named here. -/

namespace Sys2Proof.Machine

/-! ### The plans -/

/-- The plan of a PACK1 whose checks pass (42_pack.md R167). -/
def PackSource.plan1 (src : PackSource) (rot inv maskOr : Bool) (s : State) : PackPlan :=
  { foot := src.footprint false s (sourceBytes1 (s.packBit rot) s.width.toNat) [] []
      (rowCells s.dstAddr.toNat (src.row1 rot inv maskOr s))
    masks := packMasks s.dbit s.width.toNat (ceilDiv (s.dbit + s.width.toNat) 8)
    packLen := BitVec.ofNat 32 (ceilDiv (s.dbit + s.width.toNat) 8)
    rot := src.plan }

/-- The plan of a PACK4 whose checks pass (42_pack.md R175). -/
def PackSource.plan4 (src : PackSource) (rot maskOr : Bool) (s : State) : PackPlan :=
  { foot := src.footprint true s (sourceBytes4 (s.packBit rot) s.width.toNat) (src.tableReads rot s) s.tableSpans
      (rowsCells s.dstAddr.toNat s.dstStride.toNat (src.planes rot maskOr s))
    masks := packMasks 0 s.width.toNat (ceilDiv s.width.toNat 8)
    packLen := BitVec.ofNat 32 (ceilDiv s.width.toNat 8)
    rot := src.plan }

/-- PACK1's checks pass when its row and its output are in the buffer memory (42_pack.md R167). -/
theorem pack1Plan_ok (rot inv maskOr : Bool) (s : State) (src : PackSource) (hsrc : packSource rot false s = .ok src)
    (hplan : src.fitsMemory false s = true)
    (hrow : ∀ i < sourceBytes1 (s.packBit rot) s.width.toNat, src.addr + i < s.params.bufBytes)
    (hout : ∀ k < ceilDiv (s.dbit + s.width.toNat) 8, s.dstAddr.toNat + k < s.params.bufBytes) :
    pack1Plan rot inv maskOr s = .ok (src.plan1 rot inv maskOr s) := by
  rw [pack1Plan_of_source _ _ _ _ _ hsrc, if_pos, PackSource.plan1]
  simp only [hplan, (fits_iff _ _ _).mpr hrow, (fits_iff _ _ _).mpr hout, Bool.and_self]

/-- PACK4's checks pass when its operands are legal and its row, its table and its planes are in the buffer memory
(42_pack.md R175). -/
theorem pack4Plan_ok (rot maskOr : Bool) (s : State) (src : PackSource) (hops : pack4Operands rot s = true)
    (hsrc : packSource rot true s = .ok src) (hplan : src.fitsMemory true s = true)
    (hrow : ∀ i < sourceBytes4 (s.packBit rot) s.width.toNat, src.addr + i < s.params.bufBytes)
    (htable : 0 < s.width.toNat → s.lutAddr.toNat + 1023 < s.params.bufBytes)
    (hout : ∀ p < 3, ∀ k < ceilDiv s.width.toNat 8,
      s.dstAddr.toNat + p * s.dstStride.toNat + k < s.params.bufBytes) :
    pack4Plan rot maskOr s = .ok (src.plan4 rot maskOr s) := by
  have hlut : (ceilDiv s.width.toNat 8 == 0 || fits s.params.bufBytes s.lutAddr.toNat 1024) = true := by
    rw [Bool.or_eq_true, beq_iff_eq, ceilDiv_eight, fits_iff]
    by_cases hw : 0 < s.width.toNat
    · have := htable hw
      exact .inr (fun i hi => by omega)
    · exact .inl (by omega)
  rw [pack4Plan_of_source _ _ _ _ hops hsrc, if_pos, PackSource.plan4]
  simp only [hplan, hlut, (fits_iff _ _ _).mpr hrow, (fitsRows_iff _ _ _ _ _).mpr hout, Bool.and_self]

/-! ### The two plans of a rotated fetch -/

/-- The plan at a group boundary: transpose column ROT_COL and consume row TP_SKIP of it (43_transpose.md R198,
R199). -/
def State.transposingPlan (s : State) (bpp4 : Bool) : RotPlan :=
  { transposes := true
    row := s.rot.tpSkip
    next := { tpLeft := groupSize bpp4 - 1 - s.rot.tpSkip, tpSkip := 0, tpBpp4 := bpp4, tpValid := true
              tpEnd := s.rotCol == 0 }
    nextCol := if s.rotCol = 0 then 0 else s.rotCol - 1 }

/-- The plan with a row left: take the next row of the scratch (43_transpose.md R198). -/
def State.consumingPlan (s : State) (bpp4 : Bool) : RotPlan :=
  { transposes := false
    row := groupSize bpp4 - s.rot.tpLeft
    next := { s.rot with tpLeft := s.rot.tpLeft - 1 }
    nextCol := s.rotCol }

@[simp] theorem transposes_transposingPlan (s : State) (bpp4 : Bool) : (s.transposingPlan bpp4).transposes = true := rfl

@[simp] theorem transposes_consumingPlan (s : State) (bpp4 : Bool) : (s.consumingPlan bpp4).transposes = false := rfl

theorem rotPlan_transposing (s : State) (bpp4 : Bool) (hv : s.rot.tpValid = true) (hb : s.rot.tpBpp4 = bpp4)
    (hleft : s.rot.tpLeft = 0) (hend : s.rot.tpEnd = false) (hskip : s.rot.tpSkip < groupSize bpp4) :
    rotPlan bpp4 s = .ok (s.transposingPlan bpp4) := by
  rcases rotPlan_cases bpp4 s with ⟨hno, -⟩ | ⟨-, -, -, he, -⟩ | ⟨-, -, -, -, h⟩ | ⟨-, -, hl, -⟩
  · simp [hv, hb] at hno
  · simp [hend] at he
  · rw [h, State.transposingPlan, Nat.sub_sub_self hskip.le, Nat.sub_right_comm]
    split_ifs with hcol <;> simp [hcol]
  · omega

theorem rotPlan_consuming (s : State) (bpp4 : Bool) (hv : s.rot.tpValid = true) (hb : s.rot.tpBpp4 = bpp4)
    (hleft : 0 < s.rot.tpLeft) : rotPlan bpp4 s = .ok (s.consumingPlan bpp4) := by
  rcases rotPlan_cases bpp4 s with ⟨hno, -⟩ | ⟨-, -, hl, -, -⟩ | ⟨-, -, hl, -, -⟩ | ⟨-, -, -, h⟩
  · simp [hv, hb] at hno
  · omega
  · omega
  · exact h

/-- The fields of ROT_STATE fit their bits (10_state.md R47). -/
theorem rot_fields_lt (s : State) : s.rot.tpLeft < 16 ∧ s.rot.tpSkip < 8 :=
  ⟨(s.rotState.extractLsb' 0 4).isLt, (s.rotState.extractLsb' 4 3).isLt⟩

/-- A rotated pack reads its whole row, at either depth (42_pack.md R161, R172, 43_transpose.md R195). -/
theorem sourceBytes1_rotated (W : Nat) : sourceBytes1 0 W = rotatedBytes false W := by
  rw [sourceBytes1, Nat.zero_add]
  split_ifs with hw
  · rw [hw]; rfl
  · rfl

theorem sourceBytes4_rotated (W : Nat) : sourceBytes4 0 W = rotatedBytes true W := by
  rw [sourceBytes4, Nat.zero_add]
  split_ifs with hw
  · rw [hw]; rfl
  · rfl

/-- A row of the group lies in the scratch (43_transpose.md R198). -/
theorem inScratch_rowAddr (p : RotPlan) (bpp4 : Bool) (s : State) (i : Nat) (hrow : p.row < groupSize bpp4)
    (hi : i < rotatedBytes bpp4 s.width.toNat) : s.InScratch bpp4 (p.rowAddr bpp4 s + i) :=
  (exists_row_byte_iff _ _ _ _).mp ⟨p.row, hrow, i, hi, rfl⟩

/-- The check of a plan passes when its row is in the buffer memory and, where it transposes, so are its column and its
scratch (43_transpose.md R198). -/
theorem fitsMemory_of_inBuffer (p : RotPlan) (bpp4 : Bool) (s : State)
    (hcol : p.transposes = true → (∀ j < s.width.toNat,
        s.srcAddr.toNat + j * s.srcStride.toNat + s.rotCol.toNat < s.params.bufBytes) ∧
      ∀ i < groupSize bpp4 * rotatedBytes bpp4 s.width.toNat, s.rotAddr.toNat + i < s.params.bufBytes)
    (hrow : ∀ i < rotatedBytes bpp4 s.width.toNat, p.rowAddr bpp4 s + i < s.params.bufBytes) :
    p.fitsMemory bpp4 s = true := by
  simp only [RotPlan.fitsMemory, Bool.and_eq_true, Bool.or_eq_true, Bool.not_eq_true', columnFits_iff, fits_iff]
  refine ⟨?_, hrow⟩
  cases ht : p.transposes
  · exact .inl rfl
  · exact .inr (hcol ht)

/-! ### The addresses a pack writes -/

@[simp] theorem footprint_out (src : PackSource) (bpp4 : Bool) (s : State) (n : Nat) (tableReads : List Nat)
    (table : List Span) (out : List Host.Cell) : (src.footprint bpp4 s n tableReads table out).out = out := by
  unfold PackSource.footprint
  split <;> rfl

@[simp] theorem footprint_writes (src : PackSource) (bpp4 : Bool) (s : State) (n : Nat) (tableReads : List Nat)
    (table : List Span) (out : List Host.Cell) :
    (src.footprint bpp4 s n tableReads table out).writes = src.scratch bpp4 s ++ out := by
  unfold PackSource.footprint PackSource.scratch Footprint.writes
  split <;> rfl

/-- The addresses of PACK1's output row. -/
theorem mem_out_plan1 (src : PackSource) (rot inv maskOr : Bool) (s : State) (a : Nat) :
    a ∈ (src.plan1 rot inv maskOr s).foot.out.map (fun c => c.1) ↔
      ∃ k < ceilDiv (s.dbit + s.width.toNat) 8, a = s.dstAddr.toNat + k := by
  rw [PackSource.plan1, footprint_out, map_fst_rowCells, mem_addresses, length_row1]

/-- The addresses of PACK4's planes. -/
theorem mem_out_plan4 (src : PackSource) (rot maskOr : Bool) (s : State) (a : Nat) :
    a ∈ (src.plan4 rot maskOr s).foot.out.map (fun c => c.1) ↔
      ∃ p < 3, ∃ k < ceilDiv s.width.toNat 8, a = s.dstAddr.toNat + p * s.dstStride.toNat + k := by
  rw [PackSource.plan4, footprint_out, mem_map_fst_rowsCells _ _ _ _ (length_of_mem_planes src rot maskOr s),
    length_planes]

/-- PACK1 writes no output byte twice. -/
theorem nodup_out_plan1 (src : PackSource) (rot inv maskOr : Bool) (s : State) :
    ((src.plan1 rot inv maskOr s).foot.out.map (fun c => c.1)).Nodup := by
  rw [PackSource.plan1, footprint_out, map_fst_rowCells]
  exact nodup_addresses _ _

/-- PACK4's planes share no byte exactly when the stride is at least a plane row. -/
theorem nodup_out_plan4_iff (src : PackSource) (rot maskOr : Bool) (s : State) :
    ((src.plan4 rot maskOr s).foot.out.map (fun c => c.1)).Nodup ↔
      ceilDiv s.width.toNat 8 ≤ s.dstStride.toNat := by
  rw [PackSource.plan4, footprint_out]
  exact nodup_map_fst_rowsCells_iff _ _ _ _ (length_of_mem_planes src rot maskOr s) (by simp)

/-- The rows of a transposed column have `RB` bytes each (43_transpose.md R195). -/
theorem length_of_mem_transpose_column (bpp4 : Bool) (s : State) (r : List Byte) (hr : r ∈ transpose bpp4 s.column) :
    r.length = rotatedBytes bpp4 s.width.toNat := by
  rw [length_of_mem_transpose bpp4 s.column r hr, length_column]

/-- The addresses of the scratch writes of a plan (43_transpose.md R198). -/
theorem mem_scratch_iff (p : RotPlan) (bpp4 : Bool) (s : State) (a : Nat) :
    a ∈ (p.scratch bpp4 s).map (fun c => c.1) ↔ p.transposes = true ∧ s.InScratch bpp4 a := by
  unfold RotPlan.scratch
  split_ifs with ht
  · rw [mem_map_fst_rowsCells _ _ _ _ (length_of_mem_transpose_column bpp4 s), length_transpose,
      exists_row_byte_iff]
    exact (and_iff_right ht).symm
  · simp [ht]

/-- A plan writes no scratch byte twice. -/
theorem nodup_scratch (p : RotPlan) (bpp4 : Bool) (s : State) : ((p.scratch bpp4 s).map (fun c => c.1)).Nodup := by
  unfold RotPlan.scratch
  split_ifs
  · exact nodup_map_fst_rowsCells _ _ _ _ (length_of_mem_transpose_column bpp4 s) (le_refl _)
  · exact List.nodup_nil

/-- A rotated pack writes its output and, where it transposes, the scratch. -/
theorem mem_written_rotated (p : RotPlan) (bpp4 : Bool) (s : State) (n : Nat) (tableReads : List Nat)
    (table : List Span) (out : List Host.Cell) (a : Nat) :
    a ∈ ((p.source bpp4 s).footprint bpp4 s n tableReads table out).written ↔
      (p.transposes = true ∧ s.InScratch bpp4 a) ∨ a ∈ out.map (fun c => c.1) := by
  rw [Footprint.written, footprint_writes, List.map_append, List.mem_append]
  exact or_congr_left (mem_scratch_iff p bpp4 s a)

/-! ### When a pack overlaps -/

/-- The bytes of the table that PACK4 reads are in the table (42_pack.md R171). -/
theorem tableReads_subset (src : PackSource) (rot : Bool) (s : State) (a : Nat) (h : a ∈ src.tableReads rot s) :
    ∃ r ∈ s.tableSpans, r.has a = true := by
  simp only [PackSource.tableReads, List.mem_flatMap, List.mem_map, List.mem_range, ceilDiv_eight] at h
  obtain ⟨j, hj, p, hp, rfl⟩ := h
  refine (tableSpans_has_iff s _).mpr ⟨by omega, ?_⟩
  have hentry := (alignedByte (src.bytes4 rot s) (s.packBit rot) s.width.toNat j).isLt
  refine ⟨_, ?_, Nat.add_assoc _ _ _⟩
  omega

/-- The column lies in the source region (43_transpose.md R192, R202; log 7). -/
theorem inSourceRegion_of_inColumn (s : State) (a : Nat) (h : s.InColumn a) : s.InSourceRegion a := by
  obtain ⟨j, hj, rfl⟩ := h
  exact ⟨j, hj, _, Nat.le_max_right _ _, rfl⟩

/-- When a pack without ROT overlaps: on its row, on its table, or on its own output (20_memory.md R73, 42_pack.md
R176; log 7). -/
theorem overlaps_plain_iff (a0 : Nat) (bpp4 : Bool) (s : State) (n : Nat) (tableReads : List Nat) (table : List Span)
    (out : List Host.Cell) (htable : ∀ a ∈ tableReads, ∃ r ∈ table, r.has a = true) :
    (({ addr := a0, plan := none } : PackSource).footprint bpp4 s n tableReads table out).overlaps = true ↔
      (∃ a ∈ out.map (fun c => c.1), a ∈ addresses a0 n ∨ ∃ r ∈ table, r.has a = true) ∨
      ¬(out.map (fun c => c.1)).Nodup := by
  rw [overlaps_iff]
  simp only [PackSource.footprint, Footprint.written, Footprint.writes, List.nil_append, List.mem_append,
    List.not_mem_nil, false_or]
  constructor
  · rintro (⟨a, ha, hread | hread⟩ | ⟨a, ha, hregion⟩ | hdup)
    · exact .inl ⟨a, ha, .inl hread⟩
    · exact .inl ⟨a, ha, .inr (htable a hread)⟩
    · exact .inl ⟨a, ha, .inr hregion⟩
    · exact .inr hdup
  · rintro (⟨a, ha, hread | hregion⟩ | hdup)
    · exact .inl ⟨a, ha, .inl hread⟩
    · exact .inr (.inl ⟨a, ha, hregion⟩)
    · exact .inr (.inr hdup)

/-- When a rotated pack overlaps: its output on the scratch, the source region, its table or itself, or its scratch
writes on the column or the table bytes it reads (20_memory.md R73, 42_pack.md R176, 43_transpose.md R202; log 7). -/
theorem overlaps_rotated_iff (p : RotPlan) (bpp4 : Bool) (s : State) (tableReads : List Nat) (table : List Span)
    (out : List Host.Cell) (hrow : p.row < groupSize bpp4) (htable : ∀ a ∈ tableReads, ∃ r ∈ table, r.has a = true) :
    ((p.source bpp4 s).footprint bpp4 s (rotatedBytes bpp4 s.width.toNat) tableReads table out).overlaps = true ↔
      (∃ a ∈ out.map (fun c => c.1),
        s.InScratch bpp4 a ∨ s.InSourceRegion a ∨ ∃ r ∈ table, r.has a = true) ∨
      (p.transposes = true ∧ ∃ a, s.InScratch bpp4 a ∧ (s.InColumn a ∨ a ∈ tableReads)) ∨
      ¬(out.map (fun c => c.1)).Nodup := by
  have hcolumn (a : Nat) : a ∈ p.columnReads s ↔ p.transposes = true ∧ s.InColumn a := by
    unfold RotPlan.columnReads
    split_ifs with ht
    · rw [mem_columnAddresses]
      exact (and_iff_right ht).symm
    · simp [ht]
  have hreads (a : Nat) :
      a ∈ ((p.source bpp4 s).footprint bpp4 s (rotatedBytes bpp4 s.width.toNat) tableReads table out).reads ↔
        (p.transposes = true ∧ s.InColumn a) ∨ a ∈ tableReads := by
    rw [← hcolumn]
    exact List.mem_append
  have hrowIn (a : Nat) :
      a ∈ ((p.source bpp4 s).footprint bpp4 s (rotatedBytes bpp4 s.width.toNat) tableReads table out).row →
        s.InScratch bpp4 a := by
    intro ha
    obtain ⟨i, hi, rfl⟩ := (mem_addresses _ _ _).mp ha
    exact inScratch_rowAddr p bpp4 s i hrow hi
  simp only [overlaps_iff, mem_written_rotated, hreads, footprint_out,
    footprint_region_rotated (p.source bpp4 s) p bpp4 s _ _ _ _ rfl]
  rw [Footprint.written, footprint_writes, List.map_append, List.nodup_append]
  have hscratch := mem_scratch_iff p bpp4 s
  constructor
  · rintro (⟨a, ⟨ht, ha⟩ | ha, hread⟩ | ⟨a, ha, hread | hregion⟩ | hdup)
    · exact .inr (.inl ⟨ht, a, ha, hread.imp_left And.right⟩)
    · exact .inl ⟨a, ha, .inr (hread.imp (fun h => inSourceRegion_of_inColumn s a h.2) (htable a))⟩
    · exact .inl ⟨a, ha, .inl (hrowIn a hread)⟩
    · exact .inl ⟨a, ha, hregion⟩
    · by_contra hno
      obtain ⟨hclear, -, hnodup⟩ : _ ∧ _ ∧ _ := by simpa only [not_or, not_not] using hno
      refine hdup ⟨nodup_scratch p bpp4 s, hnodup, fun a ha b hb hab => hclear ⟨b, hb, .inl ?_⟩⟩
      exact hab ▸ ((hscratch a).mp ha).2
  · rintro (⟨a, ha, hregion⟩ | ⟨ht, a, ha, hread⟩ | hdup)
    · exact .inr (.inl ⟨a, ha, .inr hregion⟩)
    · exact .inl ⟨a, .inl ⟨ht, ha⟩, hread.imp_left (⟨ht, ·⟩)⟩
    · exact .inr (.inr (fun h => hdup h.2.1))

/-! ### The registers after a pack -/

/-- A pack ends normally (30_encoding.md R91). -/
theorem endsNormally_commitPack (s : State) (p : PackPlan) : EndsNormally s (s.commitPack p).finish :=
  endsNormally_finish s _ (by rw [commitPack_eq]; rfl)

/-- The fields of MASKS after a pack: the first and the last AND-mask, and their complements (10_state.md R45). -/
theorem getLsbD_masksWord (first last : Byte) (i : Nat) (hi : i < 8) :
    (masksWord first last).getLsbD i = first.getLsbD i ∧
    (masksWord first last).getLsbD (8 + i) = last.getLsbD i ∧
    (masksWord first last).getLsbD (16 + i) = !first.getLsbD i ∧
    (masksWord first last).getLsbD (24 + i) = !last.getLsbD i := by
  simp only [masksWord, BitVec.getLsbD_append]
  interval_cases i <;> simp

/-- PACK_LEN and MASKS of a pack at bit offset `O` and width `W` are those of 42_pack.md R168. -/
theorem packResult_of_masks (O W : Nat) (t : State) (hO : O < 8) (hW : W < 2 ^ 32)
    (hm : t.masks = packMasks O W (ceilDiv (O + W) 8)) (hl : t.packLen = BitVec.ofNat 32 (ceilDiv (O + W) 8)) :
    PackResult O W t := by
  have hlen : t.packLen.toNat = (O + W + 7) / 8 := by
    rw [hl, BitVec.toNat_ofNat, ceilDiv_eight, Nat.mod_eq_of_lt (by omega)]
  have hzero : t.packLen = 0 ↔ ceilDiv (O + W) 8 = 0 := by
    rw [ceilDiv_eight, ← hlen, ← BitVec.toNat_inj]
    rfl
  refine ⟨hlen, fun h0 => ?_, fun hne b hb => ?_⟩
  · rw [hm, packMasks, if_pos (hzero.mp h0)]
    rfl
  · rw [hm, packMasks, if_neg (mt hzero.mpr hne), ceilDiv_eight]
    obtain ⟨hfirst, hlast, hnfirst, hnlast⟩ :=
      getLsbD_masksWord (andMask O W 0) (andMask O W ((O + W + 7) / 8 - 1)) (7 - b) (by omega)
    rw [show 15 - b = 8 + (7 - b) by omega, show 23 - b = 16 + (7 - b) by omega,
      show 31 - b = 24 + (7 - b) by omega, hfirst, hlast, hnfirst, hnlast, getLsbD_andMask _ _ _ _ hb,
      getLsbD_andMask _ _ _ _ hb]
    simp [and_comm]

theorem packResult_plan1 (src : PackSource) (rot inv maskOr : Bool) (s : State) :
    PackResult s.dbit s.width.toNat (s.commitPack (src.plan1 rot inv maskOr s)).finish := by
  refine packResult_of_masks _ _ _ (BitVec.isLt _) s.width.isLt ?_ ?_ <;>
  · rw [commitPack_eq]
    rfl

theorem packResult_plan4 (src : PackSource) (rot maskOr : Bool) (s : State) :
    PackResult 0 s.width.toNat (s.commitPack (src.plan4 rot maskOr s)).finish := by
  refine packResult_of_masks _ _ _ (by decide) s.width.isLt ?_ ?_ <;>
  · rw [commitPack_eq, Nat.zero_add]
    rfl

/-- ROT_STATE after a rotated pack (43_transpose.md R198). -/
theorem rot_commitPack (s : State) (p : PackPlan) (r : RotPlan) (hr : p.rot = some r) (hl : r.next.tpLeft < 16)
    (hs : r.next.tpSkip < 8) : (s.commitPack p).finish.rot = r.next := by
  rw [commitPack_eq, hr]
  exact ofWord_word r.next hl hs

/-! ### Buffer memory after a pack -/

theorem mem_commitPack (s : State) (p : PackPlan) : (s.commitPack p).finish.mem = (s.commit p.foot).mem := by
  rw [commitPack_eq]
  rfl

theorem draws_commitPack (s : State) (p : PackPlan) : (s.commitPack p).finish.draws = (s.commit p.foot).draws := by
  rw [commitPack_eq]
  rfl

/-- A byte that a pack does not write is as it was. -/
theorem byte_commitPack_of_not_mem (s : State) (p : PackPlan) (a : Nat) (h : a ∉ p.foot.written) :
    Memory.byte (s.commitPack p).finish.mem a = Memory.byte s.mem a := by
  rw [mem_commitPack, byte_commit_of_not_mem s p.foot a h]

/-- A pack that overlaps or raced leaves a free value in every byte it writes (20_memory.md R71, R73). -/
theorem freshByte_commitPack (s : State) (p : PackPlan) (a : Nat) (hf : p.foot.overlaps = true ∨ s.raced ≠ [])
    (h : a ∈ p.foot.written) : FreshByte s (s.commitPack p).finish a := by
  rw [FreshByte, mem_commitPack, draws_commitPack]
  exact byte_commit_of_free s p.foot a hf h

/-- Buffer memory as a pack reads its row and its table: after its own scratch writes (00_scope.md R10,
43_transpose.md R198). -/
def PackSource.readMem (src : PackSource) (bpp4 : Bool) (s : State) : Memory :=
  Memory.writeAll s.mem (src.scratch bpp4 s)

/-- With nothing transposed, the row and the table are read as they were. -/
theorem readMem_consuming (s : State) (bpp4 : Bool) :
    ((s.consumingPlan bpp4).source bpp4 s).readMem bpp4 s = s.mem := rfl

/-- A PACK1 that neither overlaps nor raced draws nothing and writes its output row over its scratch writes. -/
theorem commitPack_clear1 (src : PackSource) (rot inv maskOr : Bool) (s : State) (hr : s.raced = [])
    (ho : (src.plan1 rot inv maskOr s).foot.overlaps = false) :
    (s.commitPack (src.plan1 rot inv maskOr s)).finish.draws = s.draws ∧
    (s.commitPack (src.plan1 rot inv maskOr s)).finish.mem =
      Memory.writeAll (src.readMem false s) (rowCells s.dstAddr.toNat (src.row1 rot inv maskOr s)) := by
  rw [draws_commitPack, mem_commitPack, commit_of_disjoint s _ ho hr]
  refine ⟨rfl, ?_⟩
  rw [PackSource.plan1, footprint_writes, writeAll_append, PackSource.readMem]

/-- A PACK4 that neither overlaps nor raced draws nothing and writes its planes over its scratch writes. -/
theorem commitPack_clear4 (src : PackSource) (rot maskOr : Bool) (s : State) (hr : s.raced = [])
    (ho : (src.plan4 rot maskOr s).foot.overlaps = false) :
    (s.commitPack (src.plan4 rot maskOr s)).finish.draws = s.draws ∧
    (s.commitPack (src.plan4 rot maskOr s)).finish.mem =
      Memory.writeAll (src.readMem true s)
        (rowsCells s.dstAddr.toNat s.dstStride.toNat (src.planes rot maskOr s)) := by
  rw [draws_commitPack, mem_commitPack, commit_of_disjoint s _ ho hr]
  refine ⟨rfl, ?_⟩
  rw [PackSource.plan4, footprint_writes, writeAll_append, PackSource.readMem]

/-- The pixels of PACK1's output row once it is written (42_pack.md R166). -/
theorem rowBit_row1 (src : PackSource) (rot inv maskOr : Bool) (s : State) (m : Memory) (q : Nat)
    (hq : q < 8 * ceilDiv (s.dbit + s.width.toNat) 8) :
    rowBit (Memory.writeAll m (rowCells s.dstAddr.toNat (src.row1 rot inv maskOr s))) s.dstAddr.toNat q =
      if s.dbit ≤ q ∧ q < s.dbit + s.width.toNat then
        xor (rowBit (src.readMem false s) src.addr (q - s.dbit + s.packBit rot)) inv
      else maskOr := by
  rw [rowBit_writeAll_rowCells _ _ _ _ (by rwa [length_row1]), PackSource.row1, pixel1_pack1Row _ _ _ _ _ _ _ hq]
  split_ifs with h
  · rw [PackSource.bytes, pixel1_bytes, PackSource.readMem]
    rw [sourceBytes1, if_neg (by omega), ceilDiv_eight]
    omega
  · rfl

/-- The bits of PACK4's planes once they are written (42_pack.md R171 to R174). -/
theorem rowBit_planes (src : PackSource) (rot maskOr : Bool) (s : State) (m : Memory) (p q : Nat) (hp : p < 3)
    (hq : q < 8 * ceilDiv s.width.toNat 8) (hstride : ceilDiv s.width.toNat 8 ≤ s.dstStride.toNat) :
    rowBit (Memory.writeAll m (rowsCells s.dstAddr.toNat s.dstStride.toNat (src.planes rot maskOr s)))
        (s.dstAddr.toNat + p * s.dstStride.toNat) q =
      if q < s.width.toNat then
        tableBit (src.readMem true s) s.lutAddr.toNat p
          (packPixel (src.readMem true s) src.addr (s.packBit rot) s.width.toNat (2 * (q / 2)))
          (packPixel (src.readMem true s) src.addr (s.packBit rot) s.width.toNat (2 * (q / 2) + 1)) q
      else maskOr := by
  have hplane : (src.planes rot maskOr s).getD p [] =
      planeRow (src.table s) (src.bytes4 rot s) maskOr (s.packBit rot) s.width.toNat p := by
    simp [PackSource.planes, List.getD_eq_getElem?_getD, hp]
  rw [rowBit_writeAll_rowsCells _ _ _ _ _ (length_of_mem_planes src rot maskOr s) hstride p q
    (by rwa [length_planes]) hq, hplane, pixel1_planeRow _ _ _ _ _ _ _ hq]
  by_cases h : q < s.width.toNat
  · rw [if_pos h, if_pos h, PackSource.table, State.tableAddress, toNat_alignedByte, PackSource.bytes4,
      PackSource.bytes, alignedPixel_bytes, alignedPixel_bytes, tableBit, PackSource.readMem]
  · rw [if_neg h, if_neg h]

/-! ### The scratch after a transpose -/

/-- Where a plan transposes, the row and the table are read after the scratch is written. -/
theorem readMem_transposing (p : RotPlan) (bpp4 : Bool) (s : State) (ht : p.transposes = true) :
    (p.source bpp4 s).readMem bpp4 s = Memory.writeAll s.mem
      (rowsCells s.rotAddr.toNat (rotatedBytes bpp4 s.width.toNat) (transpose bpp4 s.column)) := by
  simp only [PackSource.readMem, PackSource.scratch, RotPlan.source, RotPlan.scratch, ht, if_true]

/-- A pixel of a scratch row at 1bpp (43_transpose.md R193, R195). -/
theorem rowBit_scratch (p : RotPlan) (s : State) (ht : p.transposes = true) (k q : Nat) (hk : k < 8)
    (hq : q < 8 * rotatedBytes false s.width.toNat) :
    rowBit ((p.source false s).readMem false s) (s.rotAddr.toNat + k * rotatedBytes false s.width.toNat) q =
      if q < s.width.toNat then
        (Memory.byte s.mem (s.srcAddr.toNat + q * s.srcStride.toNat + s.rotCol.toNat)).getLsbD k
      else false := by
  rw [readMem_transposing p false s ht, rowBit_writeAll_rowsCells _ _ _ _ _ (length_of_mem_transpose_column false s)
    (le_refl _) k q (by rwa [length_transpose]) hq, getD_transpose _ _ _ hk,
    pixel1_rotatedRow _ _ _ (by rwa [length_column]), getD_column]
  split_ifs
  · rfl
  · exact BitVec.getLsbD_zero

/-- A pixel of a scratch row at 4bpp (43_transpose.md R194, R195). -/
theorem rowNibble_scratch (p : RotPlan) (s : State) (ht : p.transposes = true) (k q : Nat) (hk : k < 2)
    (hq : q < 2 * rotatedBytes true s.width.toNat) :
    rowNibble ((p.source true s).readMem true s) (s.rotAddr.toNat + k * rotatedBytes true s.width.toNat) q =
      if q < s.width.toNat then
        (Memory.byte s.mem (s.srcAddr.toNat + q * s.srcStride.toNat + s.rotCol.toNat)).extractLsb' (4 * k) 4
      else 0 := by
  rw [readMem_transposing p true s ht, rowNibble_writeAll_rowsCells _ _ _ _ _ (length_of_mem_transpose_column true s)
    (le_refl _) k q (by rwa [length_transpose]) hq, getD_transpose _ _ _ hk,
    pixel4_rotatedRow _ _ _ (by rwa [length_column]), columnNibble, getD_column]
  split_ifs
  · rfl
  · exact BitVec.extractLsb'_zero

/-- A byte outside the scratch, or any byte when nothing is transposed, is read as it was. -/
theorem byte_readMem_of_not_scratch (p : RotPlan) (bpp4 : Bool) (s : State) (a : Nat)
    (h : p.transposes = true → ¬s.InScratch bpp4 a) :
    Memory.byte ((p.source bpp4 s).readMem bpp4 s) a = Memory.byte s.mem a :=
  byte_writeAll_of_not_mem _ _ _ (fun hmem => by
    obtain ⟨ht, ha⟩ := (mem_scratch_iff p bpp4 s a).mp hmem
    exact h ht ha)

end Sys2Proof.Machine
end

section
/-! ## Overlapping and rotated commands (20_memory.md R71, R73, 42_pack.md R166, R173, R176, 43_transpose.md R198, R202)

What TPOSE, PACK4 and the rotated packs write where they overlap nothing, and that everything they write is free where
they do. Each proof names the plan, reads off its addresses and its overlap, and then the pixels. -/

namespace Sys2Proof.Machine

/-! ### TPOSE -/

/-- When TPOSE overlaps: a row on the column, or rows less than a row apart (20_memory.md R73). -/
theorem overlaps_tpose_iff (bpp4 : Bool) (s : State) (f : Footprint) (h : tposePlan bpp4 s = .ok f) :
    f.overlaps = true ↔
      (∃ a ∈ f.written, s.InColumn a) ∨ s.dstStride.toNat < rotatedBytes bpp4 s.width.toNat := by
  have htwo : 2 ≤ (transpose bpp4 s.column).length := by
    rw [length_transpose]
    cases bpp4 <;> decide
  have hnodup := nodup_map_fst_rowsCells_iff s.dstAddr.toNat s.dstStride.toNat _ _
    (length_of_mem_transpose_column bpp4 s) htwo
  obtain ⟨-, -, rfl⟩ := (tposePlan_ok_iff _ _ _).mp h
  rw [← Nat.not_le, ← hnodup, overlaps_iff]
  simp [mem_columnAddresses, State.InColumn, Footprint.written, Footprint.writes]

/-- Settles O28: rows that meet lie less than a row apart, so in each case the command overlaps or the host raced. -/
theorem overlappingTposeWritesFreeBytes : Obligations.OverlappingTposeWritesFreeBytes := by
  intro bpp4 s hc hcol hrows hfree
  obtain ⟨f, hf⟩ : ∃ f, tposePlan bpp4 s = .ok f := ⟨_, (tposePlan_ok_iff _ _ _).mpr ⟨hcol, hrows, rfl⟩⟩
  have hwritten := mem_written_tpose bpp4 s f hf
  have hover : f.overlaps = true ∨ s.raced ≠ [] := by
    rw [overlaps_tpose_iff bpp4 s f hf]
    rcases hfree with hraced | ⟨k, hk, i, hi, j, hj, heq⟩ | ⟨k, hk, k', hk', i, hi, i', hi', hne, heq⟩
    · exact .inr hraced
    · exact .inl (.inl ⟨_, (hwritten _).mpr ⟨k, hk, i, hi, rfl⟩, j, hj, heq⟩)
    · exact .inl (.inr (stride_lt_of_rows_meet _ _ k k' i i' hne hi hi' (by omega)))
  refine ⟨_, exec_tpose_ok bpp4 s f hc hf, endsNormally_finish s _ (by simp [State.finish]), ?_, fun k hk i hi => ?_⟩
  · rw [commit_eq]
    rfl
  · exact byte_commit_of_free s f _ hover ((hwritten _).mpr ⟨k, hk, i, hi, rfl⟩)

/-! ### What a rotated PACK1 writes and when it overlaps -/

theorem mem_written_plan1_rotated (p : RotPlan) (inv maskOr : Bool) (s : State) (a : Nat) :
    a ∈ ((p.source false s).plan1 true inv maskOr s).foot.written ↔
      (p.transposes = true ∧ s.InScratch false a) ∨
        ∃ k < ceilDiv (s.dbit + s.width.toNat) 8, a = s.dstAddr.toNat + k := by
  rw [← mem_out_plan1 (p.source false s) true inv maskOr, PackSource.plan1, footprint_out, mem_written_rotated]

theorem overlaps_plan1_rotated_iff (p : RotPlan) (inv maskOr : Bool) (s : State) (hrow : p.row < 8) :
    ((p.source false s).plan1 true inv maskOr s).foot.overlaps = true ↔
      (∃ k < ceilDiv (s.dbit + s.width.toNat) 8,
        s.InScratch false (s.dstAddr.toNat + k) ∨ s.InSourceRegion (s.dstAddr.toNat + k)) ∨
      (p.transposes = true ∧ ∃ a, s.InScratch false a ∧ s.InColumn a) := by
  have hout := mem_out_plan1 (p.source false s) true inv maskOr s
  have hnodup := nodup_out_plan1 (p.source false s) true inv maskOr s
  rw [PackSource.plan1, footprint_out] at hout hnodup
  rw [PackSource.plan1, State.packBit, if_pos rfl, sourceBytes1_rotated,
    overlaps_rotated_iff p false s [] [] _ hrow (by simp)]
  simp only [hout, hnodup, List.not_mem_nil, false_and, exists_false, or_false, not_true_eq_false]
  refine or_congr_left ⟨?_, ?_⟩
  · rintro ⟨_, ⟨k, hk, rfl⟩, h⟩
    exact ⟨k, hk, h⟩
  · rintro ⟨k, hk, h⟩
    exact ⟨_, ⟨k, hk, rfl⟩, h⟩

/-- A rotated PACK1 leaves every byte outside its output row and, where it transposes, outside the scratch. -/
theorem byte_plan1_rotated_of_ne (p : RotPlan) (inv maskOr : Bool) (s : State) (a : Nat)
    (hne : ∀ k < ceilDiv (s.dbit + s.width.toNat) 8, a ≠ s.dstAddr.toNat + k)
    (hns : p.transposes = true → ¬s.InScratch false a) :
    Memory.byte (s.commitPack ((p.source false s).plan1 true inv maskOr s)).finish.mem a = Memory.byte s.mem a := by
  refine byte_commitPack_of_not_mem s _ a (fun hmem => ?_)
  rcases (mem_written_plan1_rotated p inv maskOr s a).mp hmem with ⟨ht, hs⟩ | ⟨k, hk, rfl⟩
  · exact hns ht hs
  · exact hne k hk rfl

/-- A byte outside PACK1's output row is not changed by writing it. -/
theorem byte_writeAll_row1_of_ne (src : PackSource) (rot inv maskOr : Bool) (s : State) (m : Memory) (a : Nat)
    (h : ∀ k < ceilDiv (s.dbit + s.width.toNat) 8, a ≠ s.dstAddr.toNat + k) :
    Memory.byte (Memory.writeAll m (rowCells s.dstAddr.toNat (src.row1 rot inv maskOr s))) a = Memory.byte m a := by
  refine byte_writeAll_of_not_mem _ _ _ (fun hmem => ?_)
  rw [map_fst_rowCells, mem_addresses, length_row1] at hmem
  obtain ⟨k, hk, rfl⟩ := hmem
  exact h k hk rfl

/-! ### PACK1.R with a row left -/

theorem pack1Plan_consuming (inv maskOr : Bool) (s : State) (hv : s.rot.tpValid = true) (hb : s.rot.tpBpp4 = false)
    (hleft : 0 < s.rot.tpLeft)
    (hrow : ∀ i < rotatedBytes false s.width.toNat,
      (s.consumingPlan false).rowAddr false s + i < s.params.bufBytes)
    (hout : ∀ k < ceilDiv (s.dbit + s.width.toNat) 8, s.dstAddr.toNat + k < s.params.bufBytes) :
    pack1Plan true inv maskOr s = .ok (((s.consumingPlan false).source false s).plan1 true inv maskOr s) :=
  pack1Plan_ok true inv maskOr s _ (packSource_rotated false s _ (rotPlan_consuming s false hv hb hleft))
    (fitsMemory_of_inBuffer _ false s (fun h => absurd h Bool.false_ne_true) hrow)
    (by rw [State.packBit, if_pos rfl, sourceBytes1_rotated]; exact hrow) hout

/-- The output of a PACK1.R with a row left: the scratch row as it was, at DBIT (42_pack.md R166, R177). -/
theorem rowBit_row1_consuming (inv maskOr : Bool) (s : State) (m : Memory) (q : Nat)
    (hq : q < 8 * ceilDiv (s.dbit + s.width.toNat) 8) :
    rowBit (Memory.writeAll m (rowCells s.dstAddr.toNat
        (((s.consumingPlan false).source false s).row1 true inv maskOr s))) s.dstAddr.toNat q =
      if s.dbit ≤ q ∧ q < s.dbit + s.width.toNat then
        xor (rowBit s.mem ((s.consumingPlan false).rowAddr false s) (q - s.dbit)) inv
      else maskOr := by
  rw [rowBit_row1 _ true inv maskOr s m q hq, readMem_consuming]
  rfl

/-- Settles O31: the command writes its output row only, from a scratch row that it reads as it was. -/
theorem rotatedPackOneConsumesAScratchRow : Obligations.RotatedPackOneConsumesAScratchRow := by
  intro inv maskOr s hc hv hb hleft hle hrow hout
  simp only [← ceilDiv_eight] at hrow hout ⊢
  have hnext : s.rot.tpLeft - 1 < 16 := by omega
  have hplan := pack1Plan_consuming inv maskOr s hv hb hleft hrow hout
  have hwritten := mem_written_plan1_rotated (s.consumingPlan false) inv maskOr s
  have hover := overlaps_plan1_rotated_iff (s.consumingPlan false) inv maskOr s (show 8 - s.rot.tpLeft < 8 by omega)
  simp only [transposes_consumingPlan, Bool.false_eq_true, false_and, false_or, or_false] at hwritten hover
  refine ⟨_, exec_pack1_ok true inv maskOr s _ hc hplan, endsNormally_commitPack s _,
    rot_commitPack s _ (s.consumingPlan false) rfl hnext (rot_fields_lt s).2, packResult_plan1 _ _ _ _ s,
    by rw [commitPack_eq]; rfl,
    fun a hne => byte_plan1_rotated_of_ne _ inv maskOr s a hne (fun h => absurd h Bool.false_ne_true),
    fun hraced hclear => ?_, fun hfree k hk => ?_⟩
  · obtain ⟨hdraws, hmem⟩ := commitPack_clear1 _ true inv maskOr s hraced (Bool.eq_false_iff.mpr (fun ho => by
      obtain ⟨k, hk, h⟩ := hover.mp ho
      exact h.elim (hclear k hk).1 (hclear k hk).2))
    refine ⟨hdraws, fun q hq => ?_⟩
    rw [hmem, rowBit_row1_consuming inv maskOr s _ q hq]
    rfl
  · exact freshByte_commitPack s _ _ (hfree.symm.imp_left hover.mpr) ((hwritten _).mpr ⟨k, hk, rfl⟩)

/-! ### PACK1.R at a group boundary -/

/-- The row that a transposing pack takes lies in the scratch, so it is in the buffer memory where the scratch is. -/
theorem rowAddr_inBuffer (p : RotPlan) (bpp4 : Bool) (s : State) (hrow : p.row < groupSize bpp4)
    (hscratch : ∀ i < groupSize bpp4 * rotatedBytes bpp4 s.width.toNat, s.rotAddr.toNat + i < s.params.bufBytes) :
    ∀ i < rotatedBytes bpp4 s.width.toNat, p.rowAddr bpp4 s + i < s.params.bufBytes := by
  intro i hi
  obtain ⟨j, hj, heq⟩ := inScratch_rowAddr p bpp4 s i hrow hi
  exact heq ▸ hscratch j hj

theorem pack1Plan_transposing (inv maskOr : Bool) (s : State) (hv : s.rot.tpValid = true) (hb : s.rot.tpBpp4 = false)
    (hleft : s.rot.tpLeft = 0) (hend : s.rot.tpEnd = false)
    (hcol : ∀ j < s.width.toNat,
      s.srcAddr.toNat + j * s.srcStride.toNat + s.rotCol.toNat < s.params.bufBytes)
    (hscratch : ∀ i < 8 * rotatedBytes false s.width.toNat, s.rotAddr.toNat + i < s.params.bufBytes)
    (hout : ∀ k < ceilDiv (s.dbit + s.width.toNat) 8, s.dstAddr.toNat + k < s.params.bufBytes) :
    pack1Plan true inv maskOr s = .ok (((s.transposingPlan false).source false s).plan1 true inv maskOr s) := by
  have hskip : s.rot.tpSkip < 8 := (rot_fields_lt s).2
  have hrow := rowAddr_inBuffer (s.transposingPlan false) false s hskip hscratch
  refine pack1Plan_ok true inv maskOr s _
    (packSource_rotated false s _ (rotPlan_transposing s false hv hb hleft hend hskip))
    (fitsMemory_of_inBuffer _ false s (fun _ => ⟨hcol, hscratch⟩) hrow) ?_ hout
  rw [State.packBit, if_pos rfl, sourceBytes1_rotated]
  exact hrow

/-- The output of a transposing PACK1.R: bit TP_SKIP of every source byte, at DBIT (42_pack.md R166, 43_transpose.md
R193). -/
theorem rowBit_row1_transposing (inv maskOr : Bool) (s : State) (m : Memory) (q : Nat)
    (hq : q < 8 * ceilDiv (s.dbit + s.width.toNat) 8) :
    rowBit (Memory.writeAll m (rowCells s.dstAddr.toNat
        (((s.transposingPlan false).source false s).row1 true inv maskOr s))) s.dstAddr.toNat q =
      if s.dbit ≤ q ∧ q < s.dbit + s.width.toNat then
        xor ((Memory.byte s.mem (s.srcAddr.toNat + (q - s.dbit) * s.srcStride.toNat +
          s.rotCol.toNat)).getLsbD s.rot.tpSkip) inv
      else maskOr := by
  rw [rowBit_row1 _ true inv maskOr s m q hq]
  split_ifs with h
  · have hpixel := rowBit_scratch (s.transposingPlan false) s rfl s.rot.tpSkip (q - s.dbit) (rot_fields_lt s).2
      (show _ < 8 * ceilDiv _ 8 by rw [ceilDiv_eight]; omega)
    rw [if_pos (by omega)] at hpixel
    rw [← hpixel]
    rfl
  · rfl

/-- The scratch of a transposing PACK1.R whose output is clear of it, once the output is written (43_transpose.md
R193, R195). -/
theorem rowBit_scratch_under_row1 (p : RotPlan) (inv maskOr : Bool) (s : State) (ht : p.transposes = true)
    (hclear : ∀ k < ceilDiv (s.dbit + s.width.toNat) 8, ¬s.InScratch false (s.dstAddr.toNat + k)) (k q : Nat)
    (hk : k < 8) (hq : q < 8 * ceilDiv s.width.toNat 8) :
    rowBit (Memory.writeAll ((p.source false s).readMem false s)
        (rowCells s.dstAddr.toNat ((p.source false s).row1 true inv maskOr s)))
        (s.rotAddr.toNat + k * ceilDiv s.width.toNat 8) q =
      if q < s.width.toNat then
        (Memory.byte s.mem (s.srcAddr.toNat + q * s.srcStride.toNat + s.rotCol.toNat)).getLsbD k
      else false := by
  have hin : s.InScratch false (s.rotAddr.toNat + k * ceilDiv s.width.toNat 8 + q / 8) :=
    (exists_row_byte_iff _ _ _ _).mp ⟨k, hk, q / 8, Nat.div_lt_of_lt_mul hq, rfl⟩
  rw [← rowBit_scratch p s ht k q hk hq]
  exact rowBit_congr _ _ _ _ (byte_writeAll_row1_of_ne _ true inv maskOr s _ _
    (fun k' hk' heq => hclear k' hk' (heq ▸ hin)))

/-- Settles O32: the command writes the transposed column to the scratch, and its output from row TP_SKIP of it. -/
theorem rotatedPackOneTransposesAtAGroupBoundary : Obligations.RotatedPackOneTransposesAtAGroupBoundary := by
  intro inv maskOr s hc hv hb hleft hend hcol hscratch hout
  simp only [← ceilDiv_eight] at hscratch hout ⊢
  have hskip : s.rot.tpSkip < 8 := (rot_fields_lt s).2
  have hnext : 7 - s.rot.tpSkip < 16 := by omega
  have hplan := pack1Plan_transposing inv maskOr s hv hb hleft hend hcol hscratch hout
  have hwritten := mem_written_plan1_rotated (s.transposingPlan false) inv maskOr s
  have hover := overlaps_plan1_rotated_iff (s.transposingPlan false) inv maskOr s hskip
  simp only [transposes_transposingPlan, true_and] at hwritten hover
  refine ⟨_, exec_pack1_ok true inv maskOr s _ hc hplan, endsNormally_commitPack s _,
    rot_commitPack s _ (s.transposingPlan false) rfl hnext (by decide : 0 < 8), by rw [commitPack_eq]; rfl,
    packResult_plan1 _ _ _ _ s, by rw [commitPack_eq]; rfl,
    fun a hne hns => byte_plan1_rotated_of_ne _ inv maskOr s a hne (fun _ => hns),
    fun hraced hclear hapart => ?_, fun hfree => ?_⟩
  · obtain ⟨hdraws, hmem⟩ := commitPack_clear1 _ true inv maskOr s hraced (Bool.eq_false_iff.mpr (fun ho => by
      rcases hover.mp ho with ⟨k, hk, h⟩ | ⟨_, ⟨i, hi, rfl⟩, h⟩
      · exact h.elim (hclear k hk).1 (hclear k hk).2
      · exact hapart i hi h))
    have hpixel := rowBit_scratch_under_row1 (s.transposingPlan false) inv maskOr s rfl (fun k hk => (hclear k hk).1)
    rw [hmem]
    refine ⟨hdraws, fun k hk => ⟨fun j hj => ?_, fun q hge hq => ?_⟩, rowBit_row1_transposing inv maskOr s _⟩
    · rw [hpixel k j hk (by rw [ceilDiv_eight]; omega), if_pos hj]
    · rw [hpixel k q hk hq, if_neg (by omega)]
  · have hover' := hfree.symm.imp_left (fun h => hover.mpr (h.imp_right (fun ⟨i, hi, hin⟩ => ⟨_, ⟨i, hi, rfl⟩, hin⟩)))
    exact ⟨fun k hk => freshByte_commitPack s _ _ hover' ((hwritten _).mpr (.inr ⟨k, hk, rfl⟩)),
      fun i hi => freshByte_commitPack s _ _ hover' ((hwritten _).mpr (.inl ⟨i, hi, rfl⟩))⟩

end Sys2Proof.Machine
end

section
/-! ## PACK4, with and without ROT (42_pack.md R171 to R177, 43_transpose.md R194 to R202)

The three planes are rows of one stride, so the shape is that of a rotated PACK1; what is new is the table, which the
planes must stay clear of whole, and the scratch only where the command reads it. -/

namespace Sys2Proof.Machine

/-! ### What a PACK4 writes and when it overlaps -/

theorem mem_written_plan4_plain (a0 : Nat) (maskOr : Bool) (s : State) (a : Nat) :
    a ∈ (({ addr := a0, plan := none } : PackSource).plan4 false maskOr s).foot.written ↔
      ∃ p < 3, ∃ k < ceilDiv s.width.toNat 8, a = s.dstAddr.toNat + p * s.dstStride.toNat + k :=
  mem_out_plan4 _ false maskOr s a

theorem mem_written_plan4_rotated (r : RotPlan) (maskOr : Bool) (s : State) (a : Nat) :
    a ∈ ((r.source true s).plan4 true maskOr s).foot.written ↔
      (r.transposes = true ∧ s.InScratch true a) ∨
        ∃ p < 3, ∃ k < ceilDiv s.width.toNat 8, a = s.dstAddr.toNat + p * s.dstStride.toNat + k := by
  rw [← mem_out_plan4 (r.source true s) true maskOr, PackSource.plan4, footprint_out, mem_written_rotated]

/-- A plane byte meets the spans of the table exactly when it is in the table: there is a table where there is a plane
byte (42_pack.md R175). -/
theorem tableSpans_has_of_plane (s : State) (k a : Nat) (hk : k < ceilDiv s.width.toNat 8) :
    (∃ r ∈ s.tableSpans, r.has a = true) ↔ s.InTable a := by
  rw [ceilDiv_eight] at hk
  exact (tableSpans_has_iff s a).trans (and_iff_right (by omega))

theorem overlaps_plan4_plain_iff (a0 : Nat) (maskOr : Bool) (s : State) :
    (({ addr := a0, plan := none } : PackSource).plan4 false maskOr s).foot.overlaps = true ↔
      (∃ p < 3, ∃ k < ceilDiv s.width.toNat 8,
        s.InTable (s.dstAddr.toNat + p * s.dstStride.toNat + k) ∨
        ∃ j < sourceBytes4 s.sbit s.width.toNat,
          s.dstAddr.toNat + p * s.dstStride.toNat + k = a0 + j) ∨
      s.dstStride.toNat < ceilDiv s.width.toNat 8 := by
  have hout := mem_out_plan4 { addr := a0, plan := none } false maskOr s
  have hnodup := nodup_out_plan4_iff { addr := a0, plan := none } false maskOr s
  rw [PackSource.plan4, footprint_out] at hout hnodup
  rw [PackSource.plan4, overlaps_plain_iff _ _ _ _ _ _ _ (tableReads_subset _ false s), hnodup, Nat.not_le]
  simp only [hout, mem_addresses]
  refine or_congr_left ⟨?_, ?_⟩
  · rintro ⟨_, ⟨p, hp, k, hk, rfl⟩, h⟩
    exact ⟨p, hp, k, hk, h.symm.imp_left (tableSpans_has_of_plane s k _ hk).mp⟩
  · rintro ⟨p, hp, k, hk, h⟩
    exact ⟨_, ⟨p, hp, k, hk, rfl⟩, (h.imp_left (tableSpans_has_of_plane s k _ hk).mpr).symm⟩

theorem overlaps_plan4_rotated_iff (r : RotPlan) (maskOr : Bool) (s : State) (hrow : r.row < 2) :
    ((r.source true s).plan4 true maskOr s).foot.overlaps = true ↔
      (∃ p < 3, ∃ k < ceilDiv s.width.toNat 8,
        s.InScratch true (s.dstAddr.toNat + p * s.dstStride.toNat + k) ∨
        s.InSourceRegion (s.dstAddr.toNat + p * s.dstStride.toNat + k) ∨
        s.InTable (s.dstAddr.toNat + p * s.dstStride.toNat + k)) ∨
      (r.transposes = true ∧ ∃ a, s.InScratch true a ∧ (s.InColumn a ∨ a ∈ (r.source true s).tableReads true s)) ∨
      s.dstStride.toNat < ceilDiv s.width.toNat 8 := by
  have hout := mem_out_plan4 (r.source true s) true maskOr s
  have hnodup := nodup_out_plan4_iff (r.source true s) true maskOr s
  rw [PackSource.plan4, footprint_out] at hout hnodup
  rw [PackSource.plan4, State.packBit, if_pos rfl, sourceBytes4_rotated,
    overlaps_rotated_iff r true s _ _ _ hrow (tableReads_subset _ true s), hnodup, Nat.not_le]
  simp only [hout]
  refine or_congr_left ⟨?_, ?_⟩
  · rintro ⟨_, ⟨p, hp, k, hk, rfl⟩, h⟩
    exact ⟨p, hp, k, hk, h.imp_right (.imp_right (tableSpans_has_of_plane s k _ hk).mp)⟩
  · rintro ⟨p, hp, k, hk, h⟩
    exact ⟨_, ⟨p, hp, k, hk, rfl⟩, h.imp_right (.imp_right (tableSpans_has_of_plane s k _ hk).mpr)⟩

/-- A rotated PACK4 leaves every byte outside its planes and, where it transposes, outside the scratch. -/
theorem byte_plan4_rotated_of_ne (r : RotPlan) (maskOr : Bool) (s : State) (a : Nat)
    (hne : ∀ p < 3, ∀ k < ceilDiv s.width.toNat 8, a ≠ s.dstAddr.toNat + p * s.dstStride.toNat + k)
    (hns : r.transposes = true → ¬s.InScratch true a) :
    Memory.byte (s.commitPack ((r.source true s).plan4 true maskOr s)).finish.mem a = Memory.byte s.mem a := by
  refine byte_commitPack_of_not_mem s _ a (fun hmem => ?_)
  rcases (mem_written_plan4_rotated r maskOr s a).mp hmem with ⟨ht, hs⟩ | ⟨p, hp, k, hk, rfl⟩
  · exact hns ht hs
  · exact hne p hp k hk rfl

/-- A rotated PACK4 whose planes are clear of one another, the scratch, the source region and the table, and whose
scratch writes are clear of the column and the table, does not overlap. -/
theorem overlaps_plan4_rotated_eq_false (r : RotPlan) (maskOr : Bool) (s : State) (hrow : r.row < 2)
    (hstride : ceilDiv s.width.toNat 8 ≤ s.dstStride.toNat)
    (hclear : ∀ p < 3, ∀ k < ceilDiv s.width.toNat 8,
      ¬s.InScratch true (s.dstAddr.toNat + p * s.dstStride.toNat + k) ∧
      ¬s.InSourceRegion (s.dstAddr.toNat + p * s.dstStride.toNat + k) ∧
      ¬s.InTable (s.dstAddr.toNat + p * s.dstStride.toNat + k))
    (hapart : r.transposes = true → ∀ a, s.InScratch true a → ¬s.InColumn a ∧ ¬s.InTable a) :
    ((r.source true s).plan4 true maskOr s).foot.overlaps = false := by
  rw [Bool.eq_false_iff]
  intro ho
  rcases (overlaps_plan4_rotated_iff r maskOr s hrow).mp ho with ⟨p, hp, k, hk, h⟩ | ⟨ht, a, ha, h⟩ | h
  · obtain ⟨hscratch, hsource, htable⟩ := hclear p hp k hk
    exact h.elim hscratch (·.elim hsource htable)
  · obtain ⟨hcolumn, htable⟩ := hapart ht a ha
    exact h.elim hcolumn (fun h => htable ((tableSpans_has_iff s a).mp (tableReads_subset _ true s a h)).2)
  · omega

/-- A byte outside PACK4's planes is not changed by writing them. -/
theorem byte_writeAll_planes_of_ne (src : PackSource) (rot maskOr : Bool) (s : State) (m : Memory) (a : Nat)
    (h : ∀ p < 3, ∀ k < ceilDiv s.width.toNat 8, a ≠ s.dstAddr.toNat + p * s.dstStride.toNat + k) :
    Memory.byte (Memory.writeAll m (rowsCells s.dstAddr.toNat s.dstStride.toNat (src.planes rot maskOr s))) a =
      Memory.byte m a := by
  refine byte_writeAll_of_not_mem _ _ _ (fun hmem => ?_)
  rw [mem_map_fst_rowsCells _ _ _ _ (length_of_mem_planes src rot maskOr s), length_planes] at hmem
  obtain ⟨p, hp, k, hk, rfl⟩ := hmem
  exact h p hp k hk rfl

/-! ### PACK4 without ROT -/

/-- Settles O39: the command writes its planes only, and they are free wherever they meet the row, the table or one
another. -/
theorem packFourCompletesAndWritesOnlyItsPlanes : Obligations.PackFourCompletesAndWritesOnlyItsPlanes := by
  intro maskOr s hc hd hs hsrc htable hout
  simp only [← ceilDiv_eight, ← ceilDiv_two] at hsrc hout ⊢
  have hrow (j : Nat) (hj : j < sourceBytes4 s.sbit s.width.toNat) : s.srcAddr.toNat + j < s.params.bufBytes := by
    unfold sourceBytes4 at hj
    split_ifs at hj with hw
    · omega
    · exact hsrc (by omega) j hj
  have hplan := pack4Plan_ok false maskOr s _ ((pack4Operands_iff false s).mpr ⟨hd, .inr hs⟩)
    (packSource_plain true s) rfl hrow htable hout
  have hwritten := mem_written_plan4_plain s.srcAddr.toNat maskOr s
  have hover := overlaps_plan4_plain_iff s.srcAddr.toNat maskOr s
  refine ⟨_, exec_pack4_ok false maskOr s _ hc hplan, endsNormally_commitPack s _, packResult_plan4 _ _ _ s,
    by rw [commitPack_eq]; rfl, fun a hne => ?_, fun hfree p hp k hk => ?_⟩
  · exact byte_commitPack_of_not_mem s _ a (fun hmem => by
      obtain ⟨p, hp, k, hk, rfl⟩ := (hwritten a).mp hmem
      exact hne p hp k hk rfl)
  · refine freshByte_commitPack s _ _ (hfree.symm.imp_left (fun h => hover.mpr (h.symm.imp_left ?_)))
      ((hwritten _).mpr ⟨p, hp, k, hk, rfl⟩)
    rintro ⟨p, hp, k, hk, h⟩
    have hbytes : sourceBytes4 s.sbit s.width.toNat = ceilDiv (s.sbit + s.width.toNat) 2 :=
      if_neg (by rw [ceilDiv_eight] at hk; omega)
    exact ⟨p, hp, k, hk, by rwa [hbytes]⟩

/-! ### PACK4.R with a row left -/

theorem pack4Plan_consuming (maskOr : Bool) (s : State) (hd : s.dbit = 0) (hv : s.rot.tpValid = true)
    (hb : s.rot.tpBpp4 = true) (hleft : 0 < s.rot.tpLeft)
    (hrow : ∀ i < rotatedBytes true s.width.toNat,
      (s.consumingPlan true).rowAddr true s + i < s.params.bufBytes)
    (htable : 0 < s.width.toNat → s.lutAddr.toNat + 1023 < s.params.bufBytes)
    (hout : ∀ p < 3, ∀ k < ceilDiv s.width.toNat 8,
      s.dstAddr.toNat + p * s.dstStride.toNat + k < s.params.bufBytes) :
    pack4Plan true maskOr s = .ok (((s.consumingPlan true).source true s).plan4 true maskOr s) :=
  pack4Plan_ok true maskOr s _ ((pack4Operands_iff true s).mpr ⟨hd, .inl rfl⟩)
    (packSource_rotated true s _ (rotPlan_consuming s true hv hb hleft))
    (fitsMemory_of_inBuffer _ true s (fun h => absurd h Bool.false_ne_true) hrow)
    (by rw [State.packBit, if_pos rfl, sourceBytes4_rotated]; exact hrow) htable hout

/-! ### PACK4.R at a group boundary -/

theorem pack4Plan_transposing (maskOr : Bool) (s : State) (hd : s.dbit = 0) (hv : s.rot.tpValid = true)
    (hb : s.rot.tpBpp4 = true) (hleft : s.rot.tpLeft = 0) (hend : s.rot.tpEnd = false) (hskip : s.rot.tpSkip < 2)
    (hcol : ∀ j < s.width.toNat,
      s.srcAddr.toNat + j * s.srcStride.toNat + s.rotCol.toNat < s.params.bufBytes)
    (hscratch : ∀ i < 2 * rotatedBytes true s.width.toNat, s.rotAddr.toNat + i < s.params.bufBytes)
    (htable : 0 < s.width.toNat → s.lutAddr.toNat + 1023 < s.params.bufBytes)
    (hout : ∀ p < 3, ∀ k < ceilDiv s.width.toNat 8,
      s.dstAddr.toNat + p * s.dstStride.toNat + k < s.params.bufBytes) :
    pack4Plan true maskOr s = .ok (((s.transposingPlan true).source true s).plan4 true maskOr s) := by
  have hrow := rowAddr_inBuffer (s.transposingPlan true) true s hskip hscratch
  refine pack4Plan_ok true maskOr s _ ((pack4Operands_iff true s).mpr ⟨hd, .inl rfl⟩)
    (packSource_rotated true s _ (rotPlan_transposing s true hv hb hleft hend hskip))
    (fitsMemory_of_inBuffer _ true s (fun _ => ⟨hcol, hscratch⟩) hrow) ?_ htable hout
  rw [State.packBit, if_pos rfl, sourceBytes4_rotated]
  exact hrow

/-- A pixel of the row that a transposing PACK4.R takes: nibble TP_SKIP of a source byte (43_transpose.md R194). -/
theorem packPixel_transposing (s : State) (hskip : s.rot.tpSkip < 2) (i : Nat) :
    packPixel (((s.transposingPlan true).source true s).readMem true s) ((s.transposingPlan true).rowAddr true s) 0
        s.width.toNat i =
      if i < s.width.toNat then
        (Memory.byte s.mem (s.srcAddr.toNat + i * s.srcStride.toNat + s.rotCol.toNat)).extractLsb'
          (4 * s.rot.tpSkip) 4
      else 0 := by
  unfold packPixel
  split_ifs with hi
  · have hpixel := rowNibble_scratch (s.transposingPlan true) s rfl s.rot.tpSkip i hskip
      (show _ < 2 * ceilDiv _ 2 by rw [ceilDiv_two]; omega)
    rw [if_pos hi] at hpixel
    rw [Nat.zero_add, ← hpixel]
    rfl
  · rfl

/-- The planes of a transposing PACK4.R whose scratch is clear of the table (42_pack.md R173, R177). -/
theorem rowBit_planes_transposing (maskOr : Bool) (s : State) (m : Memory) (p q : Nat) (hp : p < 3)
    (hq : q < 8 * ceilDiv s.width.toNat 8) (hskip : s.rot.tpSkip < 2)
    (hstride : ceilDiv s.width.toNat 8 ≤ s.dstStride.toNat) (hapart : ∀ a, s.InScratch true a → ¬s.InTable a) :
    rowBit (Memory.writeAll m (rowsCells s.dstAddr.toNat s.dstStride.toNat
        (((s.transposingPlan true).source true s).planes true maskOr s)))
        (s.dstAddr.toNat + p * s.dstStride.toNat) q =
      if q < s.width.toNat then
        tableBit s.mem s.lutAddr.toNat p
          ((Memory.byte s.mem (s.srcAddr.toNat + 2 * (q / 2) * s.srcStride.toNat +
            s.rotCol.toNat)).extractLsb' (4 * s.rot.tpSkip) 4)
          (if 2 * (q / 2) + 1 < s.width.toNat then
            (Memory.byte s.mem (s.srcAddr.toNat + (2 * (q / 2) + 1) * s.srcStride.toNat +
              s.rotCol.toNat)).extractLsb' (4 * s.rot.tpSkip) 4
          else 0) q
      else maskOr := by
  rw [rowBit_planes _ true maskOr s m p q hp hq hstride]
  by_cases h : q < s.width.toNat
  · have hfirst := packPixel_transposing s hskip (2 * (q / 2))
    have hsecond := packPixel_transposing s hskip (2 * (q / 2) + 1)
    rw [if_pos (by omega)] at hfirst
    rw [if_pos h, if_pos h, ← hfirst, ← hsecond]
    exact tableBit_congr _ _ _ _ _ _ _ hp (fun i hi =>
      byte_readMem_of_not_scratch _ true s _ (fun _ hin => hapart _ hin ⟨i, hi, rfl⟩))
  · rw [if_neg h, if_neg h]

/-- The scratch of a transposing PACK4.R whose planes are clear of it, once they are written (43_transpose.md R194,
R195). -/
theorem rowNibble_scratch_under_planes (r : RotPlan) (maskOr : Bool) (s : State) (ht : r.transposes = true)
    (hclear : ∀ p < 3, ∀ k < ceilDiv s.width.toNat 8,
      ¬s.InScratch true (s.dstAddr.toNat + p * s.dstStride.toNat + k)) (k q : Nat)
    (hk : k < 2) (hq : q < 2 * ceilDiv s.width.toNat 2) :
    rowNibble (Memory.writeAll ((r.source true s).readMem true s)
        (rowsCells s.dstAddr.toNat s.dstStride.toNat ((r.source true s).planes true maskOr s)))
        (s.rotAddr.toNat + k * ceilDiv s.width.toNat 2) q =
      if q < s.width.toNat then
        (Memory.byte s.mem (s.srcAddr.toNat + q * s.srcStride.toNat + s.rotCol.toNat)).extractLsb' (4 * k) 4
      else 0 := by
  have hin : s.InScratch true (s.rotAddr.toNat + k * ceilDiv s.width.toNat 2 + q / 2) :=
    (exists_row_byte_iff _ _ _ _).mp ⟨k, hk, q / 2, Nat.div_lt_of_lt_mul hq, rfl⟩
  rw [← rowNibble_scratch r s ht k q hk hq]
  exact rowNibble_congr _ _ _ _ (byte_writeAll_planes_of_ne _ true maskOr s _ _
    (fun p hp k' hk' heq => hclear p hp k' hk' (heq ▸ hin)))

/-- Settles O33: at a group boundary the command writes the transposed column to the scratch and its planes from row
TP_SKIP of it; with a row left it writes its planes only. -/
theorem rotatedPackFourTransposesAtAGroupBoundary : Obligations.RotatedPackFourTransposesAtAGroupBoundary := by
  intro maskOr s hc hd hv hb htable hout
  simp only [← ceilDiv_eight, ← ceilDiv_two] at hout ⊢
  refine ⟨fun hleft hend hskip hcol hscratch => ?_, fun hleft hle hrow => ?_⟩
  · have hnext : 1 - s.rot.tpSkip < 16 := by omega
    have hplan := pack4Plan_transposing maskOr s hd hv hb hleft hend hskip hcol hscratch htable hout
    have hwritten := mem_written_plan4_rotated (s.transposingPlan true) maskOr s
    have hover := overlaps_plan4_rotated_iff (s.transposingPlan true) maskOr s hskip
    simp only [transposes_transposingPlan, true_and] at hwritten hover
    refine ⟨_, exec_pack4_ok true maskOr s _ hc hplan, endsNormally_commitPack s _,
      rot_commitPack s _ (s.transposingPlan true) rfl hnext (by decide : 0 < 8), by rw [commitPack_eq]; rfl,
      packResult_plan4 _ _ _ s, by rw [commitPack_eq]; rfl,
      fun a hne hns => byte_plan4_rotated_of_ne _ maskOr s a hne (fun _ => hns),
      fun hraced hstride hclear hapart => ?_, fun hfree => ?_⟩
    · have hdisjoint (a : Nat) (ha : s.InScratch true a) : ¬s.InColumn a ∧ ¬s.InTable a := by
        obtain ⟨i, hi, rfl⟩ := ha
        exact hapart i hi
      obtain ⟨hdraws, hmem⟩ := commitPack_clear4 _ true maskOr s hraced
        (overlaps_plan4_rotated_eq_false (s.transposingPlan true) maskOr s hskip hstride hclear (fun _ => hdisjoint))
      have hpixel := rowNibble_scratch_under_planes (s.transposingPlan true) maskOr s rfl
        (fun p hp k hk => (hclear p hp k hk).1)
      rw [hmem]
      refine ⟨hdraws, fun k hk => ⟨fun j hj => ?_, fun q hge hq => ?_⟩, fun p hp q hq =>
        rowBit_planes_transposing maskOr s _ p q hp hq hskip hstride (fun a ha => (hdisjoint a ha).2)⟩
      · rw [hpixel k j hk (by rw [ceilDiv_two]; omega), if_pos hj]
      · rw [hpixel k q hk hq, if_neg (by omega)]
    · have hover' : _ ∨ s.raced ≠ [] := hfree.symm.imp_left (fun h => hover.mpr (by
        rcases h with h | h | ⟨i, hi, h⟩
        · exact .inr (.inr h)
        · exact .inl h
        · exact .inr (.inl ⟨_, ⟨i, hi, rfl⟩, .inl h⟩)))
      exact ⟨fun p hp k hk => freshByte_commitPack s _ _ hover' ((hwritten _).mpr (.inr ⟨p, hp, k, hk, rfl⟩)),
        fun i hi => freshByte_commitPack s _ _ hover' ((hwritten _).mpr (.inl ⟨i, hi, rfl⟩))⟩
  · have hnext : s.rot.tpLeft - 1 < 16 := by omega
    have hkept : 2 - s.rot.tpLeft < 2 := by omega
    have hplan := pack4Plan_consuming maskOr s hd hv hb hleft hrow htable hout
    have hwritten := mem_written_plan4_rotated (s.consumingPlan true) maskOr s
    have hover := overlaps_plan4_rotated_iff (s.consumingPlan true) maskOr s hkept
    simp only [transposes_consumingPlan, Bool.false_eq_true, false_and, false_or] at hwritten hover
    refine ⟨_, exec_pack4_ok true maskOr s _ hc hplan, endsNormally_commitPack s _,
      rot_commitPack s _ (s.consumingPlan true) rfl hnext (rot_fields_lt s).2, packResult_plan4 _ _ _ s,
      by rw [commitPack_eq]; rfl,
      fun a hne => byte_plan4_rotated_of_ne _ maskOr s a hne (fun h => absurd h Bool.false_ne_true),
      fun hraced hstride hclear => ?_, fun hfree p hp k hk => ?_⟩
    · obtain ⟨hdraws, hmem⟩ := commitPack_clear4 _ true maskOr s hraced
        (overlaps_plan4_rotated_eq_false (s.consumingPlan true) maskOr s hkept hstride hclear
          (fun h => absurd h Bool.false_ne_true))
      refine ⟨hdraws, fun p hp q hq => ?_⟩
      rw [hmem, rowBit_planes _ true maskOr s _ p q hp hq hstride, readMem_consuming]
      rfl
    · exact freshByte_commitPack s _ _ (hfree.symm.imp_left (fun h => hover.mpr h.symm))
        ((hwritten _).mpr ⟨p, hp, k, hk, rfl⟩)

end Sys2Proof.Machine
end

section
/-! ## The command word (30_encoding.md R80 to R88): decoding and encoding are inverse

The row of R82 that a word can match is the one its OP selects. Writing back the fields that a row reads from a word
gives the row's match bits and the word's own free bits; so a word matches a row exactly when it is the encoding of the
command that the row reads from it, and both round trips, and the illegal words of R84, are read off that. -/

namespace Sys2Proof

/-! ### The rows of R82 -/

/-- Each row has its own OP value (R81). -/
theorem ofField_eq_some_iff (f : BitVec 4) (op : Opcode) :
    Opcode.ofField f = some op ↔ f = opField op.pattern := by
  cases op <;> revert f <;> decide

/-- The match bits of a row lie under its mask. -/
theorem pattern_and_mask (op : Opcode) : op.pattern &&& op.mask = op.pattern := by
  cases op <;> decide

/-- Every mask covers OP. -/
theorem opField_mask (op : Opcode) : opField op.mask = BitVec.allOnes 4 := by
  cases op <;> decide

/-- A word that matches a row has the row's OP value. -/
theorem ofField_of_match (w : Word) (op : Opcode) (h : w &&& op.mask = op.pattern) :
    Opcode.ofField (opField w) = some op := by
  rw [ofField_eq_some_iff, ← h]
  simp only [opField, BitVec.extractLsb'_and]
  rw [← opField, ← opField, opField_mask, BitVec.and_allOnes]

/-! ### Fields written back at their bits -/

/-- A flag written back at the bit it was read from is that bit of the word (R88). -/
theorem flagAt_getLsbD (w : Word) (n : Nat) : flagAt (w.getLsbD n) n = w &&& (1 : Word) <<< n :=
  (BitVec.and_twoPow w n).symm

/-- PLANE written back at bits [9:8] is those two bits of the word (R88). -/
theorem planeField_shifted (w : Word) : (planeField w).setWidth 32 <<< 8 = w &&& 0x300 := by
  apply BitVec.eq_of_getLsbD_eq
  intro i hi
  simp only [planeField, BitVec.getLsbD_shiftLeft, BitVec.getLsbD_setWidth, BitVec.getLsbD_extractLsb',
    BitVec.getLsbD_and]
  interval_cases i <;> simp

/-- The encoding of the command that a row reads from a word: the row's match bits, and the word's bits outside the
row's mask (R82, R88). -/
theorem encode_command (op : Opcode) (w : Word) : encode (op.command w) = op.pattern ||| (w &&& ~~~op.mask) := by
  cases op with
  | nop | openSession | closeSession | seedClr => simp [Opcode.command, encode, Opcode.mask]
  | tpose | rotStart => rw [Opcode.command, encode, bpp4Field, flagAt_getLsbD]; rfl
  | pack1 =>
    rw [Opcode.command, encode, rotField, invField, maskOrField, flagAt_getLsbD, flagAt_getLsbD, flagAt_getLsbD,
      BitVec.or_assoc, BitVec.or_assoc, ← BitVec.and_or_distrib_left, ← BitVec.and_or_distrib_left]
    rfl
  | pack4 =>
    rw [Opcode.command, encode, rotField, maskOrField, flagAt_getLsbD, flagAt_getLsbD, BitVec.or_assoc,
      ← BitVec.and_or_distrib_left]
    rfl
  | compress => rw [Opcode.command, encode, planeField_shifted]; rfl

/-- A word matches a row exactly when it is the encoding of the command the row reads from it (R82, R88). -/
theorem encode_command_eq_iff (op : Opcode) (w : Word) :
    encode (op.command w) = w ↔ w &&& op.mask = op.pattern := by
  rw [encode_command]
  constructor
  · intro h
    calc w &&& op.mask = (op.pattern ||| (w &&& ~~~op.mask)) &&& op.mask := by rw [h]
      _ = (op.pattern &&& op.mask) ||| (w &&& (~~~op.mask &&& op.mask)) := by
          rw [BitVec.and_or_distrib_right, BitVec.and_assoc]
      _ = op.pattern := by simp [pattern_and_mask]
  · intro h
    rw [← h, ← BitVec.and_or_distrib_left, BitVec.or_not_self, BitVec.and_allOnes]

/-! ### The decoder -/

/-- A word that matches a row decodes to the row's command, if that is well-formed (R82, R83). -/
theorem decode_of_match (w : Word) (op : Opcode) (h : w &&& op.mask = op.pattern) :
    decode w = if (op.command w).wellFormed then .ok (op.command w) else .error .illegalPlane := by
  simp only [decode, ofField_of_match w op h, h, if_true]

/-- A word that matches no row is refused (R84). -/
theorem decode_of_no_match (w : Word) (h : ∀ op : Opcode, w &&& op.mask ≠ op.pattern) :
    ∃ e, decode w = .error e := by
  unfold decode
  split
  · exact ⟨_, rfl⟩
  next op _ =>
    rw [if_neg (h op)]
    split <;> exact ⟨_, rfl⟩

/-- What decodes is a well-formed command that a row reads from a word it matches. -/
theorem row_of_decode_eq_ok (w : Word) (i : Instr) (h : decode w = .ok i) :
    ∃ op : Opcode, w &&& op.mask = op.pattern ∧ op.command w = i ∧ i.wellFormed = true := by
  by_cases hrow : ∃ op : Opcode, w &&& op.mask = op.pattern
  · obtain ⟨op, hop⟩ := hrow
    rw [decode_of_match w op hop] at h
    split at h
    next hwf =>
      cases h
      exact ⟨op, hop, rfl, hwf⟩
    next => cases h
  · obtain ⟨e, he⟩ := decode_of_no_match w (not_exists.mp hrow)
    cases he.symm.trans h

/-- The operation of a command (R81). -/
def Instr.opcode : Instr → Opcode
  | .nop => .nop
  | .openSession => .openSession
  | .closeSession => .closeSession
  | .seedClr => .seedClr
  | .tpose _ => .tpose
  | .rotStart _ => .rotStart
  | .pack1 _ _ _ => .pack1
  | .pack4 _ _ => .pack4
  | .compress _ => .compress

/-- The row of a command reads every field of it back from its encoding (R88), COMPRESS with PLANE = 3 too. -/
theorem command_encode (i : Instr) : i.opcode.command (encode i) = i := by
  cases i with
  | nop | openSession | closeSession | seedClr => rfl
  | tpose bpp4 | rotStart bpp4 => cases bpp4 <;> decide
  | pack1 rot inv maskOr => cases rot <;> cases inv <;> cases maskOr <;> decide
  | pack4 rot maskOr => cases rot <;> cases maskOr <;> decide
  | compress plane => revert plane; decide

/-- The one ill-formed command is COMPRESS with PLANE = 3 (R83). -/
theorem eq_compress_three_of_not_wellFormed (i : Instr) (h : ¬i.wellFormed = true) : i = .compress 3 := by
  cases i with
  | compress plane => simpa [Instr.wellFormed] using h
  | nop | openSession | closeSession | seedClr | tpose | rotStart | pack1 | pack4 => exact absurd rfl h

/-! ### The statements -/

/-- Settles O3: the word matches a row, so it is the encoding of the command the row reads from it. -/
theorem decodedWordIsTheEncodingOfItsCommand : Obligations.DecodedWordIsTheEncodingOfItsCommand := by
  intro w i h
  obtain ⟨op, hop, rfl, hwf⟩ := row_of_decode_eq_ok w i h
  exact ⟨hwf, (encode_command_eq_iff op w).mpr hop⟩

/-- Settles O2: the encoding matches the command's row, which reads the command back from it. -/
theorem everyCommandDecodesFromItsEncoding : Obligations.EveryCommandDecodesFromItsEncoding := by
  intro i hwf
  have hrow : encode i &&& i.opcode.mask = i.opcode.pattern :=
    (encode_command_eq_iff i.opcode (encode i)).mp (by rw [command_encode])
  rw [decode_of_match _ _ hrow, command_encode, if_pos hwf]

/-- Settles O4: a word that matches a row is refused only for its ill-formed command, and is then the encoding of it. -/
theorem refusedWordsAreTheIllegalOnes : Obligations.RefusedWordsAreTheIllegalOnes := by
  intro w
  constructor
  · rintro ⟨e, he⟩
    refine or_iff_not_imp_left.mpr (fun hrow => ?_)
    obtain ⟨op, hop⟩ := not_forall_not.mp hrow
    have hill : ¬(op.command w).wellFormed = true := fun hwf => by
      rw [decode_of_match w op hop, if_pos hwf] at he
      cases he
    rw [← (encode_command_eq_iff op w).mpr hop, eq_compress_three_of_not_wellFormed _ hill]
    rfl
  · rintro (hrow | rfl)
    · exact decode_of_no_match w hrow
    · exact ⟨.illegalPlane, rfl⟩

/-- Settles O1: each word is closed, so the decoder evaluates on it. -/
theorem sampleWordsDecode : Obligations.SampleWordsDecode :=
  ⟨rfl, rfl, rfl, rfl, rfl, rfl, rfl, rfl, rfl, rfl⟩

end Sys2Proof
end

section
/-! ## The engine step (30_encoding.md R84, R91): it runs the command, or raises ILLEGAL, and retires it -/

namespace Sys2Proof.Machine

/-! ### The two engine steps -/

/-- The engine step of a legal word (R91). -/
theorem step_of_command (s t : State) (i : Instr) (hturn : s.engineTurn = true) (hcmd : decode s.cmd = .ok i)
    (hexec : exec i s = .next t) : step s = .next t.retire := by
  simp only [step, hturn, if_true, engineStep, hcmd, hexec, retireOutcome]

/-- The engine step of an illegal word (R84). -/
theorem step_of_illegal (s : State) (e : DecodeError) (hturn : s.engineTurn = true) (hcmd : decode s.cmd = .error e) :
    step s = .next (s.raiseError .illegal).retire := by
  simp only [step, hturn, if_true, engineStep, hcmd]

/-- The engine step of any word has a next state: every command has one (R91). -/
theorem engineStep_next (s : State) (hturn : s.engineTurn = true) : ∃ t, step s = .next t := by
  cases hcmd : decode s.cmd with
  | error e => exact ⟨_, step_of_illegal s e hturn hcmd⟩
  | ok i =>
    obtain ⟨t, hexec⟩ := exec_next i s
    exact ⟨_, step_of_command s t i hturn hcmd hexec⟩

/-! ### Retiring a command -/

/-- Retiring a command does not write STATUS. -/
theorem busy_retire (s : State) : s.retire.busy = s.busy := by rw [retire_eq]; rfl

/-- A retired command has raced with nothing. -/
theorem raced_retire (s : State) : s.retire.raced = [] := rfl

/-- Without a race, retiring a command only ends its delay (20_memory.md R71; logs 4, 6). -/
theorem retire_of_not_raced (s : State) (h : s.raced = []) : s.retire = { s with delay := 0 } := by
  simp only [State.retire, h, State.drawBytes]

/-! ### The statements -/

/-- Settles O7: the next state is the end of an engine step, which clears BUSY, retired. -/
theorem everyEngineStepFinishesItsCommand : Obligations.EveryEngineStepFinishesItsCommand := by
  intro s hturn
  obtain ⟨t, hstep⟩ := engineStep_next s hturn
  obtain ⟨u, e, rfl, -⟩ := engineStep_ends s t hturn hstep
  exact ⟨_, hstep, (busy_retire _).trans (busy_endStep u e), raced_retire _⟩

/-- Settles O5: what the right-hand side writes out is `State.retire`. -/
theorem engineStepRunsTheDecodedCommand : Obligations.EngineStepRunsTheDecodedCommand :=
  fun s t i hturn hcmd hexec => step_of_command s t i hturn hcmd hexec

/-- Settles O6: the error changes nothing but STATUS, and retiring it, without a race, nothing but the delay. -/
theorem illegalWordRaisesIllegal : Obligations.IllegalWordRaisesIllegal := by
  intro s e hturn hraced hcmd
  obtain ⟨hfields, hreserved, -⟩ := endsWithError_raiseError s .illegal
  have hstep := step_of_illegal s e hturn hcmd
  rw [retire_of_not_raced (s.raiseError .illegal) hraced] at hstep
  exact ⟨_, hstep, hfields, hreserved, rfl⟩

end Sys2Proof.Machine
end

section
/-! ## The control commands (40_control.md R100 to R104), and the session check of COMPRESS (R100)

What exec answers is said once for each value of SESSION that a command tells apart. A command with the wrong SESSION is
an error on the unchanged state. One with the right SESSION ends normally on what it writes: NOP and SEEDCLR leave
STATUS to the end of the engine step; OPEN and CLOSE also write its SESSION bit, one with 1 and the other with 0. -/

namespace Sys2Proof.Machine

/-! ### What exec answers -/

/-- OPEN of a free session (R102). -/
theorem exec_openSession_of_free (s : State) (hc : s.cancelRequested = false) (hs : s.session = false) :
    exec .openSession s = .next s.opened.finish := by
  simp only [exec, execOpen, unlessCancelled_of_not _ _ hc, hs, Bool.false_eq_true, if_false]

/-- OPEN in a session (R100). -/
theorem exec_openSession_of_session (s : State) (hc : s.cancelRequested = false) (hs : s.session = true) :
    exec .openSession s = .next (s.raiseError .reentry) := by
  simp only [exec, execOpen, unlessCancelled_of_not _ _ hc, hs, if_true]

/-- CLOSE of a session, whatever CTRL.CANCEL is (R103). -/
theorem exec_closeSession_of_session (s : State) (hs : s.session = true) :
    exec .closeSession s = .next s.closed.finish := by
  simp only [exec, execClose, hs, if_true]

/-- CLOSE outside a session (R100). -/
theorem exec_closeSession_of_free (s : State) (hs : s.session = false) :
    exec .closeSession s = .next (s.raiseError .noSession) := by
  simp only [exec, execClose, hs, Bool.false_eq_true, if_false]

/-- SEEDCLR in a session, whatever CTRL.CANCEL is (R104). -/
theorem exec_seedClr_of_session (s : State) (hs : s.session = true) :
    exec .seedClr s = .next s.zeroSeeds.finish := by
  simp only [exec, execSeedClr, hs, if_true]

/-- SEEDCLR outside a session (R100). -/
theorem exec_seedClr_of_free (s : State) (hs : s.session = false) :
    exec .seedClr s = .next (s.raiseError .noSession) := by
  simp only [exec, execSeedClr, hs, Bool.false_eq_true, if_false]

/-- COMPRESS of a legal plane outside a session (R100, 60_exceptions.md R223). -/
theorem exec_compress_of_free (p : BitVec 2) (s : State) (hp : p ≠ 3) (hc : s.cancelRequested = false)
    (hs : s.session = false) : exec (.compress p) s = .next (s.raiseError .noSession) := by
  simp only [exec, execCompress, hp, unlessCancelled_of_not _ _ hc, hs, Bool.false_eq_true, if_false]

/-! ### STATUS after OPEN and CLOSE -/

/-- STATUS at the normal end of a command that writes SESSION: every field the end of the engine step keeps is the one
before the command, since SESSION is a bit of its own (10_state.md R26, 30_encoding.md R91). -/
theorem finish_of_session_written (s u : State) (b : Bool) (hu : u.status = setBit s.status 1 b) :
    u.finish.statusFields = (false, b, false, s.err, s.errCode, false) ∧
      u.finish.statusReserved = s.statusReserved := by
  have hbit : ∀ i, u.status.getLsbD i = if i = 1 then b else s.status.getLsbD i := fun i => by
    rw [hu, getLsbD_setBit _ _ _ _ (by omega)]
  have hsession : u.session = b := hbit 1
  have herr : u.err = s.err := hbit 3
  have hcode : u.errCode = s.errCode := errCode_eq_of_bits _ _ (fun i hi => by
    rw [hbit, if_neg (by omega), State.errCode, BitVec.getLsbD_extractLsb', decide_eq_true hi, Bool.true_and])
  have hreserved : u.statusReserved = s.statusReserved := by
    rw [State.statusReserved, hu, statusReserved_setBit _ _ _ (by omega), State.statusReserved]
  obtain ⟨hfields, hkept⟩ := endsNormally_finish u u.finish rfl
  rw [hsession, herr, hcode] at hfields
  exact ⟨hfields, hkept.trans hreserved⟩

/-! ### The statements -/

/-- Settles O19: each of the four fails its session check, and its error changes nothing but STATUS. -/
theorem sessionRequirements : Obligations.SessionRequirements := by
  intro s p
  refine ⟨fun hs hc => ?_, fun hs => ⟨?_, ?_, fun hc hp => ?_⟩⟩
  · exact ⟨_, exec_openSession_of_session s hc hs, endsWithError_raiseError s .reentry⟩
  · exact ⟨_, exec_closeSession_of_free s hs, endsWithError_raiseError s .noSession⟩
  · exact ⟨_, exec_seedClr_of_free s hs, endsWithError_raiseError s .noSession⟩
  · exact ⟨_, exec_compress_of_free p s hp hc hs, endsWithError_raiseError s .noSession⟩

/-- Settles O20: NOP has no check, and the end of the engine step is all it does. -/
theorem nopOnlyEndsItsStep : Obligations.NopOnlyEndsItsStep :=
  ⟨everyCommandDecodesFromItsEncoding .nop rfl, fun s =>
    ⟨s.finish, rfl, endsNormally_finish s s.finish rfl, rfl⟩⟩

/-- Settles O21: OPEN of a free session writes SESSION with 1 beside zero seed rows and METHOD. -/
theorem openClaimsTheSession : Obligations.OpenClaimsTheSession := by
  refine ⟨everyCommandDecodesFromItsEncoding .openSession rfl, fun s hs hc => ?_⟩
  obtain ⟨hfields, hreserved⟩ := finish_of_session_written s s.opened true rfl
  exact ⟨_, exec_openSession_of_free s hc hs, hfields, hreserved, rfl, seedsZero_zeroSeeds s, seedsSized_zeroSeeds s,
    rfl⟩

/-- Settles O22: CLOSE of a session writes SESSION with 0 beside zero seed rows, METHOD and ROT_STATE. -/
theorem closeReleasesTheSession : Obligations.CloseReleasesTheSession := by
  refine ⟨everyCommandDecodesFromItsEncoding .closeSession rfl, fun s hs => ?_⟩
  obtain ⟨hfields, hreserved⟩ := finish_of_session_written s s.closed false rfl
  exact ⟨_, exec_closeSession_of_session s hs, hfields, hreserved, rfl, rfl, seedsZero_zeroSeeds s,
    seedsSized_zeroSeeds s, rfl⟩

/-- Settles O23: SEEDCLR in a session writes the seed rows, and leaves STATUS to the end of the engine step. -/
theorem seedClrZeroesTheSeedRows : Obligations.SeedClrZeroesTheSeedRows := by
  refine ⟨everyCommandDecodesFromItsEncoding .seedClr rfl, fun s hs => ?_⟩
  exact ⟨_, exec_seedClr_of_session s hs, endsNormally_finish s s.zeroSeeds.finish rfl, seedsZero_zeroSeeds s,
    seedsSized_zeroSeeds s, rfl⟩

end Sys2Proof.Machine
end

section
/-! ## The codecs of COMPRESS (41_compress.md R126 to R132, R140): what each encoder writes, its decoder reads back

Delta is followed run by run. The decoder's `out` is at every point the part of the scanline the encoder has passed,
then the rest of the seed row, and one run moves that boundary on by the run's length and the unchanged bytes before it.
PackBits is read off in `PackBitsReads`: a literal run and a repeat run each put their bytes before what follows. -/

namespace Sys2Proof.Machine

/-! ### The header and the offset of a Delta run (R127) -/

/-- The header as a number: `n - 1` from bit 5 up, and the capped offset below. -/
theorem toNat_deltaHeader (n off : Nat) (hn : n ≤ 8) :
    (deltaHeader n off).toNat = 32 * (n - 1) + min off 31 := by
  have hoff : min off 31 < 2 ^ 5 := by omega
  have hrun : (BitVec.ofNat 8 (n - 1) <<< 5).toNat = (n - 1) <<< 5 := by
    simp only [BitVec.toNat_shiftLeft, BitVec.toNat_ofNat, Nat.shiftLeft_eq]
    omega
  rw [deltaHeader, BitVec.toNat_or, hrun, BitVec.toNat_ofNat, Nat.mod_eq_of_lt (by omega),
    ← Nat.shiftLeft_add_eq_or_of_lt hoff, Nat.shiftLeft_eq]
  omega

/-- The loop of `Ext` writes the continuation value once for each time it goes into `r`, then the remainder. -/
theorem deltaExtLoop_eq (K : Byte) (hK : K ≠ 0) (fuel r : Nat) (hr : r ≤ fuel) :
    deltaExtLoop K fuel r = List.replicate (r / K.toNat) K ++ [BitVec.ofNat 8 (r % K.toNat)] := by
  have hpos : 0 < K.toNat := Nat.pos_of_ne_zero (fun h => hK (BitVec.eq_of_toNat_eq h))
  induction fuel generalizing r with
  | zero =>
    obtain rfl : r = 0 := by omega
    simp [deltaExtLoop]
  | succ fuel ih =>
    rw [deltaExtLoop]
    split_ifs with hle
    · rw [ih (r - K.toNat) (by omega), Nat.div_eq_sub_div hpos hle, Nat.mod_eq_sub_mod hle, List.replicate_succ,
        List.cons_append]
    · rw [Nat.div_eq_of_lt (by omega), Nat.mod_eq_of_lt (by omega)]
      rfl

theorem deltaExt_of_lt (K : Byte) (off : Nat) (h : off < 31) : deltaExt K off = [] := if_pos h

theorem deltaExt_of_ge (K : Byte) (off : Nat) (hK : K ≠ 0) (h : 31 ≤ off) :
    deltaExt K off =
      List.replicate ((off - 31) / K.toNat) K ++ [BitVec.ofNat 8 ((off - 31) % K.toNat)] := by
  rw [deltaExt, if_neg (by omega), deltaExtLoop_eq K hK _ _ (by omega)]

/-- The last extension byte is below the continuation value. -/
theorem toNat_lastExt (K : Byte) (r : Nat) (hK : K ≠ 0) :
    (BitVec.ofNat 8 (r % K.toNat)).toNat = r % K.toNat ∧ r % K.toNat < K.toNat := by
  have hlt : r % K.toNat < K.toNat := Nat.mod_lt _ (Nat.pos_of_ne_zero (fun h => hK (BitVec.eq_of_toNat_eq h)))
  refine ⟨?_, hlt⟩
  rw [BitVec.toNat_ofNat, Nat.mod_eq_of_lt (hlt.trans K.isLt)]

/-- The decoder adds continuation bytes up to the first byte that is none. -/
theorem readExt_replicate (K b : Byte) (hb : b ≠ K) (q off : Nat) (E : List Byte) :
    readExt K off (List.replicate q K ++ b :: E) = (off + q * K.toNat + b.toNat, E) := by
  induction q generalizing off with
  | zero => simp [readExt, hb]
  | succ q ih =>
    rw [List.replicate_succ, List.cons_append, readExt, if_pos rfl, ih, Nat.succ_mul]
    congr 1
    omega

/-- The decoder reads back the offset that a header and its extension bytes carry. -/
theorem readOffset_deltaHeader (K : Byte) (n off : Nat) (E : List Byte) (hK : K ≠ 0) (hn : n ≤ 8) :
    readOffset K (deltaHeader n off) (deltaExt K off ++ E) = (off, E) := by
  have hlow : (deltaHeader n off).toNat % 32 = min off 31 := by
    rw [toNat_deltaHeader n off hn]
    omega
  rw [readOffset, hlow]
  rcases Nat.lt_or_ge off 31 with h | h
  · rw [if_neg (by omega), deltaExt_of_lt K off h, List.nil_append, Nat.min_eq_left (by omega)]
  · obtain ⟨hlast, hltK⟩ := toNat_lastExt K (off - 31) hK
    have hne : BitVec.ofNat 8 ((off - 31) % K.toNat) ≠ K := fun he => by
      rw [he] at hlast
      omega
    have hsum : 31 + (off - 31) / K.toNat * K.toNat + (off - 31) % K.toNat = off := by
      rw [Nat.add_assoc, Nat.div_add_mod']
      omega
    rw [if_pos (by omega), deltaExt_of_ge K off hK h, List.append_assoc, List.singleton_append,
      readExt_replicate K _ hne, hlast, hsum]

/-! ### The runs of Delta (R126) -/

theorem deltaPass_nil (K : Byte) (fuel off : Nat) : deltaPass K fuel off [] = [] := by
  cases fuel <;> rfl

/-- At a differing byte the pass writes one run of 1 to 8 bytes and goes on after it. -/
theorem deltaPass_of_ne (K : Byte) (fuel off : Nat) (p : Byte × Byte) (ps : List (Byte × Byte)) (hp : p.1 ≠ p.2) :
    ∃ run rest, p :: ps = run ++ rest ∧ 1 ≤ run.length ∧ run.length ≤ 8 ∧
      deltaPass K (fuel + 1) off (p :: ps) =
        deltaHeader run.length off :: (deltaExt K off ++ run.map Prod.fst ++ deltaPass K fuel 0 rest) := by
  have hle := (List.takeWhile_prefix (fun q : Byte × Byte => q.1 != q.2) (l := (p :: ps).take 8)).length_le
  rw [← deltaRunLength, List.length_take] at hle
  have hlen : ((p :: ps).take (deltaRunLength (p :: ps))).length = deltaRunLength (p :: ps) := by
    rw [List.length_take]
    omega
  refine ⟨_, _, (List.take_append_drop (deltaRunLength (p :: ps)) (p :: ps)).symm, ?_, by omega, ?_⟩
  · rw [hlen]
    simp [deltaRunLength, hp]
  · rw [hlen, deltaPass, if_neg hp]

/-- Delta is empty exactly when no byte of the rest differs, when the fuel is enough. -/
theorem deltaPass_eq_nil_iff (K : Byte) (fuel off : Nat) (pairs : List (Byte × Byte)) (hf : pairs.length ≤ fuel) :
    deltaPass K fuel off pairs = [] ↔ ∀ p ∈ pairs, p.1 = p.2 := by
  induction fuel generalizing off pairs with
  | zero =>
    obtain rfl : pairs = [] := List.length_eq_zero_iff.mp (by omega)
    simp [deltaPass_nil]
  | succ fuel ih =>
    cases pairs with
    | nil => simp [deltaPass_nil]
    | cons p ps =>
      rw [deltaPass]
      split_ifs with hp
      · simp [ih (off + 1) ps (by simpa using hf), hp]
      · simp [hp]

theorem deltaDecodePass_nil (K : Byte) (fuel pos : Nat) (out : List Byte) :
    deltaDecodePass K fuel [] pos out = out := by
  cases fuel <;> rfl

/-- Overwriting right after `done` leaves `done` and what follows the overwritten bytes. -/
theorem overwriteAt_append (done rest bs : List Byte) (a : Nat) (ha : done.length = a) :
    overwriteAt (done ++ rest) a bs = done ++ bs ++ rest.drop bs.length := by
  subst ha
  simp [overwriteAt, List.drop_append, List.drop_eq_nil_of_le]

/-- One run of the decoder: from the end of `done`, `off` bytes past `pos`, it puts the run's bytes over the row. -/
theorem deltaDecodePass_run (K : Byte) (fuel off pos : Nat) (run E done rest : List Byte) (hK : K ≠ 0)
    (hpos : 1 ≤ run.length) (hle : run.length ≤ 8) (hdone : done.length = pos + off) :
    deltaDecodePass K (fuel + 1) (deltaHeader run.length off :: (deltaExt K off ++ run ++ E)) pos (done ++ rest) =
      deltaDecodePass K fuel E (pos + off + run.length) (done ++ run ++ rest.drop run.length) := by
  have hn : (deltaHeader run.length off).toNat / 32 + 1 = run.length := by
    rw [toNat_deltaHeader _ _ hle]
    omega
  rw [deltaDecodePass, List.append_assoc, readOffset_deltaHeader K _ off _ hK hle, hn, List.drop_left,
    List.take_left, overwriteAt_append _ _ _ _ hdone]

/-- The decoder passes over the encoding of the rest of the row. `done` is the part of the scanline the encoder has
passed: up to `pos`, the end of the last run, and the `off` unchanged bytes after it. -/
theorem deltaDecodePass_deltaPass (K : Byte) (hK : K ≠ 0) (fuel : Nat) (pairs : List (Byte × Byte)) (off pos : Nat)
    (done : List Byte) (decoderFuel : Nat) (hf : pairs.length ≤ fuel) (hdone : done.length = pos + off)
    (hd : (deltaPass K fuel off pairs).length ≤ decoderFuel) :
    deltaDecodePass K decoderFuel (deltaPass K fuel off pairs) pos (done ++ pairs.map Prod.snd) =
      done ++ pairs.map Prod.fst := by
  induction fuel generalizing pairs off pos done decoderFuel with
  | zero =>
    obtain rfl : pairs = [] := List.length_eq_zero_iff.mp (by omega)
    simp [deltaPass_nil, deltaDecodePass_nil]
  | succ fuel ih =>
    cases pairs with
    | nil => simp [deltaPass_nil, deltaDecodePass_nil]
    | cons p ps =>
      rw [List.length_cons] at hf
      by_cases hp : p.1 = p.2
      · rw [deltaPass, if_pos hp] at hd ⊢
        have hstep := ih ps (off + 1) pos (done ++ [p.1]) decoderFuel (by omega) (by simp [hdone]; omega) hd
        simpa [hp] using hstep
      · obtain ⟨run, rest, hsplit, hpos, hle, hpass⟩ := deltaPass_of_ne K fuel off p ps hp
        have hlength := congrArg List.length hsplit
        rw [List.length_cons, List.length_append] at hlength
        have hdrop : ((p :: ps).map Prod.snd).drop run.length = rest.map Prod.snd := by
          rw [hsplit, List.map_append, List.drop_left' (by simp)]
        rw [hpass, List.length_cons, List.length_append] at hd
        obtain ⟨decoderFuel, rfl⟩ : ∃ f, decoderFuel = f + 1 := ⟨decoderFuel - 1, by omega⟩
        have hrun := deltaDecodePass_run K decoderFuel off pos (run.map Prod.fst) (deltaPass K fuel 0 rest) done
          ((p :: ps).map Prod.snd) hK (by simpa using hpos) (by simpa using hle) hdone
        rw [List.length_map, hdrop] at hrun
        rw [hpass, hrun, ih rest 0 _ _ _ (by omega) (by simp [hdone]) (by omega), hsplit, List.map_append,
          List.append_assoc]

/-! ### The runs of PackBits (R130, R132) -/

/-- The encoding `E` decodes to `S`, with any fuel that is enough (R140). -/
def PackBitsReads (E S : List Byte) : Prop := ∀ fuel, E.length ≤ fuel → packBitsDecodePass fuel E = S

theorem packBitsReads_nil : PackBitsReads [] [] := by
  intro fuel _
  cases fuel <;> rfl

/-- A literal run puts its bytes before what the rest decodes to. -/
theorem PackBitsReads.literal {E S : List Byte} (h : PackBitsReads E S) (lit : List Byte) (hl : lit.length ≤ 128) :
    PackBitsReads (flushLiteral lit ++ E) (lit ++ S) := by
  cases lit with
  | nil => exact h
  | cons b bs =>
    rw [List.length_cons] at hl
    have hcontrol : (BitVec.ofNat 8 bs.length).toNat = bs.length := by
      rw [BitVec.toNat_ofNat, Nat.mod_eq_of_lt (by omega)]
    have hsign : 0 ≤ (BitVec.ofNat 8 bs.length).toInt := by
      rw [BitVec.toInt_eq_toNat_of_lt (by omega)]
      omega
    have hflush : flushLiteral (b :: bs) = BitVec.ofNat 8 bs.length :: b :: bs := rfl
    rintro (_ | fuel) hf
    · simp [hflush] at hf
    · have hE : E.length ≤ fuel := by simp [hflush] at hf; omega
      rw [hflush, List.cons_append, packBitsDecodePass, if_pos hsign, hcontrol, ← List.length_cons (a := b),
        List.take_left, List.drop_left, h fuel hE]

/-- The control byte of a repeat run is the number `1 - r` in two's complement. -/
theorem toInt_repeatControl (r : Nat) (h : r ≤ 128) : (repeatControl r).toInt = 1 - (r : Int) := by
  rw [repeatControl, BitVec.toInt_ofInt, Int.bmod_eq_of_le_mul_two] <;> omega

/-- A repeat run puts its bytes before what the rest decodes to. -/
theorem PackBitsReads.repeatRun {E S : List Byte} (h : PackBitsReads E S) (b : Byte) (r : Nat) (h3 : 3 ≤ r)
    (hr : r ≤ 128) : PackBitsReads (repeatControl r :: b :: E) (List.replicate r b ++ S) := by
  have hcontrol := toInt_repeatControl r hr
  rintro (_ | fuel) hf
  · simp at hf
  · have hE : E.length ≤ fuel := by simp at hf; omega
    rw [packBitsDecodePass, if_neg (by omega), hcontrol, List.tail_cons, List.headD_cons, h fuel hE,
      show (1 - (1 - (r : Int))).toNat = r by omega]

/-- The run of equal bytes that starts a row: at most 128 of them, then the rest. -/
theorem repeatLength_spec (b : Byte) (bs : List Byte) :
    repeatLength b bs ≤ 128 ∧
      List.replicate (repeatLength b bs) b ++ bs.drop (repeatLength b bs - 1) = b :: bs := by
  have hprefix := (List.takeWhile_prefix (fun c => c == b) (l := bs.take 127)).trans (List.take_prefix 127 bs)
  have hall : (bs.take 127).takeWhile (fun c => c == b) =
      List.replicate ((bs.take 127).takeWhile (fun c => c == b)).length b :=
    List.eq_replicate_of_mem (fun c hc => by simpa using List.mem_takeWhile_imp hc)
  have hle := (List.takeWhile_prefix (fun c => c == b) (l := bs.take 127)).length_le
  rw [List.length_take] at hle
  refine ⟨by rw [repeatLength]; omega, ?_⟩
  rw [repeatLength, Nat.add_comm, List.replicate_succ, List.cons_append, Nat.add_sub_cancel, ← hall]
  exact congrArg (b :: ·) (List.prefix_append_drop hprefix).symm

/-- The pass of PackBits decodes to the pending literal run and the rest of the row. -/
theorem packBitsReads_packBitsPass (fuel : Nat) (lit bs : List Byte) (hlit : lit.length < 128)
    (hf : bs.length ≤ fuel) : PackBitsReads (packBitsPass fuel lit bs) (lit ++ bs) := by
  induction fuel generalizing lit bs with
  | zero =>
    obtain rfl : bs = [] := List.length_eq_zero_iff.mp (by omega)
    simpa [packBitsPass] using packBitsReads_nil.literal lit hlit.le
  | succ fuel ih =>
    cases bs with
    | nil => simpa [packBitsPass] using packBitsReads_nil.literal lit hlit.le
    | cons b bs =>
      rw [List.length_cons] at hf
      rw [packBitsPass]
      split_ifs with hrun hfull
      case pos =>
        obtain ⟨hr, hsplit⟩ := repeatLength_spec b bs
        have hrest := ih [] (bs.drop (repeatLength b bs - 1)) (by simp) (by rw [List.length_drop]; omega)
        rw [← hsplit]
        exact (hrest.repeatRun b _ hrun hr).literal lit hlit.le
      case pos =>
        simpa using (ih [] bs (by simp) (by omega)).literal (lit ++ [b]) hfull.le
      case neg =>
        rw [List.length_append, List.length_singleton] at hfull
        simpa using ih (lit ++ [b]) bs (by simp; omega) (by omega)

/-! ### The trimmed row (R131) -/

/-- A row is its trimmed row and zeros after it. -/
theorem trimZeros_append_zeros (S : List Byte) :
    trimZeros S ++ List.replicate (S.length - (trimZeros S).length) 0 = S := by
  have hsplit : trimZeros S ++ S.rtakeWhile (fun b => b == 0) = S := List.rdropWhile_append_rtakeWhile
  have hzeros : S.rtakeWhile (fun b => b == 0) =
      List.replicate (S.rtakeWhile (fun b => b == 0)).length (0 : Byte) :=
    List.eq_replicate_of_mem (fun c hc => by simpa using List.mem_rtakeWhile_imp hc)
  have hlength := congrArg List.length hsplit
  rw [List.length_append] at hlength
  rw [← hlength, Nat.add_sub_cancel_left, ← hzeros, hsplit]

/-- Zeros at the end of a row do not change its trimmed row. -/
theorem trimZeros_append_replicate (S : List Byte) (n : Nat) :
    trimZeros (S ++ List.replicate n 0) = trimZeros S := by
  induction n with
  | zero => simp
  | succ n ih =>
    rw [List.replicate_succ', ← List.append_assoc]
    exact (List.rdropWhile_concat_pos _ _ _ rfl).trans ih

/-! ### The statements -/

/-- Settles O48: the decoder follows the pass from the start of the row, with the whole seed row still to be passed. -/
theorem deltaDecodesToItsRow : Obligations.DeltaDecodesToItsRow := by
  intro K S R hK hlen
  have h := deltaDecodePass_deltaPass K hK S.length (S.zip R) 0 0 [] (delta K S R).length (by simp [hlen]) rfl le_rfl
  rwa [List.nil_append, List.nil_append, List.map_snd_zip hlen.ge, List.map_fst_zip hlen.le] at h

/-- Settles O49: the pass decodes to the trimmed row, and the decoder pads it with the zeros that were trimmed. -/
theorem packBitsDecodesToItsRow : Obligations.PackBitsDecodesToItsRow := by
  intro S
  have h : packBitsDecodePass (packBits S).length (packBits S) = trimZeros S :=
    packBitsReads_packBitsPass _ [] (trimZeros S) (by simp) le_rfl _ le_rfl
  rw [packBitsDecode, h, trimZeros_append_zeros]

/-- Settles O50: an empty PackBits decodes to zeros, and PackBits sees only the trimmed row. -/
theorem emptyEncodingsAndTrailingZeros : Obligations.EmptyEncodingsAndTrailingZeros := by
  refine ⟨fun K S R hlen => ?_, fun S n => ⟨⟨fun h => ?_, fun h => ?_⟩, ?_⟩⟩
  · rw [delta, deltaPass_eq_nil_iff _ _ _ _ (by simp [hlen]), ← List.map_inj_left, List.map_fst_zip hlen.le,
      List.map_snd_zip hlen.ge]
  · have hS := packBitsDecodesToItsRow S
    rw [h] at hS
    exact hS.symm
  · have htrim : trimZeros S = [] := by
      rw [h]
      exact trimZeros_append_replicate [] S.length
    rw [packBits, htrim]
    rfl
  · rw [packBits, trimZeros_append_replicate, packBits]

/-- Settles O51: the header is `32 * (n - 1)` plus the capped offset, and the extension is division with remainder. -/
theorem deltaOffsetExtension : Obligations.DeltaOffsetExtension := by
  refine fun K off hK => ⟨fun n hpos hn => ?_, deltaExt_of_lt K off, fun h => ?_⟩
  · have hheader := toNat_deltaHeader n off hn
    simp only [BitVec.extractLsb'_toNat, hheader, Nat.shiftRight_eq_div_pow]
    omega
  · obtain ⟨hlast, hltK⟩ := toNat_lastExt K (off - 31) hK
    refine ⟨_, deltaExt_of_ge K off hK h, by omega, ?_⟩
    rw [hlast, Nat.div_add_mod']

end Sys2Proof.Machine
end

section
/-! ## COMPRESS (41_compress.md R120 to R142): the checks, the row result and what it leaves

`State.compressed` is the state after a COMPRESS that passes its checks, one definition for REPEAT, ALLZERO and the
selection, and each of its registers, seed rows and bytes is said once. Every statement then reads the row result off
`compressRow`: the row is its seed row, or is all zero, or goes to the winning candidate. -/

namespace Sys2Proof.Machine

/-! ### The row and its seed row (R120) -/

theorem scanline_eq (s : State) :
    s.scanline = (List.range s.len.toNat).map (fun j => Memory.byte s.mem (s.srcAddr.toNat + j)) :=
  List.map_map

theorem seedRow_eq (s : State) (p : BitVec 2) :
    s.seedRow p = (List.range s.len.toNat).map (fun j => (s.seed p).getD j 0) := rfl

theorem length_scanline (s : State) : s.scanline.length = s.len.toNat := by
  rw [scanline_eq, List.length_map, List.length_range]

theorem length_seedRow (s : State) (p : BitVec 2) : (s.seedRow p).length = s.len.toNat := by
  rw [seedRow_eq, List.length_map, List.length_range]

/-- The scanline is its seed row exactly when every byte is. -/
theorem scanline_eq_seedRow_iff (s : State) (p : BitVec 2) : s.scanline = s.seedRow p ↔
    ∀ j < s.len.toNat, Memory.byte s.mem (s.srcAddr.toNat + j) = (s.seed p).getD j 0 := by
  rw [scanline_eq, seedRow_eq, List.map_inj_left]
  simp only [List.mem_range]

/-- The scanline is all zero exactly when every byte is. -/
theorem scanline_eq_zeros_iff (s : State) : s.scanline = List.replicate s.scanline.length 0 ↔
    ∀ j < s.len.toNat, Memory.byte s.mem (s.srcAddr.toNat + j) = 0 := by
  rw [List.eq_replicate_iff, scanline_eq]
  simp

/-! ### The row result (R124, R125, R134 to R136) -/

theorem rowResult_of_repeat (s : State) (p : BitVec 2) (h : s.scanline = s.seedRow p) :
    s.rowResult p = { kind := .repeatRow } := if_pos h

theorem rowResult_of_allZero (s : State) (p : BitVec 2) (hne : s.scanline ≠ s.seedRow p)
    (hz : s.scanline = List.replicate s.scanline.length 0) :
    s.rowResult p = { kind := .allZero, seed := some (List.replicate s.scanline.length 0) } := by
  rw [State.rowResult, compressRow, if_neg hne, if_pos hz]

/-- Delta wins: it is built, it gains, and PackBits is not built, or does not gain, or is longer, or ties while
ACT.METHOD is Delta (R129, R134, R136). `L`, `d` and `k` are the lengths of the row and of the candidates. -/
def deltaWins (mode : Mode) (method : Bool) (L d k : Nat) : Bool :=
  mode != .packBits && decide (d < L) && (mode == .delta || decide (L ≤ k) || decide (d < k) || (d == k && !method))

/-- PackBits wins: it is built, it gains, and Delta does not win (R133, R135, R136). -/
def packBitsWins (mode : Mode) (method : Bool) (L d k : Nat) : Bool :=
  mode != .delta && decide (k < L) && !deltaWins mode method L d k

/-- `Select` over the candidates that the mode builds: in the fixed modes one candidate that gains or not, in ADAPTIVE
the comparison of the two. -/
theorem selectCandidate_eq (K : Byte) (mode : Mode) (method : Bool) (S R : List Byte) (hm : mode ≠ .block) :
    selectCandidate method S.length (deltaCandidate K mode S R) (packBitsCandidate mode S) =
      if deltaWins mode method S.length (delta K S R).length (packBits S).length then (.delta, delta K S R)
      else if packBitsWins mode method S.length (delta K S R).length (packBits S).length then (.packBits, packBits S)
      else (.noGain, []) := by
  cases mode with
  | block => exact absurd rfl hm
  | delta =>
    simp only [deltaCandidate, packBitsCandidate, deltaWins, packBitsWins]
    by_cases hd : (delta K S R).length < S.length <;> simp [selectCandidate, hd]
  | packBits =>
    simp only [deltaCandidate, packBitsCandidate, deltaWins, packBitsWins]
    by_cases hk : (packBits S).length < S.length <;> simp [selectCandidate, hk]
  | adaptive =>
    simp only [selectCandidate, deltaCandidate, packBitsCandidate, deltaWins, packBitsWins]
    generalize delta K S R = d
    generalize packBits S = k
    by_cases hd : d.length < S.length
    · by_cases hk : k.length < S.length
      · rcases Nat.lt_trichotomy d.length k.length with h | h | h
        · simp [hd, h]
        · cases method <;> simp [hk, h]
        · simp [hd, hk, h, h.not_gt, h.ne', hk.not_ge]
      · simp [hd, hk, Nat.le_of_not_lt hk]
    · simp [hd]

/-- Delta wins the row of a COMPRESS of plane `p`. -/
def State.deltaWins (s : State) (p : BitVec 2) : Bool :=
  Machine.deltaWins s.mode s.method s.len.toNat (delta s.params.deltaExtCont s.scanline (s.seedRow p)).length
    (packBits s.scanline).length

/-- PackBits wins it. -/
def State.packBitsWins (s : State) (p : BitVec 2) : Bool :=
  Machine.packBitsWins s.mode s.method s.len.toNat (delta s.params.deltaExtCont s.scanline (s.seedRow p)).length
    (packBits s.scanline).length

/-- A row that is neither its seed row nor all zero goes to its winner. -/
theorem rowResult_of_winner (s : State) (p : BitVec 2) (hm : s.mode ≠ .block) (hne : s.scanline ≠ s.seedRow p)
    (hnz : s.scanline ≠ List.replicate s.scanline.length 0) :
    s.rowResult p =
      { kind := if s.deltaWins p then .delta else if s.packBitsWins p then .packBits else .noGain
        out := if s.deltaWins p then delta s.params.deltaExtCont s.scanline (s.seedRow p)
          else if s.packBitsWins p then packBits s.scanline else []
        deltaSize := (deltaCandidate s.params.deltaExtCont s.mode s.scanline (s.seedRow p)).map List.length
        packBitsSize := (packBitsCandidate s.mode s.scanline).map List.length
        seed := some s.scanline } := by
  rw [State.rowResult, compressRow, if_neg hne, if_neg hnz, selectCandidate_eq _ _ _ _ _ hm, length_scanline,
    ← State.deltaWins, ← State.packBitsWins]
  split_ifs <;> rfl

theorem deltaCandidate_of_ne (K : Byte) (mode : Mode) (S R : List Byte) (hb : mode ≠ .block) (hm : mode ≠ .packBits) :
    deltaCandidate K mode S R = some (delta K S R) := by
  cases mode with
  | block => exact absurd rfl hb
  | packBits => exact absurd rfl hm
  | delta => rfl
  | adaptive => rfl

theorem packBitsCandidate_of_ne (mode : Mode) (S : List Byte) (hb : mode ≠ .block) (hm : mode ≠ .delta) :
    packBitsCandidate mode S = some (packBits S) := by
  cases mode with
  | block => exact absurd rfl hb
  | delta => exact absurd rfl hm
  | packBits => rfl
  | adaptive => rfl

/-- The bytes of a row result are counted by a register. -/
theorem length_out_rowResult_lt (s : State) (p : BitVec 2) : (s.rowResult p).out.length < 2 ^ 32 := by
  have hle := length_out_compressRow s.params.deltaExtCont s.mode s.method s.scanline (s.seedRow p)
  rw [length_scanline] at hle
  exact hle.trans_lt s.len.isLt

theorem toNat_sizeWord (n : Nat) (h : n < 2 ^ 32) : (sizeWord (some n)).toNat = n := by
  rw [sizeWord, if_pos h, BitVec.toNat_ofNat, Nat.mod_eq_of_lt h]

/-- The continuation value of a legal machine is not 0 (00_scope.md R5). -/
theorem deltaExtCont_ne_zero (P : Params) (h : P.wf = true) : P.deltaExtCont ≠ 0 := by
  intro h0
  simp [Params.wf, h0] at h

/-! ### What exec answers (R121) -/

theorem exec_compress_of_plan (p : BitVec 2) (s : State) (c : CompressPlan) (hp : p ≠ 3)
    (hc : s.cancelRequested = false) (hs : s.session = true) (h : compressPlan p s = .ok c) :
    exec (.compress p) s = .next ((s.commitRow p c).endStep c.ending) := by
  simp only [exec, execCompress, hp, unlessCancelled_of_not _ _ hc, hs, h, if_true, if_false]

theorem exec_compress_of_error (p : BitVec 2) (s : State) (e : ErrorCode) (hp : p ≠ 3)
    (hc : s.cancelRequested = false) (hs : s.session = true) (h : compressPlan p s = .error e) :
    exec (.compress p) s = .next (s.raiseError e) := by
  simp only [exec, execCompress, hp, unlessCancelled_of_not _ _ hc, hs, h, if_true, if_false]

/-- A command that writes no byte leaves buffer memory and the counter of free bytes as they were. -/
theorem commit_of_no_writes (s : State) (f : Footprint) (h : f.writes = []) : s.commit f = s := by
  unfold State.commit
  split
  · rw [Footprint.written, h]
    rfl
  · rw [h]
    rfl

/-- A COMPRESS that writes no byte writes its seed row and the result registers (R122 to R125). -/
theorem commitRow_of_no_writes (s : State) (p : BitVec 2) (c : CompressPlan) (h : c.foot.writes = []) :
    s.commitRow p c = (s.updateSeed p c.result.seed).setResult c.result := by
  rw [State.commitRow, commit_of_no_writes s _ h]

/-- COMPRESS in mode BLOCK (R122). -/
theorem exec_compress_of_block (p : BitVec 2) (s : State) (hp : p ≠ 3) (hc : s.cancelRequested = false)
    (hs : s.session = true) (hm : s.mode = .block) :
    exec (.compress p) s = .next (s.setResult { kind := .noGain }).finish := by
  rw [exec_compress_of_plan p s _ hp hc hs (if_pos hm), commitRow_of_no_writes _ _ _ rfl]
  rfl

/-- COMPRESS of a row longer than the seed rows (R123). -/
theorem exec_compress_of_long (p : BitVec 2) (s : State) (hp : p ≠ 3) (hc : s.cancelRequested = false)
    (hs : s.session = true) (hm : s.mode ≠ .block) (hl : s.params.seedBytes < s.len.toNat) :
    exec (.compress p) s = .next ((s.setResult { kind := .noGain }).endStep .degraded) := by
  rw [exec_compress_of_plan p s _ hp hc hs ((if_neg hm).trans (if_pos hl)), commitRow_of_no_writes _ _ _ rfl]
  rfl

/-! ### The state after the row (R121) -/

/-- What a COMPRESS that passes its checks does. -/
def State.rowPlan (s : State) (p : BitVec 2) : CompressPlan :=
  { foot := { reads := addresses s.srcAddr.toNat s.len.toNat, out := rowCells s.dstAddr.toNat (s.rowResult p).out }
    result := s.rowResult p
    ending := .normal }

/-- The state after it. -/
def State.compressed (s : State) (p : BitVec 2) : State := (s.commitRow p (s.rowPlan p)).finish

theorem exec_compress_of_fits (p : BitVec 2) (s : State) (hp : p ≠ 3) (hc : s.cancelRequested = false)
    (hs : s.session = true) (hm : s.mode ≠ .block) (hl : s.len.toNat ≤ s.params.seedBytes)
    (hsrc : ∀ j < s.len.toNat, s.srcAddr.toNat + j < s.params.bufBytes)
    (hdst : ∀ j < (s.rowResult p).out.length, s.dstAddr.toNat + j < s.params.bufBytes) :
    exec (.compress p) s = .next (s.compressed p) := by
  refine exec_compress_of_plan p s (s.rowPlan p) hp hc hs ?_
  rw [compressPlan, if_neg hm, if_neg (by omega), if_pos ((fits_iff _ _ _).mpr hsrc),
    if_pos ((fits_iff _ _ _).mpr hdst), State.rowPlan]

/-- A COMPRESS that raises no error and does not degrade has passed its checks. -/
theorem eq_compressed_of_exec (p : BitVec 2) (s t : State) (hp : p ≠ 3) (hc : s.cancelRequested = false)
    (hs : s.session = true) (hm : s.mode ≠ .block) (hexec : exec (.compress p) s = .next t) (herr : t.err = false)
    (hdeg : t.degraded = false) : t = s.compressed p := by
  rcases compressPlan_cases p s with ⟨hblock, -⟩ | ⟨-, hlong, -⟩ | ⟨-, -, -, hplan⟩ | ⟨-, -, -, -, hplan⟩
  · exact absurd hblock hm
  · rw [exec_compress_of_long p s hp hc hs hm hlong] at hexec
    cases hexec
    obtain ⟨-, -, -, -, -, hdegraded⟩ := (statusFields_eq_iff _ _ _ _ _ _ _).mp
      (endsDegraded_endStep s ((s.setResult { kind := .noGain }).endStep .degraded) rfl).1
    exact absurd (hdeg.symm.trans hdegraded) (by decide)
  · rw [exec_compress_of_error p s _ hp hc hs hplan] at hexec
    cases hexec
    obtain ⟨-, -, -, hraised, -, -⟩ := (statusFields_eq_iff _ _ _ _ _ _ _).mp (endsWithError_raiseError s .bounds).1
    exact absurd (herr.symm.trans hraised) (by decide)
  · rw [exec_compress_of_plan p s _ hp hc hs hplan] at hexec
    cases hexec
    rfl

theorem endsNormally_compressed (s : State) (p : BitVec 2) : EndsNormally s (s.compressed p) :=
  endsNormally_finish s _ (by simp [State.compressed, State.commitRow, State.finish])

@[simp] theorem compressed_resKind (s : State) (p : BitVec 2) :
    (s.compressed p).resKind = (s.rowResult p).kind.word := rfl

@[simp] theorem compressed_dsize (s : State) (p : BitVec 2) :
    (s.compressed p).dsize = sizeWord (s.rowResult p).deltaSize := rfl

@[simp] theorem compressed_psize (s : State) (p : BitVec 2) :
    (s.compressed p).psize = sizeWord (s.rowResult p).packBitsSize := rfl

@[simp] theorem compressed_act (s : State) (p : BitVec 2) :
    (s.compressed p).act = actAfter s.act (s.rowResult p).kind := by
  simp [State.compressed, State.commitRow, State.finish, State.rowPlan]

@[simp] theorem toNat_compressed_resLen (s : State) (p : BitVec 2) :
    (s.compressed p).resLen.toNat = (s.rowResult p).out.length :=
  (BitVec.toNat_ofNat _ _).trans (Nat.mod_eq_of_lt (length_out_rowResult_lt s p))

/-- A row result without output leaves buffer memory as it was (R139). -/
theorem compressed_of_no_output (s : State) (p : BitVec 2) (h : (s.rowResult p).out = []) :
    s.compressed p = ((s.updateSeed p (s.rowResult p).seed).setResult (s.rowResult p)).finish := by
  rw [State.compressed, commitRow_of_no_writes _ _ _ (by simp [State.rowPlan, Footprint.writes, h, rowCells]),
    State.rowPlan]

/-- COMPRESS writes STATUS, the result registers, ACT, buffer memory and the seed rows. -/
theorem compressed_frame (s : State) (p : BitVec 2) :
    s.compressed p =
      { s with
        status := (s.compressed p).status, resKind := (s.compressed p).resKind, resLen := (s.compressed p).resLen
        dsize := (s.compressed p).dsize, psize := (s.compressed p).psize, act := (s.compressed p).act
        mem := (s.compressed p).mem, draws := (s.compressed p).draws, seed0 := (s.compressed p).seed0
        seed1 := (s.compressed p).seed1, seed2 := (s.compressed p).seed2 } := by
  obtain ⟨m, n, hcommit⟩ : ∃ m n, s.commit (s.rowPlan p).foot = { s with mem := m, draws := n } :=
    ⟨_, _, commit_eq s _⟩
  rw [State.compressed, State.commitRow, hcommit, updateSeed_eq]
  rfl

/-! ### The seed rows after the row (R125, R138) -/

theorem seed_commit (s : State) (f : Footprint) (p : BitVec 2) : (s.commit f).seed p = s.seed p := by
  simp [State.seed]

/-- The seed row of the plane gets its first bytes replaced, and the other planes' rows stay. -/
theorem seed_compressed (s : State) (p p' : BitVec 2) (row : List Byte) (hp : p ≠ 3)
    (h : (s.rowResult p).seed = some row) :
    (s.compressed p).seed p' = if p' = p then seedUpdated (s.seed p) row else s.seed p' := by
  have hupdate : (s.compressed p).seed p' = ((s.commit (s.rowPlan p).foot).updateSeed p (s.rowResult p).seed).seed p' :=
    rfl
  rw [hupdate, h, State.updateSeed, seed_setSeed _ _ _ _ hp, seed_commit, seed_commit]

/-- Byte `j` of the plane's seed row: the new row's below LEN, the old one from there on. -/
theorem getD_seed_compressed (s : State) (p : BitVec 2) (row : List Byte) (hp : p ≠ 3)
    (h : (s.rowResult p).seed = some row) (j : Nat) :
    ((s.compressed p).seed p).getD j 0 = if j < s.len.toNat then row.getD j 0 else (s.seed p).getD j 0 := by
  rw [seed_compressed s p p row hp h, if_pos rfl, getD_seedUpdated, length_seed_compressRow _ _ _ _ _ row h,
    length_scanline]

/-! ### Buffer memory after the row (R139) -/

theorem mem_written_rowPlan (s : State) (p : BitVec 2) (a : Nat) :
    a ∈ (s.rowPlan p).foot.written ↔ ∃ j < (s.rowResult p).out.length, a = s.dstAddr.toNat + j := by
  rw [Footprint.written, Footprint.writes, State.rowPlan, List.nil_append, map_fst_rowCells, mem_addresses]

theorem mem_compressed (s : State) (p : BitVec 2) : (s.compressed p).mem = (s.commit (s.rowPlan p).foot).mem := by
  simp [State.compressed, State.commitRow, State.finish]

/-- Outside the bytes of the output, buffer memory is as it was. -/
theorem byte_compressed_of_ne (s : State) (p : BitVec 2) (a : Nat)
    (h : ∀ j < (s.rowResult p).out.length, a ≠ s.dstAddr.toNat + j) :
    Memory.byte (s.compressed p).mem a = Memory.byte s.mem a := by
  rw [mem_compressed, byte_commit_of_not_mem]
  rw [mem_written_rowPlan]
  push Not
  exact h

/-- The output of a row does not overlap when it shares no byte with the scanline (20_memory.md R73). -/
theorem overlaps_rowPlan_eq_false (s : State) (p : BitVec 2)
    (h : ∀ j < (s.rowResult p).out.length, ∀ i < s.len.toNat, s.dstAddr.toNat + j ≠ s.srcAddr.toNat + i) :
    (s.rowPlan p).foot.overlaps = false := by
  rw [Bool.eq_false_iff]
  intro ho
  rcases (overlaps_iff _).mp ho with ⟨a, hw, hr⟩ | ⟨a, -, hrow | ⟨r, hr, -⟩⟩ | hrepeat
  · obtain ⟨j, hj, rfl⟩ := (mem_written_rowPlan _ _ _).mp hw
    obtain ⟨i, hi, heq⟩ := (mem_addresses _ _ _).mp hr
    exact h j hj i hi heq
  · cases hrow
  · cases hr
  · refine hrepeat ?_
    rw [Footprint.written, Footprint.writes, State.rowPlan, List.nil_append, map_fst_rowCells]
    exact nodup_addresses _ _

/-- With no overlap and no race, the output stands at DST_ADDR. -/
theorem byte_compressed_of_clear (s : State) (p : BitVec 2) (hr : s.raced = [])
    (h : ∀ j < (s.rowResult p).out.length, ∀ i < s.len.toNat, s.dstAddr.toNat + j ≠ s.srcAddr.toNat + i)
    (j : Nat) (hj : j < (s.rowResult p).out.length) :
    Memory.byte (s.compressed p).mem (s.dstAddr.toNat + j) = (s.rowResult p).out.getD j 0 := by
  rw [mem_compressed, commit_of_disjoint s _ (overlaps_rowPlan_eq_false s p h) hr, State.rowPlan, Footprint.writes,
    List.nil_append, byte_writeAll_rowCells, if_pos (by omega), Nat.add_sub_cancel_left]

/-- With no overlap and no race, the RES_LEN bytes at DST_ADDR are the output. -/
theorem output_of_clear (s : State) (p : BitVec 2) (hr : s.raced = [])
    (h : ∀ j < (s.rowResult p).out.length, ∀ i < s.len.toNat, s.dstAddr.toNat + j ≠ s.srcAddr.toNat + i) :
    (List.range (s.compressed p).resLen.toNat).map
      (fun j => Memory.byte (s.compressed p).mem (s.dstAddr.toNat + j)) = (s.rowResult p).out := by
  rw [toNat_compressed_resLen]
  refine List.ext_getElem (by simp) (fun j hj hj' => ?_)
  rw [List.getElem_map, List.getElem_range, byte_compressed_of_clear s p hr h j hj', List.getD_eq_getElem _ _ hj']

/-! ### The statements -/

/-- Settles O42: the mode comes before every check of the row. -/
theorem compressInBlockModeGivesNoGain : Obligations.CompressInBlockModeGivesNoGain := by
  intro p s hp hc hs hm
  exact ⟨_, exec_compress_of_block p s hp hc hs hm, endsNormally_finish s _ rfl, rfl, rfl, rfl, rfl, rfl⟩

/-- Settles O43: the length check comes before the read range. -/
theorem compressOfALongRowDegrades : Obligations.CompressOfALongRowDegrades := by
  intro p s hp hc hs hm hl
  exact ⟨_, exec_compress_of_long p s hp hc hs hm hl, endsDegraded_endStep s _ rfl, rfl, rfl, rfl, rfl, rfl⟩

/-- Settles O44: a row equal to its seed row has no output and no new seed row. -/
theorem compressOfTheSeedRowRepeats : Obligations.CompressOfTheSeedRowRepeats := by
  intro p s hp hc hs hm hl hsrc heq
  have hresult := rowResult_of_repeat s p ((scanline_eq_seedRow_iff s p).mpr heq)
  have hexec := exec_compress_of_fits p s hp hc hs hm hl hsrc (by simp [hresult])
  rw [compressed_of_no_output s p (by rw [hresult]), hresult] at hexec
  exact ⟨_, hexec, endsNormally_finish s _ rfl, rfl, rfl, rfl, rfl, rfl⟩

/-- Settles O45: an all-zero row has no output, and zeros replace its seed row's first bytes. -/
theorem compressOfAZeroRowSignalsAllZero : Obligations.CompressOfAZeroRowSignalsAllZero := by
  intro p s hp hc hs hm hl hsrc hz ⟨j, hj, hne⟩
  have hne' : s.scanline ≠ s.seedRow p := fun h =>
    hne (((scanline_eq_seedRow_iff s p).mp h j hj).symm.trans (hz j hj))
  have hresult := rowResult_of_allZero s p hne' ((scanline_eq_zeros_iff s).mpr hz)
  refine ⟨_, exec_compress_of_fits p s hp hc hs hm hl hsrc (by simp [hresult]), endsNormally_compressed s p, ?_, ?_, ?_,
    ?_, fun i => ?_, fun p' hp' => ?_, ?_⟩
  · simp [hresult, ResultKind.word]
  · simp [← BitVec.toNat_inj, hresult]
  · simp [hresult, sizeWord]
  · simp [hresult, sizeWord]
  · rw [getD_seed_compressed s p _ hp (by rw [hresult])]
    split_ifs with hi
    · simp [List.getD_eq_getElem?_getD, length_scanline, hi]
    · rfl
  · rw [seed_compressed s p p' _ hp (by rw [hresult]), if_neg hp']
  · rw [compressed_of_no_output s p (by rw [hresult]), hresult, updateSeed_eq]
    rfl

/-- Settles O46: the winner is the output, and the row replaces the first bytes of its seed row. -/
theorem compressWritesTheWinningCandidate : Obligations.CompressWritesTheWinningCandidate := by
  intro p s S R d k useD useK hp hc hs hm hl hsrc hS hR hne hnz hd hk huseD huseK hfitD hfitK
  obtain rfl : S = s.scanline := hS.trans (scanline_eq s).symm
  obtain rfl : R = s.seedRow p := hR
  subst hd hk
  obtain rfl : useD = s.deltaWins p := huseD
  obtain rfl : useK = s.packBitsWins p := huseK
  rw [← length_scanline] at hnz
  have hresult := rowResult_of_winner s p hm hne hnz
  have hseed : (s.rowResult p).seed = some s.scanline := by rw [hresult]
  have hlen : (s.compressed p).resLen.toNat = (s.rowResult p).out.length := toNat_compressed_resLen s p
  have hfit : ∀ j < (s.rowResult p).out.length, s.dstAddr.toNat + j < s.params.bufBytes := by
    rw [hresult]
    intro j hj
    dsimp only at hj
    split_ifs at hj with hD hK
    · exact hfitD hD j hj
    · exact hfitK hK j hj
    · cases hj
  refine ⟨s.compressed p, exec_compress_of_fits p s hp hc hs hm hl hsrc hfit, endsNormally_compressed s p, ?_, ?_, ?_,
    ?_, ?_, ?_, ?_, getD_seed_compressed s p _ hp hseed, fun p' hp' => ?_, compressed_frame s p, ?_, ?_⟩
  · rw [compressed_resKind, hresult]
    dsimp only
    split_ifs <;> rfl
  · rw [hlen, hresult]
    dsimp only
    split_ifs <;> rfl
  · intro hmode
    simp [hresult, hmode, deltaCandidate, sizeWord]
  · intro hmode hlt
    rw [compressed_dsize, hresult, deltaCandidate_of_ne _ _ _ _ hm hmode]
    exact toNat_sizeWord _ hlt
  · intro hmode
    simp [hresult, hmode, packBitsCandidate, sizeWord]
  · intro hmode hlt
    rw [compressed_psize, hresult, packBitsCandidate_of_ne _ _ hm hmode]
    exact toNat_sizeWord _ hlt
  · rw [compressed_act, hresult]
    dsimp only
    split_ifs <;> rfl
  · rw [seed_compressed s p p' _ hp hseed, if_neg hp']
  · rw [hlen]
    exact byte_compressed_of_ne s p
  · rw [hlen]
    intro hr hclear j hj
    rw [byte_compressed_of_clear s p hr hclear j hj, hresult]
    rw [hresult] at hj
    dsimp only at hj ⊢
    split_ifs at hj ⊢
    · rfl
    · rfl
    · cases hj

/-- Settles O52: a COMPRESS that is neither an error nor degraded leaves `State.compressed`, and each result it can
report says how to read the scanline back. -/
theorem compressedScanlineDecodes : Obligations.CompressedScanlineDecodes := by
  intro p s t S R E hp hwf hc hs _ hm hr hexec herr hdeg hclear hS hR hE
  obtain rfl : S = s.scanline := hS.trans (scanline_eq s).symm
  obtain rfl : R = s.seedRow p := hR
  obtain rfl : t = s.compressed p := eq_compressed_of_exec p s t hp hc hs hm hexec herr hdeg
  rw [toNat_compressed_resLen] at hclear
  obtain rfl : E = (s.rowResult p).out := hE.trans (output_of_clear s p hr hclear)
  rw [compressed_resKind]
  by_cases hrepeat : s.scanline = s.seedRow p
  · exact .inl ⟨by rw [rowResult_of_repeat s p hrepeat]; rfl, hrepeat⟩
  by_cases hzero : s.scanline = List.replicate s.scanline.length 0
  · exact .inr (.inl ⟨by rw [rowResult_of_allZero s p hrepeat hzero]; rfl, by rwa [length_scanline] at hzero⟩)
  rw [rowResult_of_winner s p hm hrepeat hzero]
  dsimp only
  split_ifs
  · have hlength : s.scanline.length = (s.seedRow p).length := (length_scanline s).trans (length_seedRow s p).symm
    exact .inr (.inr (.inl ⟨rfl, deltaDecodesToItsRow _ _ _ (deltaExtCont_ne_zero _ hwf) hlength⟩))
  · refine .inr (.inr (.inr (.inl ⟨rfl, ?_⟩)))
    rw [← length_scanline]
    exact packBitsDecodesToItsRow s.scanline
  · exact .inr (.inr (.inr (.inr rfl)))

/-- Settles O47: the range that does not fit ends the plan before anything is written. -/
theorem compressOutOfBoundsRaisesBounds : Obligations.CompressOutOfBoundsRaisesBounds := by
  intro p s hp hc hs hm hl hout
  refine ⟨_, exec_compress_of_error p s .bounds hp hc hs ?_, endsWithError_raiseError s .bounds⟩
  rw [← scanline_eq, ← seedRow_eq] at hout
  rcases compressPlan_cases p s with ⟨hblock, -⟩ | ⟨-, hlong, -⟩ | ⟨-, -, -, herr⟩ | ⟨-, -, hsrc, hdst, -⟩
  · exact absurd hblock hm
  · omega
  · exact herr
  · rcases hout with ⟨j, hj, hpast⟩ | ⟨-, j, hj, hpast⟩
    · exact absurd (hsrc j hj) hpast.not_gt
    · exact absurd (hdst j hj) hpast.not_gt

end Sys2Proof.Machine
end

section
/-! ## PACK1 and PACK4 without ROT (42_pack.md R161 to R175): the packer's stages, and the pixels in memory

A byte is compared pixel by pixel, first pixel in bit 7, so the carry form and the closed masks become facts about
pixel numbers. The commands then write, clear of what they read, the rows whose pixels are known. -/

namespace Sys2Proof.Machine

/-! ### Pixels of a shifted byte -/

/-- Pixel `b` of a byte shifted left is the one `d` to its right, and 0 past the byte. -/
theorem getLsbD_pixel_shiftLeft (x : Byte) (d b : Nat) (hb : b < 8) :
    (x <<< d).getLsbD (7 - b) = if b + d < 8 then x.getLsbD (7 - (b + d)) else false := by
  rw [BitVec.getLsbD_shiftLeft]
  split_ifs with h
  · rw [Nat.sub_sub]
    simp [show 7 - b < 8 by omega, show d ≤ 7 - b by omega]
  · simp [show 7 - b < d by omega]

/-- Pixel `b` of a byte shifted right is the one `d` to its left, and 0 before the byte. -/
theorem getLsbD_pixel_ushiftRight (x : Byte) (d b : Nat) (hb : b < 8) :
    (x >>> d).getLsbD (7 - b) = if d ≤ b then x.getLsbD (7 - (b - d)) else false := by
  rw [BitVec.getLsbD_ushiftRight]
  split_ifs with h
  · rw [show d + (7 - b) = 7 - (b - d) by omega]
  · exact BitVec.getLsbD_of_ge _ _ (by omega)

/-- Every pixel of the byte 0xFF is 1. -/
theorem getLsbD_pixel_ones (b : Nat) : (0xFF : Byte).getLsbD (7 - b) = true := by
  have h : 7 - b < 8 := by omega
  interval_cases 7 - b <;> rfl

/-- Pixel `c` of byte `m` of a row. -/
theorem pixel1_of_byte (src : List Byte) (m c : Nat) (hc : c < 8) :
    pixel1 src (8 * m + c) = (src.getD m 0).getLsbD (7 - c) := by
  rw [pixel1, show (8 * m + c) / 8 = m by omega, show (8 * m + c) % 8 = c by omega]

/-! ### The shift stage in carry form (R162) -/

/-- Shifting to the right by `O - S`, a byte takes its first pixels from the end of the byte before it. -/
theorem shiftedByte_of_right (src : List Byte) (S O k : Nat) (h : S < O) (hd : O - S < 8) :
    shiftedByte src S O k =
      ((if k = 0 then 0 else src.getD (k - 1) 0) <<< (8 - (O - S))) ||| (src.getD k 0 >>> (O - S)) := by
  refine byte_eq_of_pixels _ _ (fun b hb => ?_)
  rw [getLsbD_shiftedByte _ _ _ _ _ hb, shiftedBit, BitVec.getLsbD_or, getLsbD_pixel_shiftLeft _ _ _ hb,
    getLsbD_pixel_ushiftRight _ _ _ hb]
  by_cases hin : O - S ≤ b
  · rw [if_neg (by omega), if_pos hin, decide_eq_true (by omega),
      show 8 * k + b + S - O = 8 * k + (b - (O - S)) by omega, pixel1_of_byte _ _ _ (by omega)]
    simp
  · rw [if_pos (by omega), if_neg hin]
    cases k with
    | zero =>
      rw [decide_eq_false (by omega)]
      simp
    | succ m =>
      rw [decide_eq_true (by omega), show 8 * (m + 1) + b + S - O = 8 * m + (b + (8 - (O - S))) by omega,
        pixel1_of_byte _ _ _ (by omega)]
      simp

/-- Shifting to the left by `S - O`, a byte takes its last pixels from the start of the byte after it. -/
theorem shiftedByte_of_left (src : List Byte) (S O k : Nat) (h : O < S) (hd : S - O < 8) :
    shiftedByte src S O k = (src.getD k 0 <<< (S - O)) ||| (src.getD (k + 1) 0 >>> (8 - (S - O))) := by
  refine byte_eq_of_pixels _ _ (fun b hb => ?_)
  rw [getLsbD_shiftedByte _ _ _ _ _ hb, shiftedBit, BitVec.getLsbD_or, getLsbD_pixel_shiftLeft _ _ _ hb,
    getLsbD_pixel_ushiftRight _ _ _ hb, decide_eq_true (by omega), Bool.true_and]
  by_cases hin : b + (S - O) < 8
  · rw [if_pos hin, if_neg (by omega), Bool.or_false, show 8 * k + b + S - O = 8 * k + (b + (S - O)) by omega,
      pixel1_of_byte _ _ _ hin]
  · rw [if_neg hin, if_pos (by omega), Bool.false_or,
      show 8 * k + b + S - O = 8 * (k + 1) + (b - (8 - (S - O))) by omega, pixel1_of_byte _ _ _ (by omega)]

/-- With no shift a byte is the source byte. -/
theorem shiftedByte_self (src : List Byte) (S k : Nat) : shiftedByte src S S k = src.getD k 0 := by
  refine byte_eq_of_pixels _ _ (fun b hb => ?_)
  rw [getLsbD_shiftedByte _ _ _ _ _ hb, shiftedBit, decide_eq_true (by omega), Bool.true_and, Nat.add_sub_cancel,
    pixel1_of_byte _ _ _ hb]

/-! ### The boundary masks in closed form (R163) -/

/-- `0xFF >> O` marks the pixels from `O` on. -/
theorem getLsbD_firstMask (O b : Nat) (hb : b < 8) : ((0xFF : Byte) >>> O).getLsbD (7 - b) = decide (O ≤ b) := by
  rw [getLsbD_pixel_ushiftRight _ _ _ hb, getLsbD_pixel_ones, Bool.if_false_right, Bool.and_true]

/-- `lastm` marks the pixels below `n` of the last of `ceil(n / 8)` bytes. -/
theorem getLsbD_lastMask (n b : Nat) (hn : 0 < n) (hb : b < 8) :
    (if n % 8 = 0 then (0xFF : Byte) else (0xFF : Byte) <<< (8 - n % 8)).getLsbD (7 - b) =
      decide (8 * ((n + 7) / 8 - 1) + b < n) := by
  split_ifs with hr
  · rw [getLsbD_pixel_ones, decide_eq_true (by omega)]
  · rw [getLsbD_pixel_shiftLeft _ _ _ hb, getLsbD_pixel_ones, Bool.if_false_right, Bool.and_true, decide_eq_decide]
    omega

/-- The first AND-mask of a row that reaches the end of its first byte. -/
theorem andMask_first (O W : Nat) (hlen : 8 ≤ O + W) : andMask O W 0 = (0xFF : Byte) >>> O := by
  refine byte_eq_of_pixels _ _ (fun b hb => ?_)
  rw [getLsbD_andMask _ _ _ _ hb, getLsbD_firstMask _ _ hb, decide_eq_true (by omega : 8 * 0 + b < O + W),
    Bool.and_true, Nat.mul_zero, Nat.zero_add]

/-- The last AND-mask of a row that begins before its last byte. -/
theorem andMask_last (O W : Nat) (hlen : 0 < O + W) (hO : O ≤ 8 * ((O + W + 7) / 8 - 1)) :
    andMask O W ((O + W + 7) / 8 - 1) =
      (if (O + W) % 8 = 0 then 0xFF else (0xFF : Byte) <<< (8 - (O + W) % 8)) := by
  refine byte_eq_of_pixels _ _ (fun b hb => ?_)
  rw [getLsbD_andMask _ _ _ _ hb, getLsbD_lastMask _ _ hlen hb, decide_eq_true (by omega), Bool.true_and]

/-- An AND-mask between the first and the last marks its whole byte. -/
theorem andMask_between (O W k : Nat) (hO : O ≤ 8 * k) (hk : k < (O + W + 7) / 8 - 1) : andMask O W k = 0xFF := by
  refine byte_eq_of_pixels _ _ (fun b hb => ?_)
  rw [getLsbD_andMask _ _ _ _ hb, getLsbD_pixel_ones, decide_eq_true (by omega), decide_eq_true (by omega),
    Bool.and_self]

/-- The AND-mask of a row of one byte is bounded on both sides. -/
theorem andMask_single (O W : Nat) (hlen : (O + W + 7) / 8 = 1) :
    andMask O W 0 =
      ((0xFF : Byte) >>> O) &&& (if (O + W) % 8 = 0 then 0xFF else (0xFF : Byte) <<< (8 - (O + W) % 8)) := by
  refine byte_eq_of_pixels _ _ (fun b hb => ?_)
  rw [getLsbD_andMask _ _ _ _ hb, BitVec.getLsbD_and, getLsbD_firstMask _ _ hb, getLsbD_lastMask _ _ (by omega) hb,
    hlen, Nat.sub_self, Nat.mul_zero, Nat.zero_add]

/-! ### The statements about the stages -/

/-- Settles O34: the row is as long as its plan says, and its pixels are those of the three stages in turn. -/
theorem packOneRowIsTheClosedForm : Obligations.PackOneRowIsTheClosedForm := by
  intro src inv maskOr S O W
  rw [← ceilDiv_eight]
  exact ⟨by simp [pack1Row], fun q hq => pixel1_pack1Row src inv maskOr S O W q hq⟩

/-- Settles O35, by the three cases of R162. -/
theorem shiftStageIsTheCarryForm : Obligations.ShiftStageIsTheCarryForm := by
  intro src S O k hS hO
  rcases Nat.lt_trichotomy S O with hright | rfl | hleft
  · rw [if_pos hright, shiftedByte_of_right src S O k hright (by omega)]
  · rw [if_neg (Nat.lt_irrefl S), if_neg (Nat.lt_irrefl S), shiftedByte_self]
  · rw [if_neg hleft.not_gt, if_pos hleft, shiftedByte_of_left src S O k hleft (by omega)]

/-- Settles O36: the pixels that R163 marks, and its closed form by the place of the byte in the row. -/
theorem boundaryMasksInClosedForm : Obligations.BoundaryMasksInClosedForm := by
  intro O W
  refine ⟨fun k => ⟨fun b hb => ?_, rfl⟩, fun hO hlen => ⟨?_, ?_, fun k hfirst hlast => ?_⟩,
    fun _ hlen => andMask_single O W hlen⟩
  · rw [getLsbD_andMask _ _ _ _ hb, Bool.decide_and]
  · exact andMask_first O W (by omega)
  · exact andMask_last O W (by omega) (by omega)
  · exact andMask_between O W k (by omega) hlast

/-! ### The source bytes of a pack without ROT -/

/-- PACK1 reads no source byte of an empty row (42_pack.md R161). -/
theorem lt_sourceBytes1_iff (S W j : Nat) : j < sourceBytes1 S W ↔ 0 < W ∧ j < ceilDiv (S + W) 8 := by
  unfold sourceBytes1
  split_ifs <;> omega

/-- PACK4 reads no source byte of an empty row (42_pack.md R172). -/
theorem lt_sourceBytes4_iff (S4 W j : Nat) : j < sourceBytes4 S4 W ↔ 0 < W ∧ j < ceilDiv (S4 + W) 2 := by
  unfold sourceBytes4
  split_ifs <;> omega

/-- Without a rotation plan, the row and the table are read as they were. -/
theorem readMem_plain (a0 : Nat) (bpp4 : Bool) (s : State) :
    ({ addr := a0, plan := none } : PackSource).readMem bpp4 s = s.mem := rfl

/-! ### PACK1 without ROT -/

theorem pack1Plan_plain (inv maskOr : Bool) (s : State)
    (hsrc : 0 < s.width.toNat →
      ∀ j < ceilDiv (s.sbit + s.width.toNat) 8, s.srcAddr.toNat + j < s.params.bufBytes)
    (hout : ∀ k < ceilDiv (s.dbit + s.width.toNat) 8, s.dstAddr.toNat + k < s.params.bufBytes) :
    pack1Plan false inv maskOr s =
      .ok (({ addr := s.srcAddr.toNat, plan := none } : PackSource).plan1 false inv maskOr s) := by
  refine pack1Plan_ok false inv maskOr s _ (packSource_plain false s) rfl (fun j hj => ?_) hout
  obtain ⟨hw, hj⟩ := (lt_sourceBytes1_iff s.sbit _ _).mp hj
  exact hsrc hw j hj

theorem mem_written_plan1_plain (a0 : Nat) (inv maskOr : Bool) (s : State) (a : Nat) :
    a ∈ (({ addr := a0, plan := none } : PackSource).plan1 false inv maskOr s).foot.written ↔
      ∃ k < ceilDiv (s.dbit + s.width.toNat) 8, a = s.dstAddr.toNat + k :=
  mem_out_plan1 _ false inv maskOr s a

/-- A PACK1 without ROT overlaps exactly when its output row meets the source bytes it reads (20_memory.md R73). -/
theorem overlaps_plan1_plain_iff (a0 : Nat) (inv maskOr : Bool) (s : State) :
    (({ addr := a0, plan := none } : PackSource).plan1 false inv maskOr s).foot.overlaps = true ↔
      ∃ k < ceilDiv (s.dbit + s.width.toNat) 8, ∃ j < sourceBytes1 s.sbit s.width.toNat,
        s.dstAddr.toNat + k = a0 + j := by
  have hout := mem_out_plan1 { addr := a0, plan := none } false inv maskOr s
  have hnodup := nodup_out_plan1 { addr := a0, plan := none } false inv maskOr s
  rw [PackSource.plan1, footprint_out] at hout hnodup
  rw [PackSource.plan1, overlaps_plain_iff _ _ _ _ _ _ _ (by simp)]
  simp only [hout, hnodup, mem_addresses, List.not_mem_nil, false_and, exists_false, or_false, not_true_eq_false]
  constructor
  · rintro ⟨_, ⟨k, hk, rfl⟩, h⟩
    exact ⟨k, hk, h⟩
  · rintro ⟨k, hk, h⟩
    exact ⟨_, ⟨k, hk, rfl⟩, h⟩

/-- Settles O37: the plan stands, so the command writes its output row, MASKS and PACK_LEN and ends normally. -/
theorem packOneCompletesAndWritesOnlyItsRow : Obligations.PackOneCompletesAndWritesOnlyItsRow := by
  intro inv maskOr s hc hsrc hout
  simp only [← ceilDiv_eight] at hsrc hout ⊢
  refine ⟨_, exec_pack1_ok false inv maskOr s _ hc (pack1Plan_plain inv maskOr s hsrc hout),
    endsNormally_commitPack s _, packResult_plan1 _ _ _ _ s, by rw [commitPack_eq]; rfl, fun a hne => ?_⟩
  refine byte_commitPack_of_not_mem s _ a (fun hmem => ?_)
  obtain ⟨k, hk, rfl⟩ := (mem_written_plan1_plain _ inv maskOr s a).mp hmem
  exact hne k hk rfl

/-- Settles O38: the output row is clear of the source bytes read, so it holds the pixels of R166. -/
theorem packOnePlacesTheSourcePixels : Obligations.PackOnePlacesTheSourcePixels := by
  intro inv maskOr s hc hraced hsrc hout hclear
  simp only [← ceilDiv_eight] at hsrc hout hclear ⊢
  have hover : (({ addr := s.srcAddr.toNat, plan := none } : PackSource).plan1 false inv maskOr s).foot.overlaps =
      false := by
    rw [Bool.eq_false_iff, Ne, overlaps_plan1_plain_iff]
    rintro ⟨k, hk, j, hj, heq⟩
    obtain ⟨hw, hj⟩ := (lt_sourceBytes1_iff _ _ _).mp hj
    exact hclear hw k hk j hj heq
  refine ⟨_, exec_pack1_ok false inv maskOr s _ hc (pack1Plan_plain inv maskOr s hsrc hout), fun q hq => ?_⟩
  rw [(commitPack_clear1 _ false inv maskOr s hraced hover).2, rowBit_row1 _ false inv maskOr s _ q hq, readMem_plain]
  rfl

/-! ### PACK4 without ROT -/

theorem pack4Plan_plain (maskOr : Bool) (s : State) (hd : s.dbit = 0) (hs : s.sbit ≤ 1)
    (hsrc : 0 < s.width.toNat →
      ∀ j < ceilDiv (s.sbit + s.width.toNat) 2, s.srcAddr.toNat + j < s.params.bufBytes)
    (htable : 0 < s.width.toNat → s.lutAddr.toNat + 1023 < s.params.bufBytes)
    (hout : ∀ p < 3, ∀ k < ceilDiv s.width.toNat 8,
      s.dstAddr.toNat + p * s.dstStride.toNat + k < s.params.bufBytes) :
    pack4Plan false maskOr s =
      .ok (({ addr := s.srcAddr.toNat, plan := none } : PackSource).plan4 false maskOr s) := by
  refine pack4Plan_ok false maskOr s _ ((pack4Operands_iff false s).mpr ⟨hd, .inr hs⟩) (packSource_plain true s) rfl
    (fun j hj => ?_) htable hout
  obtain ⟨hw, hj⟩ := (lt_sourceBytes4_iff s.sbit _ _).mp hj
  exact hsrc hw j hj

/-- Settles O40: the planes are clear of one another, of the row and of the table, so they hold the pixels of R173. -/
theorem packFourLooksUpEachPixelPair : Obligations.PackFourLooksUpEachPixelPair := by
  intro maskOr s hc hraced hd hs hsrc htable hout hstride hclear
  simp only [← ceilDiv_eight, ← ceilDiv_two] at hsrc hout hstride hclear ⊢
  have hover : (({ addr := s.srcAddr.toNat, plan := none } : PackSource).plan4 false maskOr s).foot.overlaps =
      false := by
    rw [Bool.eq_false_iff, Ne, overlaps_plan4_plain_iff]
    rintro (⟨p, hp, k, hk, ⟨i, hi, heq⟩ | ⟨j, hj, heq⟩⟩ | hmeet)
    · exact (hclear p hp k hk).2 i hi heq
    · exact (hclear p hp k hk).1 j ((lt_sourceBytes4_iff _ _ _).mp hj).2 heq
    · exact hmeet.not_ge hstride
  refine ⟨_, exec_pack4_ok false maskOr s _ hc (pack4Plan_plain maskOr s hd hs hsrc htable hout), fun p hp q hq => ?_⟩
  rw [(commitPack_clear4 _ false maskOr s hraced hover).2, rowBit_planes _ false maskOr s _ p q hp hq hstride,
    readMem_plain]
  rfl

end Sys2Proof.Machine
end

section
/-! ## TPOSE and ROTSTART, and a rotated pack without a row (43_transpose.md R193 to R200)

A TPOSE that overlaps nothing leaves its rows in memory as the transpose makes them, so a pixel of them is a bit or a
nibble of its source byte, and a pad pixel one of the 0 past the column. ROTSTART's word reads back as the sequence it
set up. A rotated pack whose rotation plan is an error ends with that error. -/

namespace Sys2Proof.Machine

/-! ### TPOSE -/

/-- TPOSE does not overlap when its rows are clear of its column and at least a row apart (20_memory.md R73). -/
theorem overlaps_tpose_eq_false (bpp4 : Bool) (s : State) (f : Footprint) (h : tposePlan bpp4 s = .ok f)
    (hclear : ∀ k < groupSize bpp4, ∀ i < rotatedBytes bpp4 s.width.toNat, ∀ j < s.width.toNat,
      s.dstAddr.toNat + k * s.dstStride.toNat + i ≠ s.srcAddr.toNat + j * s.srcStride.toNat + s.rotCol.toNat)
    (hstride : rotatedBytes bpp4 s.width.toNat ≤ s.dstStride.toNat) : f.overlaps = false := by
  rw [Bool.eq_false_iff, Ne, overlaps_tpose_iff bpp4 s f h]
  rintro (⟨a, hwritten, j, hj, hcol⟩ | hmeet)
  · obtain ⟨k, hk, i, hi, hrow⟩ := (mem_written_tpose bpp4 s f h a).mp hwritten
    exact hclear k hk i hi j hj (hrow.symm.trans hcol)
  · exact hmeet.not_ge hstride

/-- A TPOSE in the buffer memory that neither overlaps nor raced writes the transpose of its column (R196). -/
theorem exec_tpose_of_clear (bpp4 : Bool) (s : State) (hc : s.cancelRequested = false) (hraced : s.raced = [])
    (hcol : ∀ j < s.width.toNat,
      s.srcAddr.toNat + j * s.srcStride.toNat + s.rotCol.toNat < s.params.bufBytes)
    (hrows : ∀ k < groupSize bpp4, ∀ i < rotatedBytes bpp4 s.width.toNat,
      s.dstAddr.toNat + k * s.dstStride.toNat + i < s.params.bufBytes)
    (hclear : ∀ k < groupSize bpp4, ∀ i < rotatedBytes bpp4 s.width.toNat, ∀ j < s.width.toNat,
      s.dstAddr.toNat + k * s.dstStride.toNat + i ≠ s.srcAddr.toNat + j * s.srcStride.toNat + s.rotCol.toNat)
    (hstride : rotatedBytes bpp4 s.width.toNat ≤ s.dstStride.toNat) :
    ∃ t, exec (.tpose bpp4) s = .next t ∧ t.mem = Memory.writeAll s.mem
      (rowsCells s.dstAddr.toNat s.dstStride.toNat (transpose bpp4 s.column)) := by
  have hplan := (tposePlan_ok_iff bpp4 s _).mpr ⟨hcol, hrows, rfl⟩
  refine ⟨_, exec_tpose_ok bpp4 s _ hc hplan, ?_⟩
  rw [commit_of_disjoint s _ (overlaps_tpose_eq_false bpp4 s _ hplan hclear hstride) hraced]
  rfl

/-- A 1bpp pixel of a transposed column in memory: a bit of its source byte, and 0 past the column (R193, R195). -/
theorem rowBit_transposed (s : State) (m : Memory) (a stride k q : Nat)
    (hstride : rotatedBytes false s.width.toNat ≤ stride) (hk : k < 8)
    (hq : q < 8 * rotatedBytes false s.width.toNat) :
    rowBit (Memory.writeAll m (rowsCells a stride (transpose false s.column))) (a + k * stride) q =
      if q < s.width.toNat then
        (Memory.byte s.mem (s.srcAddr.toNat + q * s.srcStride.toNat + s.rotCol.toNat)).getLsbD k
      else false := by
  rw [rowBit_writeAll_rowsCells _ _ _ _ _ (length_of_mem_transpose_column false s) hstride k q
    (by rwa [length_transpose]) hq, getD_transpose _ _ _ hk, pixel1_rotatedRow _ _ _ (by rwa [length_column]),
    getD_column]
  split_ifs
  · rfl
  · exact BitVec.getLsbD_zero

/-- A 4bpp pixel of a transposed column in memory: a nibble of its source byte, and 0 past the column (R194, R195). -/
theorem rowNibble_transposed (s : State) (m : Memory) (a stride k q : Nat)
    (hstride : rotatedBytes true s.width.toNat ≤ stride) (hk : k < 2)
    (hq : q < 2 * rotatedBytes true s.width.toNat) :
    rowNibble (Memory.writeAll m (rowsCells a stride (transpose true s.column))) (a + k * stride) q =
      if q < s.width.toNat then
        (Memory.byte s.mem (s.srcAddr.toNat + q * s.srcStride.toNat + s.rotCol.toNat)).extractLsb' (4 * k) 4
      else 0 := by
  rw [rowNibble_writeAll_rowsCells _ _ _ _ _ (length_of_mem_transpose_column true s) hstride k q
    (by rwa [length_transpose]) hq, getD_transpose _ _ _ hk, pixel4_rotatedRow _ _ _ (by rwa [length_column]),
    columnNibble, getD_column]
  split_ifs
  · rfl
  · exact BitVec.extractLsb'_zero

/-- Settles O24: the plan stands, and its commit reaches only the addresses it writes, overlapping or not. -/
theorem tposeCompletesAndWritesOnlyItsRows : Obligations.TposeCompletesAndWritesOnlyItsRows := by
  intro bpp4 s hc hcol hrows
  have hplan := (tposePlan_ok_iff bpp4 s _).mpr ⟨hcol, hrows, rfl⟩
  refine ⟨_, exec_tpose_ok bpp4 s _ hc hplan, endsNormally_finish s _ (by simp [State.finish]), ?_, fun a hne => ?_⟩
  · rw [commit_eq]
    rfl
  · refine byte_commit_of_not_mem s _ a (fun hmem => ?_)
    obtain ⟨k, hk, i, hi, rfl⟩ := (mem_written_tpose bpp4 s _ hplan a).mp hmem
    exact hne k hk i hi rfl

/-- Settles O25: the rows hold the transpose, whose pixels are the bits of the column. -/
theorem tposeOneBitRowsAreBitColumns : Obligations.TposeOneBitRowsAreBitColumns := by
  intro s hc hraced hcol hrows hclear hstride
  simp only [← ceilDiv_eight] at hrows hclear hstride ⊢
  obtain ⟨t, hexec, hmem⟩ := exec_tpose_of_clear false s hc hraced hcol hrows hclear hstride
  have hpixel := fun k hk q hq => rowBit_transposed s s.mem s.dstAddr.toNat _ k q hstride hk hq
  refine ⟨t, hexec, fun k hk => ⟨fun j hj => ?_, fun q hq hlt => ?_⟩⟩
  · have hrow : j < 8 * ceilDiv s.width.toNat 8 := by rw [ceilDiv_eight]; omega
    rw [hmem, hpixel k hk j hrow, if_pos hj]
  · rw [hmem, hpixel k hk q hlt, if_neg (by omega)]

/-- Settles O26: the rows hold the transpose, whose pixels are the nibbles of the column. -/
theorem tposeFourBitRowsAreNibbleColumns : Obligations.TposeFourBitRowsAreNibbleColumns := by
  intro s hc hraced hcol hrows hclear hstride
  simp only [← ceilDiv_two] at hrows hclear hstride ⊢
  obtain ⟨t, hexec, hmem⟩ := exec_tpose_of_clear true s hc hraced hcol hrows hclear hstride
  have hpixel := fun k hk q hq => rowNibble_transposed s s.mem s.dstAddr.toNat _ k q hstride hk hq
  refine ⟨t, hexec, fun k hk => ⟨fun j hj => ?_, fun q hq hlt => ?_⟩⟩
  · have hrow : j < 2 * ceilDiv s.width.toNat 2 := by rw [ceilDiv_two]; omega
    rw [hmem, hpixel k hk j hrow, if_pos hj]
  · rw [hmem, hpixel k hk q hlt, if_neg (by omega)]

/-! ### ROTSTART -/

/-- ROTSTART with an in-byte index below the group size (R197). -/
theorem exec_rotStart_of_lt (bpp4 : Bool) (s : State) (hc : s.cancelRequested = false)
    (he : s.sbit < groupSize bpp4) : exec (.rotStart bpp4) s =
      .next { s with rotState := (rotStarted bpp4 s.sbit).word, rotFirst := s.rotCol }.finish := by
  simp only [exec, execRotStart, unlessCancelled_of_not _ _ hc, he.not_ge, if_false]

/-- ROTSTART with an in-byte index past the group (R197). -/
theorem exec_rotStart_of_ge (bpp4 : Bool) (s : State) (hc : s.cancelRequested = false)
    (he : groupSize bpp4 ≤ s.sbit) : exec (.rotStart bpp4) s = .next (s.raiseError .operand) := by
  simp only [exec, execRotStart, unlessCancelled_of_not _ _ hc, he, if_true]

/-- The word of a started sequence reads back as the sequence (10_state.md R47). -/
theorem ofWord_rotStarted (bpp4 : Bool) (e : Nat) :
    RotState.ofWord (rotStarted bpp4 e).word = rotStarted bpp4 e :=
  ofWord_word _ (by decide : 0 < 16) ((rotStarted_legal bpp4 e).skip.trans_le (groupSize_le bpp4))

/-- A word without reserved bits is its fields. -/
theorem and_eq_of_and_not_eq_zero (v m : Word) (h : v &&& ~~~m = 0) : v &&& m = v := by
  refine BitVec.eq_of_getLsbD_eq (fun i hi => ?_)
  have hreserved : (v.getLsbD i && !m.getLsbD i) = false := by simpa [hi] using congrArg (·.getLsbD i) h
  rw [BitVec.getLsbD_and]
  cases hv : v.getLsbD i
  · rfl
  · simpa [hv] using hreserved

/-- Settles O29: a legal index sets up the sequence that ROT_STATE reads back, and any other is an operand error. -/
theorem rotStartSetsUpASequence : Obligations.RotStartSetsUpASequence := by
  refine ⟨everyCommandDecodesFromItsEncoding (.rotStart false) rfl,
    everyCommandDecodesFromItsEncoding (.rotStart true) rfl, fun bpp4 s hc => ⟨fun he => ?_, fun he => ?_⟩⟩
  · exact ⟨_, exec_rotStart_of_lt bpp4 s hc he, endsNormally_finish s _ rfl, ofWord_rotStarted bpp4 s.sbit,
      and_eq_of_and_not_eq_zero _ _ (word_reserved _), rfl⟩
  · exact ⟨_, exec_rotStart_of_ge bpp4 s hc he, endsWithError_raiseError s .operand⟩

/-! ### A rotated pack without a row -/

/-- No sequence of this depth is set up (R198). -/
theorem rotPlan_operand (bpp4 : Bool) (s : State) (h : s.rot.tpValid = false ∨ s.rot.tpBpp4 ≠ bpp4) :
    rotPlan bpp4 s = .error .operand := by
  rcases rotPlan_cases bpp4 s with ⟨-, he⟩ | ⟨hv, hb, -⟩ | ⟨hv, hb, -⟩ | ⟨hv, hb, -⟩
  · exact he
  all_goals simp [hv, hb] at h

/-- The sequence has delivered every row (R200). -/
theorem rotPlan_exhausted (bpp4 : Bool) (s : State) (hv : s.rot.tpValid = true) (hb : s.rot.tpBpp4 = bpp4)
    (hleft : s.rot.tpLeft = 0) (hend : s.rot.tpEnd = true) : rotPlan bpp4 s = .error .rotExhausted := by
  rcases rotPlan_cases bpp4 s with ⟨hno, -⟩ | ⟨-, -, -, -, he⟩ | ⟨-, -, -, hmore, -⟩ | ⟨-, -, hmore, -⟩
  · simp [hv, hb] at hno
  · exact he
  · simp [hend] at hmore
  · omega

/-- A rotated pack without a rotation plan has no row (R198). -/
theorem packSource_rotated_error (bpp4 : Bool) (s : State) (e : ErrorCode) (h : rotPlan bpp4 s = .error e) :
    packSource true bpp4 s = .error e := by
  simp [packSource, h]

/-- PACK1.R without a rotation plan ends with the plan's error. -/
theorem exec_pack1_rotPlan_error (inv maskOr : Bool) (s : State) (e : ErrorCode) (hc : s.cancelRequested = false)
    (h : rotPlan false s = .error e) :
    ∃ t, exec (.pack1 true inv maskOr) s = .next t ∧ EndsWithError s e.code t :=
  exec_pack1_error true inv maskOr s e hc (by simp only [pack1Plan, packSource_rotated_error false s e h])

/-- PACK4.R that passes its check of DBIT but has no rotation plan ends with the plan's error. -/
theorem exec_pack4_rotPlan_error (maskOr : Bool) (s : State) (e : ErrorCode) (hc : s.cancelRequested = false)
    (hd : s.dbit = 0) (h : rotPlan true s = .error e) :
    ∃ t, exec (.pack4 true maskOr) s = .next t ∧ EndsWithError s e.code t := by
  have hops : pack4Operands true s = true := (pack4Operands_iff true s).mpr ⟨hd, .inl rfl⟩
  exact exec_pack4_error true maskOr s e hc (by
    simp only [pack4Plan, hops, packSource_rotated_error true s e h, if_true])

/-- Settles O30: each error is the rotation plan's, but for a PACK4.R whose DBIT already raises OPERAND. -/
theorem rotatedPackErrors : Obligations.RotatedPackErrors := by
  intro inv maskOr s hc
  refine ⟨fun h => ?_, fun h => ?_, fun hv hleft hend => ⟨fun hb => ?_, fun hb hd => ?_⟩⟩
  · exact exec_pack1_rotPlan_error inv maskOr s .operand hc (rotPlan_operand false s (by simpa using h))
  · by_cases hd : s.dbit = 0
    · exact exec_pack4_rotPlan_error maskOr s .operand hc hd (rotPlan_operand true s (by simpa using h))
    · exact exec_pack4_error true maskOr s .operand hc (pack4Plan_operand true maskOr s (.inl hd))
  · exact exec_pack1_rotPlan_error inv maskOr s .rotExhausted hc (rotPlan_exhausted false s hv hb hleft hend)
  · exact exec_pack4_rotPlan_error maskOr s .rotExhausted hc hd (rotPlan_exhausted true s hv hb hleft hend)

end Sys2Proof.Machine
end

section
/-! ## Errors and cancellation (60_exceptions.md R224, R226)

A command either raises an error, on the state it began with, or leaves ERR as it was: it writes STATUS before the end
of its engine step in bit 1 only, and only an ending that is an error writes ERR. So a command that sets ERR is one that
raised an error. Check 2 of R223 comes before every other check of a cancellable command but the one for PLANE = 3, and
NOP, CLOSE and SEEDCLR do not read CTRL. -/

namespace Sys2Proof.Machine

/-! ### The end of a step without an error -/

/-- An ending that is no error keeps ERR (30_encoding.md R91). -/
theorem err_endStep (s : State) (e : Ending) (he : ∀ c, e ≠ .error c) : (s.endStep e).err = s.err := by
  rw [State.err, endStep_status, getLsbD_statusAfter]
  cases e with
  | error c => exact absurd rfl (he c)
  | normal => rfl
  | degraded => rfl
  | cancelled => rfl

/-- CANCELLED says whether the step ended cancelled (30_encoding.md R91). -/
theorem cancelled_endStep (s : State) (e : Ending) : (s.endStep e).cancelled = (e == .cancelled) := by
  rw [State.cancelled, endStep_status, getLsbD_statusAfter]
  rfl

/-- Writing SESSION keeps ERR, a bit of its own (10_state.md R26). -/
theorem err_of_session_written (s u : State) (b : Bool) (hu : u.status = setBit s.status 1 b) : u.err = s.err := by
  rw [State.err, hu, getLsbD_setBit _ _ _ _ (by omega), if_neg (by omega), State.err]

/-- A COMPRESS that passes its checks does not end in an error (41_compress.md R121). -/
theorem compressPlan_ending (p : BitVec 2) (s : State) (c : CompressPlan) (h : compressPlan p s = .ok c) :
    ∀ code, c.ending ≠ .error code := by
  rcases compressPlan_cases p s with ⟨-, hp⟩ | ⟨-, -, hp⟩ | ⟨-, -, -, hp⟩ | ⟨-, -, -, -, hp⟩ <;>
    cases hp.symm.trans h
  · exact fun _ => Ending.noConfusion
  · exact fun _ => Ending.noConfusion
  · exact fun _ => Ending.noConfusion

/-! ### A command raises an error or keeps ERR -/

/-- How a command that leads from `s` to `t` treats ERR: it raises an error on the state it began with, or it keeps
ERR. -/
inductive RaisesOrKeeps (s : State) : State → Prop where
  | raises (c : ErrorCode) : RaisesOrKeeps s (s.raiseError c)
  | keeps {t : State} (h : t.err = s.err) : RaisesOrKeeps s t

/-- A command that has kept ERR finishes normally. -/
theorem raisesOrKeeps_finish {s u : State} (h : u.err = s.err) : RaisesOrKeeps s u.finish :=
  .keeps ((err_endStep u .normal (fun _ => Ending.noConfusion)).trans h)

/-- A discarded command keeps ERR, so what may be cancelled treats ERR as its run does (R226). -/
theorem raisesOrKeeps_unlessCancelled {s run : State} (h : RaisesOrKeeps s run) :
    RaisesOrKeeps s (s.unlessCancelled run) := by
  unfold State.unlessCancelled
  split_ifs
  · exact .keeps (err_endStep s .cancelled (fun _ => Ending.noConfusion))
  · exact h

/-- Every command raises an error on the state it began with, or keeps ERR (R224). -/
theorem exec_raisesOrKeeps (i : Instr) (s t : State) (h : exec i s = .next t) : RaisesOrKeeps s t := by
  cases i with
  | nop => cases h; exact raisesOrKeeps_finish rfl
  | openSession =>
    cases h
    refine raisesOrKeeps_unlessCancelled ?_
    split_ifs
    · exact .raises _
    · exact raisesOrKeeps_finish (err_of_session_written s s.opened true rfl)
  | closeSession =>
    cases h
    split_ifs
    · exact raisesOrKeeps_finish (err_of_session_written s s.closed false rfl)
    · exact .raises _
  | seedClr =>
    cases h
    split_ifs
    · exact raisesOrKeeps_finish rfl
    · exact .raises _
  | tpose bpp4 =>
    cases h
    refine raisesOrKeeps_unlessCancelled ?_
    cases tposePlan bpp4 s with
    | error e => exact .raises e
    | ok f => exact raisesOrKeeps_finish (by rw [State.err, commit_status, State.err])
  | rotStart bpp4 =>
    cases h
    refine raisesOrKeeps_unlessCancelled ?_
    split_ifs
    · exact .raises _
    · exact raisesOrKeeps_finish rfl
  | pack1 rot inv maskOr =>
    cases h
    refine raisesOrKeeps_unlessCancelled ?_
    cases pack1Plan rot inv maskOr s with
    | error e => exact .raises e
    | ok p => exact raisesOrKeeps_finish (by rw [commitPack_eq]; rfl)
  | pack4 rot maskOr =>
    cases h
    refine raisesOrKeeps_unlessCancelled ?_
    cases pack4Plan rot maskOr s with
    | error e => exact .raises e
    | ok p => exact raisesOrKeeps_finish (by rw [commitPack_eq]; rfl)
  | compress plane =>
    cases h
    split_ifs
    · exact .raises _
    · refine raisesOrKeeps_unlessCancelled ?_
      cases hp : compressPlan plane s with
      | error e => exact .raises e
      | ok c =>
        have hkept : (s.commitRow plane c).err = s.err := by simp [State.err, State.commitRow]
        exact .keeps ((err_endStep _ _ (compressPlan_ending plane s c hp)).trans hkept)
    · exact raisesOrKeeps_unlessCancelled (.raises _)

/-! ### Cancellation -/

/-- With CTRL.CANCEL = 1 a cancellable command is discarded (R226). -/
theorem exec_of_cancelRequested (i : Instr) (s : State) (hc : s.cancelRequested = true) (hwf : i.wellFormed = true)
    (hi : ¬(i = .nop ∨ i = .closeSession ∨ i = .seedClr)) : exec i s = .next s.cancelCommand := by
  have hcancel (run : State) : s.unlessCancelled run = s.cancelCommand := unlessCancelled_of_requested s run hc
  cases i with
  | nop => exact absurd (.inl rfl) hi
  | closeSession => exact absurd (.inr (.inl rfl)) hi
  | seedClr => exact absurd (.inr (.inr rfl)) hi
  | openSession => exact congrArg _ (hcancel _)
  | tpose bpp4 => exact congrArg _ (hcancel _)
  | rotStart bpp4 => exact congrArg _ (hcancel _)
  | pack1 rot inv maskOr => exact congrArg _ (hcancel _)
  | pack4 rot maskOr => exact congrArg _ (hcancel _)
  | compress plane =>
    have hplane : plane ≠ 3 := by
      rintro rfl
      exact absurd hwf (by decide)
    simp only [exec, execCompress, if_neg hplane, hcancel]

/-- NOP, CLOSE and SEEDCLR are not cancelled, and do the same whatever CTRL holds (R226). -/
theorem exec_of_neverCancelled (i : Instr) (s : State) (hi : i = .nop ∨ i = .closeSession ∨ i = .seedClr) :
    ∃ t, exec i s = .next t ∧ t.cancelled = false ∧
      ∀ v, exec i { s with ctrl := v } = .next { t with ctrl := v } := by
  rcases hi with rfl | rfl | rfl
  · exact ⟨_, rfl, cancelled_endStep s .normal, fun _ => rfl⟩
  · cases hs : s.session with
    | true =>
      exact ⟨_, exec_closeSession_of_session s hs, cancelled_endStep s.closed .normal,
        fun v => exec_closeSession_of_session { s with ctrl := v } hs⟩
    | false =>
      exact ⟨_, exec_closeSession_of_free s hs, cancelled_endStep s (.error .noSession),
        fun v => exec_closeSession_of_free { s with ctrl := v } hs⟩
  · cases hs : s.session with
    | true =>
      exact ⟨_, exec_seedClr_of_session s hs, cancelled_endStep s.zeroSeeds .normal,
        fun v => exec_seedClr_of_session { s with ctrl := v } hs⟩
    | false =>
      exact ⟨_, exec_seedClr_of_free s hs, cancelled_endStep s (.error .noSession),
        fun v => exec_seedClr_of_free { s with ctrl := v } hs⟩

/-! ### The statements -/

/-- Settles O17: ERR rose from 0 to 1, so the command raised an error, and an error changes nothing but STATUS. -/
theorem errorsArePrecise : Obligations.ErrorsArePrecise := by
  intro i s t hs hexec ht
  cases exec_raisesOrKeeps i s t hexec with
  | raises c =>
    obtain ⟨hfields, -, -⟩ := endsWithError_raiseError s c
    obtain ⟨-, -, -, -, hcode, -⟩ := (statusFields_eq_iff ..).mp hfields
    obtain ⟨hne, hle⟩ := errorCode_legal c
    rw [hcode]
    exact ⟨endsWithError_raiseError s c, Nat.pos_of_ne_zero (fun h0 => hne (BitVec.eq_of_toNat_eq h0)), hle⟩
  | keeps hkept => exact absurd (ht.symm.trans (hkept.trans hs)) (by decide)

/-- Settles O18: check 2 of R223 discards a cancellable command, and the other three do not read CTRL. -/
theorem cancelDiscardsCancellableCommands : Obligations.CancelDiscardsCancellableCommands := by
  intro i s hc hwf
  by_cases hi : i = .nop ∨ i = .closeSession ∨ i = .seedClr
  · obtain ⟨t, hexec, hcan, hctrl⟩ := exec_of_neverCancelled i s hi
    refine ⟨t, hexec, ?_⟩
    rw [if_pos hi]
    exact ⟨hcan, hctrl 0⟩
  · refine ⟨_, exec_of_cancelRequested i s hc hwf hi, ?_⟩
    rw [if_neg hi]
    exact endsCancelled_cancelCommand s

end Sys2Proof.Machine
end

section
/-! ## WAIT (30_encoding.md R90, 70_reset_and_hazards.md R262): a poll counts the delay down, and the engine step ends it

A poll of a command in flight leaves the WAIT on the host's list and the delay one less, so induction on the delay
reaches the engine step. -/

namespace Sys2Proof.Machine

/-! ### Runs of one step more -/

/-- The run of a machine whose first step is known. -/
theorem run_succ_of_step (M : Host.Core) (k : Nat) (s t : M.State) (h : M.step s = .next t) :
    M.run (k + 1) s = M.run k t := by
  simp only [Host.Core.run, h]

/-- One step more than a run is the step of the state it ends in. -/
theorem run_succ_of_run (M : Host.Core) (k : Nat) (s t : M.State) (h : M.run k s = .next t) :
    M.run (k + 1) s = M.step t := by
  induction k generalizing s with
  | zero =>
    cases h
    cases hstep : M.step t <;> simp only [Host.Core.run, hstep]
  | succ k ih =>
    cases hstep : M.step s with
    | next u =>
      rw [run_succ_of_step M _ s u hstep] at h ⊢
      exact ih u h
    | fault r => simp [Host.Core.run, hstep] at h
    | refused r => simp [Host.Core.run, hstep] at h

/-! ### The steps of a WAIT -/

/-- A host action goes before the engine step of a command that still has a delay (20_memory.md R70; log 4). -/
theorem engineTurn_of_delay (s : State) (a : HostAction) (rest : List HostAction) (hdelay : s.delay ≠ 0)
    (h : s.host = a :: rest) : s.engineTurn = false := by
  simp [State.engineTurn, hdelay, h]

/-- The engine step comes next when no delay is left (log 4). -/
theorem engineTurn_of_no_delay (s : State) (hbusy : s.busy = true) (hdelay : s.delay = 0) : s.engineTurn = true := by
  simp [State.engineTurn, hbusy, hdelay]

/-- The host's turn leaves STATUS, and so BUSY, as it is. -/
@[simp] theorem busy_hostTurn (s : State) (rest : List HostAction) : (s.hostTurn rest).busy = s.busy := rfl

/-- In the host's turn, a WAIT is one poll of STATUS (R90). -/
theorem step_wait (s : State) (rest : List HostAction) (hturn : s.engineTurn = false) (h : s.host = .wait :: rest) :
    step s = .next (hostWait (s.hostTurn rest)) :=
  step_host s .wait rest hturn h

/-- A poll that reads BUSY = 0 ends the WAIT (R90). -/
theorem step_wait_of_not_busy (s : State) (rest : List HostAction) (hbusy : s.busy = false)
    (h : s.host = .wait :: rest) : step s = .next ((s.hostTurn rest).receive (s.readReg .status)) := by
  rw [step_wait s rest (engineTurn_of_not_busy s hbusy) h, hostWait, if_neg (by simp [hbusy])]
  rfl

/-- A poll that reads BUSY = 1 leaves the WAIT on the list, and one fewer goes before the engine step (R90). -/
theorem step_wait_of_busy (s : State) (rest : List HostAction) (hbusy : s.busy = true) (hdelay : s.delay ≠ 0)
    (h : s.host = .wait :: rest) :
    step s = .next ((s.hostTurn (.wait :: rest)).receive (s.readReg .status)) := by
  rw [step_wait s rest (engineTurn_of_delay s _ rest hdelay h) h, hostWait, if_pos (by simp [hbusy])]
  rfl

/-- The engine step clears BUSY and the delay, and leaves the host's list as it is (R91). -/
theorem engineStep_clearsBusy (s : State) (hturn : s.engineTurn = true) :
    ∃ t, step s = .next t ∧ t.busy = false ∧ t.host = s.host ∧ t.delay = 0 := by
  obtain ⟨t, hstep⟩ := engineStep_next s hturn
  obtain ⟨u, e, rfl, hkeeps⟩ := engineStep_ends s t hturn hstep
  refine ⟨_, hstep, (busy_retire _).trans (busy_endStep u e), ?_, rfl⟩
  rw [retire_eq]
  exact hkeeps.host

/-- With a command in flight and the host at a WAIT, as many polls as the delay says and then the engine step clear
BUSY, with the host still at the WAIT (70_reset_and_hazards.md R262; log 4). -/
theorem run_wait_of_busy (s : State) (rest : List HostAction) (hbusy : s.busy = true) (h : s.host = .wait :: rest) :
    ∃ t, Host.Core.run Sys2Proof.core (s.delay + 1) s = .next t ∧ t.busy = false ∧ t.host = .wait :: rest ∧
      t.delay = 0 := by
  induction hd : s.delay generalizing s with
  | zero =>
    obtain ⟨t, hstep, hdone, hhost, hdelay⟩ := engineStep_clearsBusy s (engineTurn_of_no_delay s hbusy hd)
    exact ⟨t, run_succ_of_step Sys2Proof.core 0 s t hstep, hdone, hhost.trans h, hdelay⟩
  | succ d ih =>
    have hstep := step_wait_of_busy s rest hbusy (by omega) h
    obtain ⟨t, hrun, hends⟩ := ih ((s.hostTurn (.wait :: rest)).receive (s.readReg .status)) hbusy rfl
      (by change s.delay - 1 = d; omega)
    exact ⟨t, (run_succ_of_step Sys2Proof.core (d + 1) s _ hstep).trans hrun, hends⟩

/-! ### The statement -/

/-- Settles O9: the engine step leaves no delay, so the poll after it changes nothing but the list and what the host
received. -/
theorem everyWaitEnds : Obligations.EveryWaitEnds := by
  intro s rest h
  refine ⟨fun hbusy => step_wait_of_not_busy s rest hbusy h, fun hbusy => ?_⟩
  obtain ⟨t, hrun, hdone, hhost, hdelay⟩ := run_wait_of_busy s rest hbusy h
  have hturn : t.hostTurn rest = { t with host := rest } := by simp only [State.hostTurn, hdelay]
  have hpoll := step_wait_of_not_busy t rest hdone hhost
  rw [hturn] at hpoll
  exact ⟨t, hrun, hdone, hhost, (run_succ_of_run Sys2Proof.core _ s t hrun).trans hpoll⟩

end Sys2Proof.Machine
end
